-- ==== Sys2Proof/Word.lean ====
section
/-! DEFINITION. The value types of the interrupt controller and the constants of `00_scope.md` rules R6 and R12. -/

namespace Sys2Proof

/-- An 8-bit value: one byte of a distributor access (rule R12). -/
abbrev Byte := BitVec 8

/-- A 32-bit register data word (rule R12). -/
abbrev Word := BitVec 32

/-- A bitset over CPUs (rule R10): bit `c` belongs to CPU `c`. `MAX_CPU` is 8 (rule R6), so eight bits hold
every bitset; that no bit at or above `NUM_CPU` is set is an invariant (rule R51), not part of the type. -/
abbrev CpuSet := BitVec 8

/-- A line id (rule R12): real lines are `0 .. NUM_IRQ-1`, and 1023 is the sentinel. -/
abbrev IrqId := BitVec 10

/-- The cached running priority (rule R34): nine bits, because it can also hold `0x100`. -/
abbrev RunPrio := BitVec 9

/-- `NONE_ID` of rule R6: the "no interrupt" sentinel. -/
abbrev noneId : IrqId := 1023#10

/-- `NONE_PRIO` of rule R6: the "none running" priority sentinel. -/
abbrev nonePrio : RunPrio := 0x100#9

/-- `NUM_PRIVATE` of rule R6: lines `0 .. 31` are private. -/
abbrev numPrivate : Nat := 32

/-- `NUM_SGI` of rule R6: lines `0 .. 15` are software-generated. -/
abbrev numSgi : Nat := 16

/-- `MAX_CPU` of rule R6 (the spec's decision D10). -/
abbrev maxCpu : Nat := 8

/-- The trigger mode of a line (rule R27). -/
inductive Trigger
  | edge
  | level
  deriving DecidableEq, Repr

/-- The routing model of a line (rule R28): `nn` is "fixed N:N", `oneN` is "1:N broadcast". -/
inductive RoutingModel
  | nn
  | oneN
  deriving DecidableEq, Repr

end Sys2Proof
end

