-- ==== Sys2Proof/Config.lean ====
section
/-! DEFINITION. The construction-time parameters of one instance (`00_scope.md` rule R6), and the open values of the
instance that `State.reset` describes. -/

namespace Sys2Proof

/-- `MODE` of rule R6: the register layout. Only `external` can be built (rules R5 and R301). -/
inductive Mode
  | external
  | embedded
  deriving DecidableEq, Repr

/-- The two readings of the per-line part of a snapshot that rule R281 leaves open. -/
inductive LineGrouping
  /-- All target masks first, then all flag records. -/
  | masksFirst
  /-- The target mask inside each line's record. -/
  | maskInRecord
  deriving DecidableEq, Repr, Inhabited

/-- `SNAPSHOT_FORMAT` of rule R6: "the snapshot's field widths and byte layout". It holds what rules R281 and R282 and the
spec's decision D30 leave open: the width in bytes of each persisted field, the number of per-CPU entries, the grouping of
the per-line part and the byte order. The fields `enabled`, `pending`, `active`, `model` and `trigger` of a line have no
width here: rule R282 gives them one byte each. -/
structure SnapshotFormat where
  /-- The width of the version number. -/
  versionBytes : Nat
  /-- The width of `dist_enabled`. -/
  distEnabledBytes : Nat
  /-- The width of `cpu_enabled[c]`. -/
  cpuEnabledBytes : Nat
  /-- The width of an entry of `prio_priv[c]`. -/
  prioPrivBytes : Nat
  /-- The width of an entry of `last_active[c]`. -/
  lastActiveBytes : Nat
  /-- The width of `prio_mask[c]`. -/
  prioMaskBytes : Nat
  /-- The width of `run_id[c]`. -/
  runIdBytes : Nat
  /-- The width of `run_prio[c]`. -/
  runPrioBytes : Nat
  /-- The width of `best_pending[c]`. -/
  bestPendingBytes : Nat
  /-- The width of an entry of `prio_shared`. -/
  prioSharedBytes : Nat
  /-- The width of `target[i]`. -/
  targetBytes : Nat
  /-- How many per-CPU entries there are: "Whether the per-CPU loop runs over `NUM_CPU` or over `MAX_CPU` entries is
  likewise not stated". The model admits any number (DESIGN CHOICE, assumption log 11). -/
  cpuEntries : Nat
  /-- Which reading of the per-line part. -/
  grouping : LineGrouping
  /-- The order of the bytes of a field, least significant first or not; one order for all fields (DESIGN CHOICE, assumption
  log 11). -/
  leastFirst : Bool
  deriving DecidableEq, Repr, Inhabited

/-- The parameters of rule R6, "each as an argument (a configuration field), fixed for the life of an instance".
They are carried by the state (`State.cfg`) and no operation changes them, so a statement about every state is a
statement about every choice of the parameters. `MAX_CPU` and `OFF_ID` have one given value and are constants. -/
structure Config where
  /-- `NUM_IRQ`: the number of interrupt lines. -/
  numIrq : Nat
  /-- `NUM_CPU`: the number of CPUs served. -/
  numCpu : Nat
  /-- `MODE`: the register layout. -/
  mode : Mode
  /-- `ID_BYTES[0..7]`: the eight identification bytes. -/
  idBytes : List Byte
  /-- `OFF_CTRL`. -/
  offCtrl : Nat
  /-- `OFF_SET_ENABLE`. -/
  offSetEnable : Nat
  /-- `OFF_CLR_ENABLE`. -/
  offClrEnable : Nat
  /-- `OFF_SET_PENDING`. -/
  offSetPending : Nat
  /-- `OFF_CLR_PENDING`. -/
  offClrPending : Nat
  /-- `OFF_ACTIVE`. -/
  offActive : Nat
  /-- `OFF_PRIORITY`. -/
  offPriority : Nat
  /-- `OFF_TARGET`. -/
  offTarget : Nat
  /-- `OFF_CONFIG`. -/
  offConfig : Nat
  /-- `OFF_SGI`. -/
  offSgi : Nat
  /-- `PEND_LEVEL_ON_ENABLE`: whether a Set-Enable write makes a raised level-triggered line pending. -/
  pendLevelOnEnable : Bool
  /-- `DIST_BASE`: where the platform places the distributor window; no rule reads it (rule R72). -/
  distBase : Nat
  /-- `CPU_BASE[c]`: where the platform places the CPU-interface windows; no rule reads it (rule R72). -/
  cpuBase : List Nat
  /-- `SNAPSHOT_VERSION` (rule R283). -/
  snapshotVersion : Nat
  /-- `SNAPSHOT_FORMAT` (rule R282); a snapshot is exchanged as the record of rule R280, so no rule reads it
  (assumption log 11). -/
  snapshotFormat : SnapshotFormat
  deriving DecidableEq, Repr

/-- `OFF_ID` of rule R6: given by the source. -/
abbrev offId : Nat := 0xFE0

/-- `ID_BYTES[m]` of the instance at reset: the spec gives no value (OPEN, decision D19), so nothing is known of it
(assumption log 3). -/
opaque Config.openIdByte : Nat → Byte

/-- `SNAPSHOT_VERSION` of the instance at reset: OPEN (decision D30), so nothing is known of it (assumption log 3). -/
opaque Config.openSnapshotVersion : Nat

/-- `SNAPSHOT_FORMAT` of the instance at reset: OPEN (decision D30), so nothing is known of it (assumption log 3). -/
opaque Config.openSnapshotFormat : SnapshotFormat

/-- `DIST_BASE` of the instance at reset: OPEN (decision D29), so nothing is known of it (assumption log 3). -/
opaque Config.openDistBase : Nat

/-- `CPU_BASE[c]` of the instance at reset: OPEN (decision D29), so nothing is known of it (assumption log 3). -/
opaque Config.openCpuBase : Nat → Nat

/-- The spec's default map and default options (rule R6, rule R104) for an instance of `numIrq` lines and `numCpu`
CPUs with the given identification bytes and snapshot version. -/
def Config.withDefaults (numIrq numCpu : Nat) (idBytes : List Byte) (version : Nat) : Config where
  numIrq := numIrq
  numCpu := numCpu
  mode := .external
  idBytes := idBytes
  offCtrl := 0x000
  offSetEnable := 0x100
  offClrEnable := 0x180
  offSetPending := 0x200
  offClrPending := 0x280
  offActive := 0x300
  offPriority := 0x400
  offTarget := 0x800
  offConfig := 0xC00
  offSgi := 0xF00
  pendLevelOnEnable := false
  distBase := Config.openDistBase
  cpuBase := (List.range numCpu).map Config.openCpuBase
  snapshotVersion := version
  snapshotFormat := Config.openSnapshotFormat

/-- The instance that `State.reset` describes: 64 lines and 2 CPUs (DESIGN CHOICE, assumption log 2: the spec gives
legal values and no default), every option at the spec's default, every OPEN value left unknown. -/
def Config.atReset : Config :=
  Config.withDefaults 64 2 ((List.range 8).map Config.openIdByte) Config.openSnapshotVersion

end Sys2Proof
end

