-- ==== Sys2Proof/Syntax.lean ====
section
/-! DEFINITION. The operations of the block (`30_encoding.md` rule R100): one constructor of `Instr` per row of
spec/opcode_table.json, the bus transaction of rule R101, the events the agents of rule R14 issue, the snapshot record
of rule R281 and the diagnostics of rule R300. -/

namespace Sys2Proof

/-- Which kind of register window (rule R101). -/
inductive Win
  | dist
  | cpuif
  deriving DecidableEq, Repr

/-- The direction of a register access (rule R101). -/
inductive Dir
  | read
  | write
  deriving DecidableEq, Repr

/-- The width of a register access (rule R101): one, two or four bytes. -/
inductive Size
  | byte
  | half
  | word
  deriving DecidableEq, Repr

/-- The width in bytes. -/
def Size.bytes : Size → Nat
  | .byte => 1
  | .half => 2
  | .word => 4

/-- A register transaction, the tuple of rule R101. `cpu` is the calling CPU for `dist` and the CPU the window is bound
to for `cpuif` (rule R73). A write of fewer than 32 bits uses the low bits of `data`; a read does not look at it.

`off` has twelve bits for both kinds of window, although rules R71 and R101 give a `cpuif` offset eight: the offsets
`0x100 .. 0xFFF` of a CPU window exist here as transactions, and decode to none of its registers (DESIGN CHOICE, assumption
log 16). -/
structure Txn where
  win : Win
  cpu : Nat
  dir : Dir
  off : BitVec 12
  size : Size
  data : Word
  deriving DecidableEq, Repr

/-- The per-CPU part of a snapshot (rule R281). -/
structure CpuSnap where
  enabled : Bool
  prioPriv : List Byte
  lastActive : List IrqId
  prioMask : Byte
  runId : IrqId
  runPrio : RunPrio
  bestPending : IrqId
  deriving DecidableEq, Repr

/-- The per-line record of a snapshot (rule R281). -/
structure LineSnap where
  target : CpuSet
  enabled : CpuSet
  pending : CpuSet
  active : CpuSet
  model : RoutingModel
  trigger : Trigger
  deriving DecidableEq, Repr

/-- A snapshot: the abstract record with the fields of rule R281, in its order ("a record, or a byte string once rule R282's
parameters are fixed", rule R280). Its byte string would be fixed by the open parameter `Config.snapshotFormat`
(assumption log 11). -/
structure Snapshot where
  version : Nat
  distEnabled : Bool
  cpus : List CpuSnap
  prioShared : List Byte
  lines : List LineSnap
  deriving DecidableEq, Repr

/-- The diagnostic of a fatal error (rule R300): its kind and the offending values. -/
inductive Diag
  /-- Rule R301: construction refused. -/
  | badConfig (numIrq numCpu : Nat) (mode : Mode)
  /-- Rule R104: "A model that takes other bases must check that the eleven ranges are disjoint"; construction
  refused by this model (assumption log 6). -/
  | overlappingMap
  /-- Rule R302: an access to an undecoded register offset, with the window, CPU, direction, offset and size in bytes. -/
  | undecodedOffset (win : Win) (cpu : Nat) (dir : Dir) (off : Nat) (size : Nat)
  /-- Rule R303: the snapshot version found. -/
  | snapshotVersion (found : Nat)
  deriving DecidableEq, Repr

/-- What an agent of rule R14 asks of the block: one event is one whole, atomic operation (rule R75). -/
inductive Event
  /-- A CPU's register access. -/
  | bus (t : Txn)
  /-- A device: external input `n` now has level `v` (rule R160). -/
  | line (n v : Nat)
  /-- The host: the reset operation (rule R350). -/
  | reset
  /-- The host: save a snapshot (rule R280). -/
  | save
  /-- The host: load a snapshot (rule R285). -/
  | load (snap : Snapshot)
  deriving DecidableEq, Repr

/-- The operations of the block, one constructor per row of spec/opcode_table.json.

`c` is the CPU index of the access. A distributor row is ONE BYTE of an access (rule R102): `k` is the byte's offset
inside a register that is not per line, `j` the byte's offset inside a group whose bytes hold several lines, `i` a line
id in the groups of one byte per line, and `b` the byte written. `DIST_SGI.W` and the CPU-interface rows are whole 32-bit
accesses with data word `v`. -/
inductive Instr
  | reset
  | setLine (n v : Nat)
  | distCtrlR (c k : Nat)
  | distCtrlW (c k : Nat) (b : Byte)
  | distSetEnableR (c j : Nat)
  | distSetEnableW (c j : Nat) (b : Byte)
  | distClrEnableR (c j : Nat)
  | distClrEnableW (c j : Nat) (b : Byte)
  | distSetPendingR (c j : Nat)
  | distSetPendingW (c j : Nat) (b : Byte)
  | distClrPendingR (c j : Nat)
  | distClrPendingW (c j : Nat) (b : Byte)
  | distActiveR (c j : Nat)
  | distActiveW (c j : Nat) (b : Byte)
  | distPriorityR (c i : Nat)
  | distPriorityW (c i : Nat) (b : Byte)
  | distTargetR (c i : Nat)
  | distTargetW (c i : Nat) (b : Byte)
  | distConfigR (c j : Nat)
  | distConfigW (c j : Nat) (b : Byte)
  | distSgiW (c : Nat) (v : Word)
  | distSgiR (c k : Nat)
  | distIdR (c k : Nat)
  | distIdW (c k : Nat) (b : Byte)
  | cpuCtrlR (c : Nat)
  | cpuCtrlW (c : Nat) (v : Word)
  | cpuPrimaskR (c : Nat)
  | cpuPrimaskW (c : Nat) (v : Word)
  | cpuBinpointR (c : Nat)
  | cpuBinpointW (c : Nat) (v : Word)
  | cpuAckR (c : Nat)
  | cpuAckW (c : Nat) (v : Word)
  | cpuEoiR (c : Nat)
  | cpuEoiW (c : Nat) (v : Word)
  | cpuRunpriR (c : Nat)
  | cpuRunpriW (c : Nat) (v : Word)
  | cpuHipendR (c : Nat)
  | cpuHipendW (c : Nat) (v : Word)
  | snapshotSave
  | snapshotLoad (snap : Snapshot)
  deriving DecidableEq, Repr

end Sys2Proof
end

