-- ==== Sys2Proof/Decode.lean ====
section
/-! DEFINITION. From a bus transaction to an operation (`30_encoding.md` rules R101 to R103, R104, R120, R130 and
`42_distributor_regs.md` rule R181), from bytes to an instruction, and back. -/

namespace Sys2Proof

/-! ## The distributor map (rule R104) -/

/-- The register groups of the distributor window (rule R104). -/
inductive Group
  | ctrl
  | setEnable
  | clrEnable
  | setPending
  | clrPending
  | active
  | priority
  | target
  | config
  | sgi
  | id
  deriving DecidableEq, Repr

/-- A decoded range of the distributor window: `len` bytes from offset `base` belong to `group`. -/
structure Extent where
  group : Group
  base : Nat
  len : Nat
  deriving DecidableEq, Repr

/-- The offset lies in the range. -/
def Extent.holds (x : Extent) (off : Nat) : Bool := x.base ≤ off && off < x.base + x.len

/-- The first offset of a group (rule R104). -/
def Config.base (cfg : Config) : Group → Nat
  | .ctrl => cfg.offCtrl
  | .setEnable => cfg.offSetEnable
  | .clrEnable => cfg.offClrEnable
  | .setPending => cfg.offSetPending
  | .clrPending => cfg.offClrPending
  | .active => cfg.offActive
  | .priority => cfg.offPriority
  | .target => cfg.offTarget
  | .config => cfg.offConfig
  | .sgi => cfg.offSgi
  | .id => offId

/-- The length in bytes of a group's decoded range (rule R104): `N8 = NUM_IRQ / 8`, `N4 = NUM_IRQ / 4`. -/
def Config.len (cfg : Config) : Group → Nat
  | .ctrl => 4
  | .setEnable => cfg.numIrq / 8
  | .clrEnable => cfg.numIrq / 8
  | .setPending => cfg.numIrq / 8
  | .clrPending => cfg.numIrq / 8
  | .active => cfg.numIrq / 8
  | .priority => cfg.numIrq
  | .target => cfg.numIrq
  | .config => cfg.numIrq / 4
  | .sgi => 4
  | .id => 32

/-- The range of a group. -/
def Config.extent (cfg : Config) (g : Group) : Extent := { group := g, base := cfg.base g, len := cfg.len g }

/-- The eleven groups, in the order of rule R104's table. -/
def Group.all : List Group :=
  [.ctrl, .setEnable, .clrEnable, .setPending, .clrPending, .active, .priority, .target, .config, .sgi, .id]

/-- The eleven decoded ranges of rule R104. -/
def Config.extents (cfg : Config) : List Extent := Group.all.map cfg.extent

/-- `Group(off)` of rule R181: the range that holds the offset, or none. -/
def Config.extentAt (cfg : Config) (off : Nat) : Option Extent := cfg.extents.find? (·.holds off)

/-- `DistDecodesRead` and `DistDecodesWrite` of rule R181: the SGI word decodes for neither, nor does an offset in no
range. -/
def Config.decodesByte (cfg : Config) (off : Nat) : Bool :=
  match cfg.extentAt off with
  | some x => x.group ≠ .sgi
  | none => false

/-! ## Rows of the operation table -/

/-- The row that a one-byte read at byte `k` of a group is. -/
def readRow (c : Nat) (g : Group) (k : Nat) : Instr :=
  match g with
  | .ctrl => .distCtrlR c k
  | .setEnable => .distSetEnableR c k
  | .clrEnable => .distClrEnableR c k
  | .setPending => .distSetPendingR c k
  | .clrPending => .distClrPendingR c k
  | .active => .distActiveR c k
  | .priority => .distPriorityR c k
  | .target => .distTargetR c k
  | .config => .distConfigR c k
  | .sgi => .distSgiR c k
  | .id => .distIdR c k

/-- The row that a one-byte write of `b` at byte `k` of a group is; the SGI word has none (rules R82 and R214). -/
def writeRow (c : Nat) (g : Group) (k : Nat) (b : Byte) : Option Instr :=
  match g with
  | .ctrl => some (.distCtrlW c k b)
  | .setEnable => some (.distSetEnableW c k b)
  | .clrEnable => some (.distClrEnableW c k b)
  | .setPending => some (.distSetPendingW c k b)
  | .clrPending => some (.distClrPendingW c k b)
  | .active => some (.distActiveW c k b)
  | .priority => some (.distPriorityW c k b)
  | .target => some (.distTargetW c k b)
  | .config => some (.distConfigW c k b)
  | .sgi => none
  | .id => some (.distIdW c k b)

/-- The row of a 32-bit read at an offset of a CPU-interface window (rules R120 and R240). -/
def cpuReadRow (c off : Nat) : Option Instr :=
  match off with
  | 0x00 => some (.cpuCtrlR c)
  | 0x04 => some (.cpuPrimaskR c)
  | 0x08 => some (.cpuBinpointR c)
  | 0x0C => some (.cpuAckR c)
  | 0x10 => some (.cpuEoiR c)
  | 0x14 => some (.cpuRunpriR c)
  | 0x18 => some (.cpuHipendR c)
  | _ => none

/-- The row of a 32-bit write at an offset of a CPU-interface window (rules R120 and R240). -/
def cpuWriteRow (c off : Nat) (v : Word) : Option Instr :=
  match off with
  | 0x00 => some (.cpuCtrlW c v)
  | 0x04 => some (.cpuPrimaskW c v)
  | 0x08 => some (.cpuBinpointW c v)
  | 0x0C => some (.cpuAckW c v)
  | 0x10 => some (.cpuEoiW c v)
  | 0x14 => some (.cpuRunpriW c v)
  | 0x18 => some (.cpuHipendW c v)
  | _ => none

/-! ## Transactions (rule R103) -/

/-- What a transaction decodes to: one row of the operation table; a 16- or 32-bit distributor access all of whose
bytes decode (rules R81 and R82), which is the sequence of its byte operations (rule R135); or nothing (rule R130). -/
inductive Decoded
  | op (i : Instr)
  | wideRead (c off n : Nat)
  | wideWrite (c off n : Nat) (v : Word)
  | undecoded (d : Diag)
  deriving DecidableEq, Repr

/-- The first byte of the `n` bytes from `off` that does not decode (rule R323: the first in ascending order is the one
the diagnostic names). -/
def Config.firstUndecoded (cfg : Config) (off n : Nat) : Option Nat :=
  (List.range n).find? (fun k => !cfg.decodesByte (off + k))

/-- A one-byte distributor access (rules R81 and R82 with `n = 1`): its row, or the diagnostic. -/
def decodeByteAccess (cfg : Config) (t : Txn) : Decoded :=
  let off := t.off.toNat
  let row : Option Instr :=
    match cfg.extentAt off with
    | none => none
    | some x =>
      match t.dir with
      | .read => some (readRow t.cpu x.group (off - x.base))
      | .write => writeRow t.cpu x.group (off - x.base) (t.data.setWidth 8)
  match row with
  | some i => .op i
  | none => .undecoded (.undecodedOffset .dist t.cpu t.dir off 1)

/-- A distributor access (rule R103): the end of the window, the SGI word, then byte by byte. -/
def decodeDist (cfg : Config) (t : Txn) : Decoded :=
  let off := t.off.toNat
  let n := t.size.bytes
  if 0x1000 < off + n then
    .undecoded (.undecodedOffset .dist t.cpu t.dir off n)
  else if t.dir = .write ∧ t.size = .word ∧ off = cfg.offSgi then
    .op (.distSgiW t.cpu t.data)
  else if t.size = .byte then
    decodeByteAccess cfg t
  else
    match cfg.firstUndecoded off n with
    | some k => .undecoded (.undecodedOffset .dist t.cpu t.dir (off + k) n)
    | none =>
      match t.dir with
      | .read => .wideRead t.cpu off n
      | .write => .wideWrite t.cpu off n t.data

/-- A CPU-interface access (rules R84, R120 and R240): 32 bits wide, at one of the seven offsets. An offset above `0xFF`,
which rule R101 does not have, is undecoded like every other (DESIGN CHOICE, assumption log 16). -/
def decodeCpuif (t : Txn) : Decoded :=
  let off := t.off.toNat
  let row : Option Instr :=
    if t.size = .word then
      match t.dir with
      | .read => cpuReadRow t.cpu off
      | .write => cpuWriteRow t.cpu off t.data
    else none
  match row with
  | some i => .op i
  | none => .undecoded (.undecodedOffset .cpuif t.cpu t.dir off t.size.bytes)

/-- Rule R103: "A model's decoder is total". -/
def decodeTxn (cfg : Config) (t : Txn) : Decoded :=
  match t.win with
  | .dist => decodeDist cfg t
  | .cpuif => decodeCpuif t

/-! ## Instruction words

Rule R102 packs a transaction's selecting fields into the 14-bit selector. The CPU index and the data word have no bits
in the source; this model puts them above the selector (assumption log 7). An instruction is 64 bits, eight bytes with
the least significant first (rule R80): bits 13:0 the selector, bits 15:14 zero, bits 31:16 the CPU index, bits 63:32
the data word. The width is the row's own (`size` in the table). -/

/-- The eight bytes of an instruction word, least significant first. -/
def wordBytes (w : Nat) : List Byte := (List.range 8).map (fun k => BitVec.ofNat 8 (w / 256 ^ k))

/-- The number whose bytes these are, least significant first. -/
def bytesValue : List Byte → Nat
  | [] => 0
  | b :: rest => b.toNat + 256 * bytesValue rest

/-- The selector of rule R102. -/
def selector (win : Win) (dir : Dir) (off : Nat) : Nat :=
  (match win with | .dist => 0 | .cpuif => 0x2000) + (match dir with | .read => 0 | .write => 0x1000) + off

/-- The whole-access width of the rows a selector can match (column `size` of the table): 32 bits in a CPU-interface
window and for a write at `OFF_SGI`, 8 bits elsewhere. -/
def rowSize (cfg : Config) (win : Win) (dir : Dir) (off : Nat) : Size :=
  match win with
  | .cpuif => .word
  | .dist => if dir = .write ∧ off = cfg.offSgi then .word else .byte

/-- Why some bytes are no instruction. -/
inductive Reject
  /-- Not eight bytes. -/
  | wrongLength
  /-- Bits 15:14 of the first word are not zero: the selector has 14 bits (rule R102). -/
  | notASelector
  /-- No row matches (rule R130). -/
  | undecoded (d : Diag)
  /-- The access is not one row of the table. It does not happen: `rowSize` gives a width for which it is one. -/
  | notOneRow
  deriving DecidableEq, Repr

/-- The transaction an instruction word stands for. A CPU-interface word whose offset field is above `0xFF` stands for an
access at that offset (DESIGN CHOICE, assumption log 16). -/
def txnOfWord (cfg : Config) (w : Nat) : Txn :=
  let win : Win := if w.testBit 13 then .cpuif else .dist
  let dir : Dir := if w.testBit 12 then .write else .read
  let off : Nat := w % 0x1000
  { win := win
    cpu := w / 2 ^ 16 % 2 ^ 16
    dir := dir
    off := BitVec.ofNat 12 off
    size := rowSize cfg win dir off
    data := BitVec.ofNat 32 (w / 2 ^ 32) }

/-- The transaction the bytes of an instruction stand for. -/
def txnOfBytes (cfg : Config) (bytes : List Byte) : Except Reject Txn :=
  if bytes.length ≠ 8 then .error .wrongLength
  else if bytesValue bytes / 2 ^ 14 % 4 ≠ 0 then .error .notASelector
  else .ok (txnOfWord cfg (bytesValue bytes))

/-- The instruction the bytes stand for, or the reason they stand for none. -/
def decode (cfg : Config) (bytes : List Byte) : Except Reject Instr :=
  match txnOfBytes cfg bytes with
  | .error r => .error r
  | .ok t =>
    match decodeTxn cfg t with
    | .op i => .ok i
    | .undecoded d => .error (.undecoded d)
    | .wideRead _ _ _ => .error .notOneRow
    | .wideWrite _ _ _ _ => .error .notOneRow

/-! ## Encoding -/

/-- The selector, CPU index and data word of an instruction; none for the four rows that are no bus transactions
(rule R138). -/
def Instr.fields (cfg : Config) : Instr → Option (Nat × Nat × Nat)
  | .reset => none
  | .setLine _ _ => none
  | .distCtrlR c k => some (selector .dist .read (cfg.offCtrl + k), c, 0)
  | .distCtrlW c k b => some (selector .dist .write (cfg.offCtrl + k), c, b.toNat)
  | .distSetEnableR c j => some (selector .dist .read (cfg.offSetEnable + j), c, 0)
  | .distSetEnableW c j b => some (selector .dist .write (cfg.offSetEnable + j), c, b.toNat)
  | .distClrEnableR c j => some (selector .dist .read (cfg.offClrEnable + j), c, 0)
  | .distClrEnableW c j b => some (selector .dist .write (cfg.offClrEnable + j), c, b.toNat)
  | .distSetPendingR c j => some (selector .dist .read (cfg.offSetPending + j), c, 0)
  | .distSetPendingW c j b => some (selector .dist .write (cfg.offSetPending + j), c, b.toNat)
  | .distClrPendingR c j => some (selector .dist .read (cfg.offClrPending + j), c, 0)
  | .distClrPendingW c j b => some (selector .dist .write (cfg.offClrPending + j), c, b.toNat)
  | .distActiveR c j => some (selector .dist .read (cfg.offActive + j), c, 0)
  | .distActiveW c j b => some (selector .dist .write (cfg.offActive + j), c, b.toNat)
  | .distPriorityR c i => some (selector .dist .read (cfg.offPriority + i), c, 0)
  | .distPriorityW c i b => some (selector .dist .write (cfg.offPriority + i), c, b.toNat)
  | .distTargetR c i => some (selector .dist .read (cfg.offTarget + i), c, 0)
  | .distTargetW c i b => some (selector .dist .write (cfg.offTarget + i), c, b.toNat)
  | .distConfigR c j => some (selector .dist .read (cfg.offConfig + j), c, 0)
  | .distConfigW c j b => some (selector .dist .write (cfg.offConfig + j), c, b.toNat)
  | .distSgiW c v => some (selector .dist .write cfg.offSgi, c, v.toNat)
  | .distSgiR c k => some (selector .dist .read (cfg.offSgi + k), c, 0)
  | .distIdR c k => some (selector .dist .read (offId + k), c, 0)
  | .distIdW c k b => some (selector .dist .write (offId + k), c, b.toNat)
  | .cpuCtrlR c => some (selector .cpuif .read 0x00, c, 0)
  | .cpuCtrlW c v => some (selector .cpuif .write 0x00, c, v.toNat)
  | .cpuPrimaskR c => some (selector .cpuif .read 0x04, c, 0)
  | .cpuPrimaskW c v => some (selector .cpuif .write 0x04, c, v.toNat)
  | .cpuBinpointR c => some (selector .cpuif .read 0x08, c, 0)
  | .cpuBinpointW c v => some (selector .cpuif .write 0x08, c, v.toNat)
  | .cpuAckR c => some (selector .cpuif .read 0x0C, c, 0)
  | .cpuAckW c v => some (selector .cpuif .write 0x0C, c, v.toNat)
  | .cpuEoiR c => some (selector .cpuif .read 0x10, c, 0)
  | .cpuEoiW c v => some (selector .cpuif .write 0x10, c, v.toNat)
  | .cpuRunpriR c => some (selector .cpuif .read 0x14, c, 0)
  | .cpuRunpriW c v => some (selector .cpuif .write 0x14, c, v.toNat)
  | .cpuHipendR c => some (selector .cpuif .read 0x18, c, 0)
  | .cpuHipendW c v => some (selector .cpuif .write 0x18, c, v.toNat)
  | .snapshotSave => none
  | .snapshotLoad _ => none

/-- The instruction word of an operation that is a bus transaction. -/
def encodeWord (cfg : Config) (i : Instr) : Option Nat :=
  (i.fields cfg).map fun f => f.1 + f.2.1 * 2 ^ 16 + f.2.2 * 2 ^ 32

/-- The bytes of an instruction, least significant first; none for the four rows that are no bus transactions
(rule R138). -/
def encode (cfg : Config) (i : Instr) : Option (List Byte) := (encodeWord cfg i).map wordBytes

/-- The instruction read from an operation-table word under the spec's default map: the word's bits above `nbits` are
zero, so the CPU index and the data word are 0. -/
def decodeTableWord (nbits w : Nat) : Option Instr :=
  (decode Config.atReset (wordBytes (w % 2 ^ nbits))).toOption

end Sys2Proof
end

