-- ==== Sys2Proof/Machine/State.lean ====
section
/-! DEFINITION. The complete state of one instance (`10_state.md` rule R41) with its reset values, and the reasons a step
can stop. -/

namespace Sys2Proof.Machine

/-- The state of one interrupt line (rules R23 to R28 and R30). -/
structure Line where
  /-- `enabled[i]` (rule R23). -/
  enabled : CpuSet
  /-- `pending[i]` (rule R24). -/
  pending : CpuSet
  /-- `active[i]` (rule R25). -/
  active : CpuSet
  /-- `level[i]` (rule R26). -/
  level : Bool
  /-- `trigger[i]` (rule R27). -/
  trigger : Trigger
  /-- `model[i]` (rule R28). -/
  model : RoutingModel
  /-- `target[i]` (rule R30). -/
  target : CpuSet
  deriving DecidableEq, Repr

/-- The state of one CPU interface (rules R29 and R31 to R38). -/
structure Cpu where
  /-- `cpu_enabled[c]` (rule R31). -/
  enabled : Bool
  /-- `prio_mask[c]` (rule R32). -/
  prioMask : Byte
  /-- `bin_point[c]` (rule R33). -/
  binPoint : Word
  /-- `run_prio[c]` (rule R34). -/
  runPrio : RunPrio
  /-- `run_id[c]` (rule R35). -/
  runId : IrqId
  /-- `best_pending[c]` (rule R37). -/
  best : IrqId
  /-- `irq_out[c]` (rule R38). -/
  irqOut : Bool
  /-- `prio_priv[c][0 .. 31]` (rule R29). -/
  prioPriv : List Byte
  /-- `last_active[c][0 .. NUM_IRQ-1]` (rule R36). -/
  lastActive : List IrqId
  deriving DecidableEq, Repr

/-- What the last operation returned to its caller: nothing, the 32-bit value of a register read, or a snapshot
(rules R11, R101 and R280). The model's own field (assumption log 5). -/
inductive Response
  | none
  | data (v : Word)
  | snapshot (snap : Snapshot)
  deriving DecidableEq, Repr

/-- The state of one instance. -/
structure State where
  /-- The construction-time parameters (rule R6); no operation changes them. -/
  cfg : Config
  /-- The line table, one entry per line id `0 .. NUM_IRQ-1`. -/
  lines : List Line
  /-- `prio_shared[32 .. NUM_IRQ-1]` (rule R29); the entry of line `i` is at `i - 32`. -/
  prioShared : List Byte
  /-- The CPU interfaces, one per CPU `0 .. NUM_CPU-1`. -/
  cpus : List Cpu
  /-- `dist_enabled` (rule R39). -/
  distEnabled : Bool
  /-- `fatal` (rule R40): an operation has ended in a fatal error. -/
  fatal : Bool
  /-- The diagnostic of the fatal error (rule R300). The model's own field (assumption log 5). -/
  diag : Option Diag
  /-- What the last operation returned. The model's own field (assumption log 5). -/
  response : Response
  /-- The operations the agents have issued and the block has not yet performed, in the order they take effect
  (rule R75). The model's own field (assumption log 1). -/
  inbox : List Event
  deriving DecidableEq, Repr

/-- Why the machine stops. -/
inductive Fault
  /-- Raised by `CPU_EOI.W`: the walk of rule R249 over a cyclic chain that does not hold the id never ends
  (rules R252 and R367: "the model is stuck"). Safe: the spec gives the operation no end. -/
  | eoiWalkDiverges
  /-- Raised by `CPU_ACK.R` and `CPU_EOI.W`: a stored id other than 1023 names no line. No rule of the spec uses such an
  id to index the table (rule R44); only a malformed snapshot stores one (rule R287). Safe: no effect is given. -/
  | idBeyondTable
  deriving DecidableEq, Repr

/-- Why an operation has no meaning. -/
inductive Refusal
  /-- Raised by `exec` for an operation this model gives no meaning. Safe. No operation is left so. -/
  | notModelled (mnemonic : String)
  /-- Raised by every operation after a fatal error (rule R300). Safe: the spec refuses it. -/
  | fatalState
  /-- Raised by every register access whose CPU index is at least `NUM_CPU` (rule R73). Safe: the spec refuses it. -/
  | noSuchCpu
  /-- Raised by `SET_LINE` for an input index at least `NUM_IRQ - 32` (rule R162). Safe: the spec refuses it. -/
  | noSuchInput
  /-- Raised by `SET_LINE` for a level other than 0 and 1 (rule R162). Safe: the spec refuses it. -/
  | notALevel
  /-- Raised by `SNAPSHOT_LOAD` for a snapshot of the right version but another shape, from an instance with other
  parameters ("outside this spec", rule R287). Safe. -/
  | foreignSnapshot
  deriving DecidableEq, Repr

/-- The reset values of line `i` (rule R41), where `everyCpu` is `ALL`. -/
def Line.atReset (everyCpu : CpuSet) (i : Nat) : Line where
  enabled := if i < numSgi then everyCpu else 0
  pending := 0
  active := 0
  level := false
  trigger := if i < numSgi then .edge else .level
  model := .nn
  target := 0

/-- The reset values of a CPU interface (rule R41) of an instance with `numIrq` lines. -/
def Cpu.atReset (numIrq : Nat) : Cpu where
  enabled := false
  prioMask := 0xFF
  binPoint := 0
  runPrio := nonePrio
  runId := noneId
  best := noneId
  irqOut := false
  prioPriv := List.replicate numPrivate 0
  lastActive := List.replicate numIrq noneId

/-- The state construction leaves (rule R42): every field at the reset value of rule R41. -/
def State.initial (cfg : Config) : State where
  cfg := cfg
  lines := (List.range cfg.numIrq).map (Line.atReset (BitVec.ofNat 8 (2 ^ cfg.numCpu - 1)))
  prioShared := List.replicate (cfg.numIrq - numPrivate) 0
  cpus := List.replicate cfg.numCpu (Cpu.atReset cfg.numIrq)
  distEnabled := false
  fatal := false
  diag := none
  response := .none
  inbox := []

/-- The machine right after reset: the instance of `Config.atReset`, nothing issued yet. -/
def State.reset : State := State.initial Config.atReset

end Sys2Proof.Machine
end

