-- ==== Sys2Proof/Machine/Operands.lean ====
section
/-! DEFINITION. Operand forms: bitsets over CPUs (`00_scope.md` rule R10), reads of the indexed fields, the packing of
lines into bytes and of bytes into words (`30_encoding.md` rules R106 to R113, `20_memory.md` rule R80). -/

namespace Sys2Proof.Machine

/-! ## Bitsets over CPUs (rule R10) -/

/-- `bit(c)`. -/
def cpuBit (c : Nat) : CpuSet := 1#8 <<< c

/-- `ALL` of rule R6: one bit per existing CPU. -/
def cpuAll (cfg : Config) : CpuSet := BitVec.ofNat 8 (2 ^ cfg.numCpu - 1)

/-! ## Reads of the indexed fields (rule R11)

An index outside a table reads as these values; no rule reads one (rule R44, assumption log 9). -/

/-- What a line that does not exist reads as. -/
def Line.absent : Line where
  enabled := 0
  pending := 0
  active := 0
  level := false
  trigger := .edge
  model := .nn
  target := 0

/-- The fields of line `i`. -/
def State.line (s : State) (i : Nat) : Line := s.lines.getD i Line.absent

/-- The fields of CPU `c`. -/
def State.cpu (s : State) (c : Nat) : Cpu := s.cpus.getD c (Cpu.atReset 0)

/-- `PRIO(i, c)` (rules R11 and R29). -/
def State.prio (s : State) (i c : Nat) : Byte :=
  if i < numPrivate then (s.cpu c).prioPriv.getD i 0 else s.prioShared.getD (i - numPrivate) 0

/-- `last_active[c][i]` (rule R36), if line `i` exists. -/
def Cpu.previous (p : Cpu) (i : Nat) : Option IrqId := p.lastActive[i]?

/-! ## Bytes of lines -/

/-- The byte whose bit `k` is `f k`. -/
def packByte (f : Nat → Bool) : Byte :=
  (List.range 8).foldl (fun r k => r ||| (if f k then 1#8 <<< k else 0#8)) 0#8

/-- What a byte `b` written to byte `j` of a one-bit-per-line group says of line `i` (rule R106: line `i` is bit
`i mod 8` of the byte at `base + i div 8`): its bit, or nothing if the byte does not hold the line. -/
def bitOfLine (j : Nat) (b : Byte) (i : Nat) : Option Bool :=
  if i / 8 = j then some (b.getLsbD (i % 8)) else none

/-- What a byte `b` written to byte `j` of the configuration group says of line `i` (rules R109 and R112): the model
bit and the trigger bit, or nothing if the byte does not hold the line. -/
def fieldOfLine (j : Nat) (b : Byte) (i : Nat) : Option (RoutingModel × Trigger) :=
  if i / 4 = j then
    some (if b.getLsbD (2 * (i % 4)) then .oneN else .nn, if b.getLsbD (2 * (i % 4) + 1) then .edge else .level)
  else none

/-! ## Bytes of words -/

/-- Byte `k` of a data word: `v[8k+7 : 8k]`. -/
def byteOf (v : Word) (k : Nat) : Byte := v.extractLsb' (8 * k) 8

/-- The little-endian composition of `n` bytes (rule R80), zero-extended to 32 bits. -/
def compose (n : Nat) (byte : Nat → Byte) : Word :=
  (List.range n).foldl (fun v k => v ||| ((byte k).setWidth 32 <<< (8 * k))) 0#32

end Sys2Proof.Machine
end

