-- ==== Sys2Proof/Machine/Arbitration.lean ====
section
/-! DEFINITION. The priority_arbitration_unit (`40_arbitration.md` rule R141). The block has no flags (rule R22); its
comparison arithmetic (rule R148) is here. -/

namespace Sys2Proof.Machine

/-- The test of the scan's body (rules R141 and R143): line `i` is enabled and pending for CPU `c` and its priority is
strictly below `bound`. -/
def State.beats (s : State) (c i : Nat) (bound : RunPrio) : Bool :=
  (s.line i).enabled.getLsbD c && (s.line i).pending.getLsbD c && decide ((s.prio i c).toNat < bound.toNat)

/-- One step of the scan: `best` is the best id and priority so far. -/
def State.scanStep (s : State) (c : Nat) (best : IrqId × RunPrio) (i : Nat) : IrqId × RunPrio :=
  if s.beats c i best.2 then (BitVec.ofNat 10 i, (s.prio i c).setWidth 9) else best

/-- The scan of rule R141 over all lines in ascending order. -/
def State.scan (s : State) (c : Nat) : IrqId × RunPrio :=
  (List.range s.cfg.numIrq).foldl (s.scanStep c) (noneId, nonePrio)

/-- The output level of rule R145 for a best candidate: at most the mask, strictly below the running priority. -/
def Cpu.outputFor (p : Cpu) (best : IrqId × RunPrio) : Bool :=
  decide (best.1 ≠ noneId) && decide (best.2.toNat ≤ p.prioMask.toNat) && decide (best.2.toNat < p.runPrio.toNat)

/-- The work of `Update()` for CPU `c`, whose fields are `p` (rules R141 and R142). -/
def State.arbitrate (s : State) (c : Nat) (p : Cpu) : Cpu :=
  if s.distEnabled && p.enabled then
    { p with best := (s.scan c).1, irqOut := p.outputFor (s.scan c) }
  else
    { p with best := noneId, irqOut := false }

/-- `Update()` (rule R141), always for every CPU (rule R149). -/
def State.update (s : State) : State := { s with cpus := s.cpus.mapIdx s.arbitrate }

end Sys2Proof.Machine
end

