-- ==== Sys2Proof/Machine/Ops.lean ====
section
/-! DEFINITION. The shared operations: writes of the indexed fields, how an operation ends, the fatal error
(`60_exceptions.md` rule R300), and the claim and retirement of an interrupt (the block's side of trap entry and return,
rules R325 and R330). -/

namespace Sys2Proof.Machine

/-- The three outcomes of an operation. -/
abbrev Outcome := Host.Outcome State Fault Refusal

/-! ## Writes of the indexed fields -/

/-- Change the fields of line `i`. -/
def State.onLine (s : State) (i : Nat) (f : Line → Line) : State := { s with lines := s.lines.modify i f }

/-- Change every line by a function of its id. -/
def State.onLines (s : State) (f : Nat → Line → Line) : State := { s with lines := s.lines.mapIdx f }

/-- Change the fields of CPU `c`. -/
def State.onCpu (s : State) (c : Nat) (f : Cpu → Cpu) : State := { s with cpus := s.cpus.modify c f }

/-- `prio_priv[c][i] <- b` or `prio_shared[i] <- b` (rule R201). -/
def State.setPrio (s : State) (c i : Nat) (b : Byte) : State :=
  if i < numPrivate then s.onCpu c fun p => { p with prioPriv := p.prioPriv.set i b }
  else { s with prioShared := s.prioShared.set (i - numPrivate) b }

/-! ## How an operation ends -/

/-- The operation ends in `s` and returns `r` to its caller. -/
def State.answer (s : State) (r : Response) : Outcome := .next { s with response := r }

/-- The fatal error (rule R300): the operation ends with no further state change, the model bit `fatal` is set, and the
host is shown the diagnostic. Nothing is returned to the caller. -/
def State.raiseFatal (s : State) (d : Diag) : Outcome :=
  .next { s with fatal := true, diag := some d, response := .none }

/-- Rule R300: while `fatal` is set, no operation has a meaning. -/
def State.unlessFatal (s : State) (k : Outcome) : Outcome := if s.fatal then .refused .fatalState else k

/-- A register access by or through CPU `c` (rule R73): refused if there is no such CPU. -/
def State.asCpu (s : State) (c : Nat) (k : Outcome) : Outcome :=
  s.unlessFatal (if c < s.cfg.numCpu then k else .refused .noSuchCpu)

/-! ## One byte of a distributor access -/

/-- A one-byte read at byte `k` of a group, whose value is `v`; a byte past the group's range is undecoded
(rule R130). -/
def State.readByteOf (s : State) (g : Group) (c k : Nat) (v : Byte) : Outcome :=
  s.asCpu c
    (if k < s.cfg.len g then s.answer (.data (v.setWidth 32))
     else s.raiseFatal (.undecodedOffset .dist c .read (s.cfg.base g + k) 1))

/-- A one-byte write at byte `k` of a group, which leaves the table as in `t` before the arbitration that ends every
distributor write (rule R180); a byte past the group's range is undecoded (rule R130). -/
def State.writeByteOf (s : State) (g : Group) (c k : Nat) (t : State) : Outcome :=
  s.asCpu c
    (if k < s.cfg.len g then t.update.answer .none
     else s.raiseFatal (.undecodedOffset .dist c .write (s.cfg.base g + k) 1))

/-! ## Claim (rule R247) -/

/-- The claim of line `i` (id `id`) by CPU `c`: push the running id, clear `pending` by the routing model, set
`active`, make the line the running one, arbitrate. -/
def State.claim (s : State) (c : Nat) (id : IrqId) : State :=
  let i := id.toNat
  let prio := s.prio i c
  let pushed := s.onCpu c fun p =>
    { p with lastActive := p.lastActive.set i p.runId, runId := id, runPrio := prio.setWidth 9 }
  let claimed := pushed.onLine i fun l =>
    { l with
      pending := if l.model = .oneN then 0 else l.pending &&& ~~~(cpuBit c)
      active := l.active ||| cpuBit c }
  claimed.update

/-! ## Retirement (rules R249 to R252) -/

/-- Rule R250: the line "comes back" because it is level-triggered, still enabled for this CPU, still raised, and this
CPU is in its target mask. -/
def State.comesBack (s : State) (c i : Nat) : Bool :=
  let l := s.line i
  l.trigger = .level && l.enabled.getLsbD c && l.level && l.target.getLsbD c

/-- `pending[i] <- pending[i] | bit(c)`. -/
def State.pendFor (s : State) (c i : Nat) : State := s.onLine i fun l => { l with pending := l.pending ||| cpuBit c }

/-- `active[i] <- active[i] & ~bit(c)`. -/
def State.deactivate (s : State) (c i : Nat) : State :=
  s.onLine i fun l => { l with active := l.active &&& ~~~(cpuBit c) }

/-- Case A (rule R251): the id is the running one. Its active bit is cleared, the id that was running before it
becomes the running one again, and its priority is read from the table as it is now. -/
def State.pop (s : State) (c i : Nat) : Outcome :=
  match (s.cpu c).previous i with
  | none => .fault .idBeyondTable
  | some id =>
    if id = noneId then
      (((s.deactivate c i).onCpu c fun p => { p with runId := noneId, runPrio := nonePrio }).update).answer .none
    else if id.toNat < s.cfg.numIrq then
      (((s.deactivate c i).onCpu c fun p =>
        { p with runId := id, runPrio := (s.prio id.toNat c).setWidth 9 }).update).answer .none
    else .fault .idBeyondTable

/-- What the walk of rule R249 finds: the member whose successor is the id; the end of the chain; an id that names no
line; or that it never ends. -/
inductive Walk
  | found (predecessor : IrqId)
  | ended
  | beyond
  | diverges
  deriving DecidableEq, Repr

/-- The `while` loop of rule R249 from `tmp`, with at most `fuel` tests of its condition. A walk of `NUM_IRQ` tests that
has not ended has met an id twice and never ends (rule R367, assumption log 8). -/
def walkChain (lastActive : List IrqId) (id : IrqId) : Nat → IrqId → Walk
  | 0, _ => .diverges
  | fuel + 1, tmp =>
    match lastActive[tmp.toNat]? with
    | none => .beyond
    | some nxt =>
      if nxt = noneId then .ended
      else if nxt = id then .found tmp
      else walkChain lastActive id fuel nxt

/-- Case B (rule R252): link the predecessor of line `i` to its successor and clear its active bit. -/
def State.splice (s : State) (c i : Nat) (predecessor : IrqId) : State :=
  (s.onCpu c fun p =>
    { p with lastActive := p.lastActive.set predecessor.toNat (p.lastActive.getD i noneId) }).deactivate c i

/-- End-Of-Interrupt of `id` by CPU `c` (rule R249). -/
def State.retire (s : State) (c : Nat) (id : IrqId) : Outcome :=
  let i := id.toNat
  if s.cfg.numIrq ≤ i then s.answer .none
  else if (s.cpu c).runId = noneId then s.answer .none
  else
    let back := s.comesBack c i
    let s₁ := if back then s.pendFor c i else s
    if id = (s.cpu c).runId then s₁.pop c i
    else
      match walkChain (s.cpu c).lastActive id s.cfg.numIrq (s.cpu c).runId with
      | .found predecessor =>
        let s₂ := s₁.splice c i predecessor
        (if back then s₂.update else s₂).answer .none
      | .ended => (if back then s₁.update else s₁).answer .none
      | .beyond => .fault .idBeyondTable
      | .diverges => .fault .eoiWalkDiverges

end Sys2Proof.Machine
end

