-- ==== Sys2Proof/Machine/CpuInterface.lean ====
section
/-! DEFINITION. The cpu_interface_regs operations (`43_cpu_interface_regs.md`): 32-bit accesses of the window of CPU
`c`. -/

namespace Sys2Proof.Machine

/-- `CPU_CTRL.R` (rule R241). -/
def execCpuCtrlR (c : Nat) (s : State) : Outcome :=
  s.asCpu c (s.answer (.data (if (s.cpu c).enabled then 1 else 0)))

/-- `CPU_CTRL.W` (rule R242). -/
def execCpuCtrlW (c : Nat) (v : Word) (s : State) : Outcome :=
  s.asCpu c ((s.onCpu c fun p => { p with enabled := v.getLsbD 0 }).update.answer .none)

/-- `CPU_PRIMASK.R` (rule R243). -/
def execCpuPrimaskR (c : Nat) (s : State) : Outcome :=
  s.asCpu c (s.answer (.data ((s.cpu c).prioMask.setWidth 32)))

/-- `CPU_PRIMASK.W` (rule R244). -/
def execCpuPrimaskW (c : Nat) (v : Word) (s : State) : Outcome :=
  s.asCpu c ((s.onCpu c fun p => { p with prioMask := v.setWidth 8 }).update.answer .none)

/-- `CPU_BINPOINT.R` (rule R245). -/
def execCpuBinpointR (c : Nat) (s : State) : Outcome := s.asCpu c (s.answer (.data (s.cpu c).binPoint))

/-- `CPU_BINPOINT.W` (rule R246): storage only, no arbitration. -/
def execCpuBinpointW (c : Nat) (v : Word) (s : State) : Outcome :=
  s.asCpu c ((s.onCpu c fun p => { p with binPoint := v }).answer .none)

/-- The data word an id is returned in (rules R124 and R127). -/
def idWord (id : IrqId) : Word := id.setWidth 32

/-- `CPU_ACK.R` (rule R247): claim the best pending line, or return 1023. -/
def execCpuAckR (c : Nat) (s : State) : Outcome :=
  s.asCpu c
    (let id := (s.cpu c).best
     if id = noneId then s.answer (.data (idWord noneId))
     else if s.cfg.numIrq ≤ id.toNat then .fault .idBeyondTable
     else if (s.cpu c).runPrio.toNat ≤ (s.prio id.toNat c).toNat then s.answer (.data (idWord noneId))
     else (s.claim c id).answer (.data (idWord id)))

/-- `CPU_ACK.W` (rule R248): ignored. -/
def execCpuAckW (c : Nat) (_v : Word) (s : State) : Outcome := s.asCpu c (s.answer .none)

/-- `CPU_EOI.R` (rule R254): the register is write-only, a read is fatal. -/
def execCpuEoiR (c : Nat) (s : State) : Outcome :=
  s.asCpu c (s.raiseFatal (.undecodedOffset .cpuif c .read 0x10 4))

/-- `CPU_EOI.W` (rule R249): the id is bits 9:0 of the data word (rule R125). -/
def execCpuEoiW (c : Nat) (v : Word) (s : State) : Outcome := s.asCpu c (s.retire c (v.setWidth 10))

/-- `CPU_RUNPRI.R` (rule R255). -/
def execCpuRunpriR (c : Nat) (s : State) : Outcome := s.asCpu c (s.answer (.data ((s.cpu c).runPrio.setWidth 32)))

/-- `CPU_RUNPRI.W` (rule R256): ignored. -/
def execCpuRunpriW (c : Nat) (_v : Word) (s : State) : Outcome := s.asCpu c (s.answer .none)

/-- `CPU_HIPEND.R` (rule R257). -/
def execCpuHipendR (c : Nat) (s : State) : Outcome := s.asCpu c (s.answer (.data (idWord (s.cpu c).best)))

/-- `CPU_HIPEND.W` (rule R258): ignored. -/
def execCpuHipendW (c : Nat) (_v : Word) (s : State) : Outcome := s.asCpu c (s.answer .none)

end Sys2Proof.Machine
end

