-- ==== Sys2Proof/Machine/Distributor.lean ====
section
/-! DEFINITION. The interrupt_distributor register operations (`42_distributor_regs.md`). For each group: what a byte
reads as and what a byte written does to the table, then the two rows of the operation table, each one byte of an access
by CPU `c`. Last, the accesses of 16 and 32 bits (`20_memory.md` rules R81 and R82). -/

namespace Sys2Proof.Machine

/-! ## Global enable -/

/-- Rule R184: byte `k` of `DIST_CTRL`. -/
def State.ctrlByte (s : State) (k : Nat) : Byte := if k = 0 then (if s.distEnabled then 1 else 0) else 0

/-- Rule R185: write byte `k` of `DIST_CTRL`. -/
def State.writeCtrl (s : State) (k : Nat) (b : Byte) : State :=
  if k = 0 then { s with distEnabled := b.getLsbD 0 } else s

/-- `DIST_CTRL.R` (rule R184). -/
def execDistCtrlR (c k : Nat) (s : State) : Outcome := s.readByteOf .ctrl c k (s.ctrlByte k)

/-- `DIST_CTRL.W` (rule R185). -/
def execDistCtrlW (c k : Nat) (b : Byte) (s : State) : Outcome := s.writeByteOf .ctrl c k (s.writeCtrl k b)

/-! ## Enable -/

/-- Rules R187 and R189: the enable state of the eight lines of byte `j`, as CPU `c` sees it. -/
def State.enableByte (s : State) (c j : Nat) : Byte := packByte fun k => (s.line (8 * j + k)).enabled.getLsbD c

/-- Rule R186 for line `i` and its bit: the lines 0..15 are forced enabled whatever the bit, a private line is enabled
for the caller, a shared one for every CPU; with `PEND_LEVEL_ON_ENABLE` a raised level-triggered line becomes pending. -/
def Line.setEnable (cfg : Config) (c i : Nat) (bit : Bool) (l : Line) : Line :=
  if i < numSgi then { l with enabled := l.enabled ||| cpuBit c }
  else if bit then
    { l with
      enabled := if i < numPrivate then l.enabled ||| cpuBit c else cpuAll cfg
      pending :=
        if cfg.pendLevelOnEnable && l.trigger = .level && l.level then
          (if i < numPrivate then l.pending ||| cpuBit c else l.pending ||| l.target)
        else l.pending }
  else l

/-- Rule R186: write byte `j` of `DIST_SET_ENABLE`. -/
def State.writeSetEnable (s : State) (c j : Nat) (b : Byte) : State :=
  s.onLines fun i l =>
    match bitOfLine j b i with
    | some bit => l.setEnable s.cfg c i bit
    | none => l

/-- Rule R188 for line `i` and its bit: the lines 0..15 ignore it, a private line is disabled for the caller, a shared one
for every CPU. -/
def Line.clearEnable (c i : Nat) (bit : Bool) (l : Line) : Line :=
  if numSgi ≤ i ∧ bit then { l with enabled := if i < numPrivate then l.enabled &&& ~~~(cpuBit c) else 0 } else l

/-- Rule R188: write byte `j` of `DIST_CLR_ENABLE`. -/
def State.writeClrEnable (s : State) (c j : Nat) (b : Byte) : State :=
  s.onLines fun i l =>
    match bitOfLine j b i with
    | some bit => l.clearEnable c i bit
    | none => l

/-- `DIST_SET_ENABLE.R` (rule R187). -/
def execDistSetEnableR (c j : Nat) (s : State) : Outcome := s.readByteOf .setEnable c j (s.enableByte c j)

/-- `DIST_SET_ENABLE.W` (rule R186). -/
def execDistSetEnableW (c j : Nat) (b : Byte) (s : State) : Outcome :=
  s.writeByteOf .setEnable c j (s.writeSetEnable c j b)

/-- `DIST_CLR_ENABLE.R` (rule R189). -/
def execDistClrEnableR (c j : Nat) (s : State) : Outcome := s.readByteOf .clrEnable c j (s.enableByte c j)

/-- `DIST_CLR_ENABLE.W` (rule R188). -/
def execDistClrEnableW (c j : Nat) (b : Byte) (s : State) : Outcome :=
  s.writeByteOf .clrEnable c j (s.writeClrEnable c j b)

/-! ## Pending -/

/-- `PendBit(c, i)` of rule R191. -/
def State.pendBit (s : State) (c i : Nat) : Bool :=
  if i < numPrivate then (s.line i).pending.getLsbD c else (s.line i).pending ≠ 0

/-- Rules R191 and R195: the pending state of the eight lines of byte `j`, as CPU `c` sees it. -/
def State.pendByte (s : State) (c j : Nat) : Byte := packByte fun k => s.pendBit c (8 * j + k)

/-- Rule R190 for line `i` and its bit: the lines 0..15 ignore it, a private line becomes pending for the caller, a shared
one for its targets. -/
def Line.setPending (c i : Nat) (bit : Bool) (l : Line) : Line :=
  if numSgi ≤ i ∧ bit then
    { l with pending := if i < numPrivate then l.pending ||| cpuBit c else l.pending ||| l.target }
  else l

/-- Rule R190: write byte `j` of `DIST_SET_PENDING`. -/
def State.writeSetPending (s : State) (c j : Nat) (b : Byte) : State :=
  s.onLines fun i l =>
    match bitOfLine j b i with
    | some bit => l.setPending c i bit
    | none => l

/-- Rule R194 for a line and its bit: every CPU's pending bit is cleared. -/
def Line.clearPending (bit : Bool) (l : Line) : Line := if bit then { l with pending := 0 } else l

/-- Rule R194: write byte `j` of `DIST_CLR_PENDING`; the calling CPU does not matter. -/
def State.writeClrPending (s : State) (j : Nat) (b : Byte) : State :=
  s.onLines fun i l =>
    match bitOfLine j b i with
    | some bit => l.clearPending bit
    | none => l

/-- `DIST_SET_PENDING.R` (rule R191). -/
def execDistSetPendingR (c j : Nat) (s : State) : Outcome := s.readByteOf .setPending c j (s.pendByte c j)

/-- `DIST_SET_PENDING.W` (rule R190). -/
def execDistSetPendingW (c j : Nat) (b : Byte) (s : State) : Outcome :=
  s.writeByteOf .setPending c j (s.writeSetPending c j b)

/-- `DIST_CLR_PENDING.R` (rule R195). -/
def execDistClrPendingR (c j : Nat) (s : State) : Outcome := s.readByteOf .clrPending c j (s.pendByte c j)

/-- `DIST_CLR_PENDING.W` (rule R194). -/
def execDistClrPendingW (c j : Nat) (b : Byte) (s : State) : Outcome :=
  s.writeByteOf .clrPending c j (s.writeClrPending j b)

/-! ## Active -/

/-- `ActBit(c, i)` of rule R196. -/
def State.actBit (s : State) (c i : Nat) : Bool :=
  if i < numPrivate then (s.line i).active.getLsbD c else (s.line i).active ≠ 0

/-- Rule R196: the active state of the eight lines of byte `j`, as CPU `c` sees it. -/
def State.actByte (s : State) (c j : Nat) : Byte := packByte fun k => s.actBit c (8 * j + k)

/-- `DIST_ACTIVE.R` (rule R196). -/
def execDistActiveR (c j : Nat) (s : State) : Outcome := s.readByteOf .active c j (s.actByte c j)

/-- `DIST_ACTIVE.W` (rule R197): ignored. -/
def execDistActiveW (c j : Nat) (_b : Byte) (s : State) : Outcome := s.writeByteOf .active c j s

/-! ## Priority -/

/-- `DIST_PRIORITY.R` (rule R200). -/
def execDistPriorityR (c i : Nat) (s : State) : Outcome := s.readByteOf .priority c i (s.prio i c)

/-- `DIST_PRIORITY.W` (rule R201). -/
def execDistPriorityW (c i : Nat) (b : Byte) (s : State) : Outcome := s.writeByteOf .priority c i (s.setPrio c i b)

/-! ## CPU targets -/

/-- Rule R203: what CPU `c` reads as the target mask of line `i`. -/
def State.targetByte (s : State) (c i : Nat) : Byte := if 29 ≤ i ∧ i ≤ 31 then cpuBit c else (s.line i).target

/-- Rule R204: the target mask that a write of `b` by CPU `c` stores for line `i`. -/
def targetStored (cfg : Config) (c i : Nat) (b : Byte) : CpuSet :=
  if i < 29 then cpuBit c else if i < numPrivate then cpuAll cfg else b &&& cpuAll cfg

/-- Rule R204: write the target mask of line `i`. -/
def State.writeTarget (s : State) (c i : Nat) (b : Byte) : State :=
  s.onLine i fun l => { l with target := targetStored s.cfg c i b }

/-- `DIST_TARGET.R` (rule R203). -/
def execDistTargetR (c i : Nat) (s : State) : Outcome := s.readByteOf .target c i (s.targetByte c i)

/-- `DIST_TARGET.W` (rule R204). -/
def execDistTargetW (c i : Nat) (b : Byte) (s : State) : Outcome := s.writeByteOf .target c i (s.writeTarget c i b)

/-! ## Configuration -/

/-- Rule R207: the configuration of the four lines of byte `j`. -/
def State.configByte (s : State) (j : Nat) : Byte :=
  packByte fun k =>
    let l := s.line (4 * j + k / 2)
    if k % 2 = 0 then l.model = .oneN else l.trigger = .edge

/-- Rule R208 for line `i` and its field: a private line is forced to N:N and edge. -/
def Line.configure (i : Nat) (field : RoutingModel × Trigger) (l : Line) : Line :=
  if i < numPrivate then { l with model := .nn, trigger := .edge } else { l with model := field.1, trigger := field.2 }

/-- Rule R208: write byte `j` of `DIST_CONFIG`. -/
def State.writeConfig (s : State) (j : Nat) (b : Byte) : State :=
  s.onLines fun i l =>
    match fieldOfLine j b i with
    | some field => l.configure i field
    | none => l

/-- `DIST_CONFIG.R` (rule R207). -/
def execDistConfigR (c j : Nat) (s : State) : Outcome := s.readByteOf .config c j (s.configByte j)

/-- `DIST_CONFIG.W` (rule R208). -/
def execDistConfigW (c j : Nat) (b : Byte) (s : State) : Outcome := s.writeByteOf .config c j (s.writeConfig j b)

/-! ## Software-generated interrupts -/

/-- The CPUs an SGI word `v` written by CPU `c` chooses (rules R114 and R212). -/
def sgiMask (cfg : Config) (c : Nat) (v : Word) : CpuSet :=
  match (v.extractLsb' 24 2).toNat with
  | 0 => v.extractLsb' 16 8 &&& cpuAll cfg
  | 1 => cpuAll cfg &&& ~~~(cpuBit c)
  | 2 => cpuBit c
  | _ => cpuAll cfg

/-- The id field of an SGI word (rule R114). -/
def sgiId (v : Word) : Nat := (v.extractLsb' 0 10).toNat

/-- `SgiWrite` (rule R212) before its `Update()`; an id that names no line changes nothing. -/
def State.sendSgi (s : State) (c : Nat) (v : Word) : State :=
  if sgiId v < s.cfg.numIrq then s.onLine (sgiId v) fun l => { l with pending := l.pending ||| sgiMask s.cfg c v }
  else s

/-- `DIST_SGI.W` (rule R212). -/
def execDistSgiW (c : Nat) (v : Word) (s : State) : Outcome := s.asCpu c ((s.sendSgi c v).update.answer .none)

/-- `DIST_SGI.R` (rule R214): the register is write-only, a read is fatal. -/
def execDistSgiR (c k : Nat) (s : State) : Outcome :=
  s.asCpu c (s.raiseFatal (.undecodedOffset .dist c .read (s.cfg.offSgi + k) 1))

/-! ## Identification -/

/-- Rules R115 and R216: byte `k` of the identification range. -/
def State.idByte (s : State) (k : Nat) : Byte := if k % 4 = 0 then s.cfg.idBytes.getD (k / 4) 0 else 0

/-- `DIST_ID.R` (rule R216). -/
def execDistIdR (c k : Nat) (s : State) : Outcome := s.readByteOf .id c k (s.idByte k)

/-- `DIST_ID.W` (rule R217): ignored. -/
def execDistIdW (c k : Nat) (_b : Byte) (s : State) : Outcome := s.writeByteOf .id c k s

/-! ## Accesses of 16 and 32 bits

Every byte of the access has been checked to decode (`decodeDist`). -/

/-- `DistReadByte(c, off)` (rule R182). -/
def State.distReadByte (s : State) (c off : Nat) : Byte :=
  match s.cfg.extentAt off with
  | none => 0
  | some x =>
    let k := off - x.base
    match x.group with
    | .ctrl => s.ctrlByte k
    | .setEnable => s.enableByte c k
    | .clrEnable => s.enableByte c k
    | .setPending => s.pendByte c k
    | .clrPending => s.pendByte c k
    | .active => s.actByte c k
    | .priority => s.prio k c
    | .target => s.targetByte c k
    | .config => s.configByte k
    | .sgi => 0
    | .id => s.idByte k

/-- `DistWriteByte(c, off, b)` (rule R183), which runs no `Update()`. -/
def State.distWriteByte (s : State) (c off : Nat) (b : Byte) : State :=
  match s.cfg.extentAt off with
  | none => s
  | some x =>
    let k := off - x.base
    match x.group with
    | .ctrl => s.writeCtrl k b
    | .setEnable => s.writeSetEnable c k b
    | .clrEnable => s.writeClrEnable c k b
    | .setPending => s.writeSetPending c k b
    | .clrPending => s.writeClrPending k b
    | .active => s
    | .priority => s.setPrio c k b
    | .target => s.writeTarget c k b
    | .config => s.writeConfig k b
    | .sgi => s
    | .id => s

/-- The bytes of `v` written in ascending offset order (rule R82), before the `Update()`. -/
def State.distWriteBytes (s : State) (c off n : Nat) (v : Word) : State :=
  (List.range n).foldl (fun s k => s.distWriteByte c (off + k) (byteOf v k)) s

/-- `MemRead(DIST, c, off, n)` (rule R81) once every byte has been checked to decode. -/
def execWideRead (c off n : Nat) (s : State) : Outcome :=
  s.asCpu c (s.answer (.data (compose n fun k => s.distReadByte c (off + k))))

/-- `MemWrite(DIST, c, off, n, v)` (rule R82) once every byte has been checked to decode: one `Update()` after the last
byte. -/
def execWideWrite (c off n : Nat) (v : Word) (s : State) : Outcome :=
  s.asCpu c ((s.distWriteBytes c off n v).update.answer .none)

end Sys2Proof.Machine
end

