-- ==== Sys2Proof/Machine/LineInput.lean ====
section
/-! DEFINITION. The edge_level_detector: `SET_LINE` (`41_line_input.md` rule R160). -/

namespace Sys2Proof.Machine

/-- The rising transition of line `i` (rule R164). -/
def Line.rise (l : Line) : Line :=
  { l with
    level := true
    pending := if l.trigger = .edge ∨ l.enabled &&& l.target ≠ 0 then l.pending ||| l.target else l.pending }

/-- The falling transition of line `i` (rule R165): pending is not retracted. -/
def Line.fall (l : Line) : Line := { l with level := false }

/-- `SET_LINE n, v` (rules R160 to R166): external input `n` is line `n + 32`. -/
def execSetLine (n v : Nat) (s : State) : Outcome :=
  s.unlessFatal
    (if n < s.cfg.numIrq - numPrivate then
      if v ≤ 1 then
        let i := n + numPrivate
        let raised : Bool := v = 1
        if raised = (s.line i).level then s.answer .none
        else (s.onLine i (if raised then Line.rise else Line.fall)).update.answer .none
      else .refused .notALevel
    else .refused .noSuchInput)

end Sys2Proof.Machine
end

