-- ==== Sys2Proof/WellFormed.lean ====
section
/-! DEFINITION. Which parameters can be built (`00_scope.md` rules R6 and R7, `30_encoding.md` rule R104) and which
operations an agent can issue to an instance. -/

namespace Sys2Proof

/-- Rule R7 and rule R301: `NUM_IRQ` is a positive multiple of 32 and at most 1020, `NUM_CPU` is between 1 and
`MAX_CPU`, and the layout is the external one. -/
def Config.countsOk (cfg : Config) : Bool :=
  0 < cfg.numIrq && cfg.numIrq % 32 = 0 && cfg.numIrq ≤ 1020 && 0 < cfg.numCpu && cfg.numCpu ≤ maxCpu &&
    cfg.mode = .external

/-- Two ranges share no offset. -/
def Extent.disjoint (x y : Extent) : Bool := x.base + x.len ≤ y.base || y.base + y.len ≤ x.base

/-- Rule R104: the eleven ranges are disjoint, and each lies in the 4 KiB window (rule R71). -/
def Config.mapOk (cfg : Config) : Bool :=
  decide (cfg.extents.Pairwise fun x y => x.disjoint y = true) && cfg.extents.all fun x => x.base + x.len ≤ 0x1000

/-- The parameters of an instance that exists: rule R6 holds of them, there are eight identification bytes, and the
map is a map. -/
def Config.ok (cfg : Config) : Bool := cfg.countsOk && cfg.idBytes.length = 8 && cfg.mapOk

/-- The snapshot has the shape of an instance with these parameters (rule R287). -/
def Snapshot.fits (snap : Snapshot) (cfg : Config) : Bool :=
  snap.cpus.length = cfg.numCpu &&
    (snap.cpus.all fun p => p.prioPriv.length = numPrivate && p.lastActive.length = cfg.numIrq) &&
    snap.prioShared.length = cfg.numIrq - numPrivate && snap.lines.length = cfg.numIrq

/-- The operations an agent can issue to an instance with these parameters: the CPU exists (rule R73), the byte lies in
its group's decoded range (rules R104 and R110), the input exists and the level is a level (rule R162), the snapshot
fits (rule R287). -/
def Instr.wf (cfg : Config) : Instr → Bool
  | .reset => true
  | .setLine n v => n < cfg.numIrq - numPrivate && v ≤ 1
  | .distCtrlR c k => c < cfg.numCpu && k < 4
  | .distCtrlW c k _ => c < cfg.numCpu && k < 4
  | .distSetEnableR c j => c < cfg.numCpu && j < cfg.numIrq / 8
  | .distSetEnableW c j _ => c < cfg.numCpu && j < cfg.numIrq / 8
  | .distClrEnableR c j => c < cfg.numCpu && j < cfg.numIrq / 8
  | .distClrEnableW c j _ => c < cfg.numCpu && j < cfg.numIrq / 8
  | .distSetPendingR c j => c < cfg.numCpu && j < cfg.numIrq / 8
  | .distSetPendingW c j _ => c < cfg.numCpu && j < cfg.numIrq / 8
  | .distClrPendingR c j => c < cfg.numCpu && j < cfg.numIrq / 8
  | .distClrPendingW c j _ => c < cfg.numCpu && j < cfg.numIrq / 8
  | .distActiveR c j => c < cfg.numCpu && j < cfg.numIrq / 8
  | .distActiveW c j _ => c < cfg.numCpu && j < cfg.numIrq / 8
  | .distPriorityR c i => c < cfg.numCpu && i < cfg.numIrq
  | .distPriorityW c i _ => c < cfg.numCpu && i < cfg.numIrq
  | .distTargetR c i => c < cfg.numCpu && i < cfg.numIrq
  | .distTargetW c i _ => c < cfg.numCpu && i < cfg.numIrq
  | .distConfigR c j => c < cfg.numCpu && j < cfg.numIrq / 4
  | .distConfigW c j _ => c < cfg.numCpu && j < cfg.numIrq / 4
  | .distSgiW c _ => c < cfg.numCpu
  | .distSgiR c k => c < cfg.numCpu && k < 4
  | .distIdR c k => c < cfg.numCpu && k < 32
  | .distIdW c k _ => c < cfg.numCpu && k < 32
  | .cpuCtrlR c => c < cfg.numCpu
  | .cpuCtrlW c _ => c < cfg.numCpu
  | .cpuPrimaskR c => c < cfg.numCpu
  | .cpuPrimaskW c _ => c < cfg.numCpu
  | .cpuBinpointR c => c < cfg.numCpu
  | .cpuBinpointW c _ => c < cfg.numCpu
  | .cpuAckR c => c < cfg.numCpu
  | .cpuAckW c _ => c < cfg.numCpu
  | .cpuEoiR c => c < cfg.numCpu
  | .cpuEoiW c _ => c < cfg.numCpu
  | .cpuRunpriR c => c < cfg.numCpu
  | .cpuRunpriW c _ => c < cfg.numCpu
  | .cpuHipendR c => c < cfg.numCpu
  | .cpuHipendW c _ => c < cfg.numCpu
  | .snapshotSave => true
  | .snapshotLoad snap => snap.fits cfg

end Sys2Proof
end

