-- ==== Sys2Proof/Machine/Reset.lean ====
section
/-! DEFINITION. `RESET` (`70_reset_and_hazards.md` rule R350) and construction (`00_scope.md` rules R7 and R42). -/

namespace Sys2Proof.Machine

/-- The assignments of rule R350 before its `Update()`: every field of rule R41 but `fatal` (rule R352), at its reset
value. -/
def State.resetTable (s : State) : State :=
  { s with
    distEnabled := false
    lines := (List.range s.cfg.numIrq).map (Line.atReset (cpuAll s.cfg))
    cpus := List.replicate s.cfg.numCpu (Cpu.atReset s.cfg.numIrq)
    prioShared := List.replicate (s.cfg.numIrq - numPrivate) 0 }

/-- `RESET` (rule R350). -/
def execReset (s : State) : Outcome := s.unlessFatal (s.resetTable.update.answer .none)

/-- Construction (rules R7, R42, R301): the instance in its reset state, or the diagnostic of the configuration error. -/
def construct (cfg : Config) : Except Diag State :=
  if cfg.countsOk then
    if cfg.mapOk && cfg.idBytes.length = 8 then .ok (State.initial cfg) else .error .overlappingMap
  else .error (.badConfig cfg.numIrq cfg.numCpu cfg.mode)

end Sys2Proof.Machine
end

