-- ==== Sys2Proof/Machine/Snapshots.lean ====
section
/-! DEFINITION. Save and restore of the irq_line_state_table (`44_snapshot.md`). `level`, `bin_point`, `irq_out` and
`fatal` are not part of a snapshot (rule R284). -/

namespace Sys2Proof.Machine

/-- The per-CPU part of a snapshot (rule R281). -/
def Cpu.save (p : Cpu) : CpuSnap where
  enabled := p.enabled
  prioPriv := p.prioPriv
  lastActive := p.lastActive
  prioMask := p.prioMask
  runId := p.runId
  runPrio := p.runPrio
  bestPending := p.best

/-- The per-line record of a snapshot (rule R281). -/
def Line.save (l : Line) : LineSnap where
  target := l.target
  enabled := l.enabled
  pending := l.pending
  active := l.active
  model := l.model
  trigger := l.trigger

/-- The snapshot of a state (rules R280, R281 and R283). -/
def State.save (s : State) : Snapshot where
  version := s.cfg.snapshotVersion
  distEnabled := s.distEnabled
  cpus := s.cpus.map Cpu.save
  prioShared := s.prioShared
  lines := s.lines.map Line.save

/-- Rule R285 for one CPU: `bin_point` is unchanged, `irq_out` awaits the `Update()`. -/
def Cpu.load (p : Cpu) (q : CpuSnap) : Cpu :=
  { p with
    enabled := q.enabled
    prioPriv := q.prioPriv
    lastActive := q.lastActive
    prioMask := q.prioMask
    runId := q.runId
    runPrio := q.runPrio
    best := q.bestPending }

/-- Rule R285 for one line: `level` is unchanged. -/
def Line.load (l : Line) (r : LineSnap) : Line :=
  { l with
    target := r.target
    enabled := r.enabled
    pending := r.pending
    active := r.active
    model := r.model
    trigger := r.trigger }

/-- The assignments of rule R285 before its `Update()`. -/
def State.loadFields (s : State) (snap : Snapshot) : State :=
  { s with
    distEnabled := snap.distEnabled
    cpus := List.zipWith Cpu.load s.cpus snap.cpus
    prioShared := snap.prioShared
    lines := List.zipWith Line.load s.lines snap.lines }

/-- `SNAPSHOT_SAVE` (rule R280). -/
def execSnapshotSave (s : State) : Outcome := s.unlessFatal (s.answer (.snapshot s.save))

/-- `SNAPSHOT_LOAD` (rule R285): the version test comes first; a snapshot of another shape is refused (rule R287). -/
def execSnapshotLoad (snap : Snapshot) (s : State) : Outcome :=
  s.unlessFatal
    (if snap.version ≠ s.cfg.snapshotVersion then s.raiseFatal (.snapshotVersion snap.version)
     else if snap.fits s.cfg then (s.loadFields snap).update.answer .none
     else .refused .foreignSnapshot)

end Sys2Proof.Machine
end

