-- ==== Sys2Proof/Machine/Dispatch.lean ====
section
/-! DEFINITION. The meaning of every operation of spec/opcode_table.json, one arm per row. -/

namespace Sys2Proof.Machine

def exec (i : Instr) (s : State) : Host.Outcome State Fault Refusal :=
  match i with
  | .reset => Sys2Proof.Machine.execReset s
  | .setLine n v => Sys2Proof.Machine.execSetLine n v s
  | .distCtrlR c k => Sys2Proof.Machine.execDistCtrlR c k s
  | .distCtrlW c k b => Sys2Proof.Machine.execDistCtrlW c k b s
  | .distSetEnableR c j => Sys2Proof.Machine.execDistSetEnableR c j s
  | .distSetEnableW c j b => Sys2Proof.Machine.execDistSetEnableW c j b s
  | .distClrEnableR c j => Sys2Proof.Machine.execDistClrEnableR c j s
  | .distClrEnableW c j b => Sys2Proof.Machine.execDistClrEnableW c j b s
  | .distSetPendingR c j => Sys2Proof.Machine.execDistSetPendingR c j s
  | .distSetPendingW c j b => Sys2Proof.Machine.execDistSetPendingW c j b s
  | .distClrPendingR c j => Sys2Proof.Machine.execDistClrPendingR c j s
  | .distClrPendingW c j b => Sys2Proof.Machine.execDistClrPendingW c j b s
  | .distActiveR c j => Sys2Proof.Machine.execDistActiveR c j s
  | .distActiveW c j b => Sys2Proof.Machine.execDistActiveW c j b s
  | .distPriorityR c line => Sys2Proof.Machine.execDistPriorityR c line s
  | .distPriorityW c line b => Sys2Proof.Machine.execDistPriorityW c line b s
  | .distTargetR c line => Sys2Proof.Machine.execDistTargetR c line s
  | .distTargetW c line b => Sys2Proof.Machine.execDistTargetW c line b s
  | .distConfigR c j => Sys2Proof.Machine.execDistConfigR c j s
  | .distConfigW c j b => Sys2Proof.Machine.execDistConfigW c j b s
  | .distSgiW c v => Sys2Proof.Machine.execDistSgiW c v s
  | .distSgiR c k => Sys2Proof.Machine.execDistSgiR c k s
  | .distIdR c k => Sys2Proof.Machine.execDistIdR c k s
  | .distIdW c k b => Sys2Proof.Machine.execDistIdW c k b s
  | .cpuCtrlR c => Sys2Proof.Machine.execCpuCtrlR c s
  | .cpuCtrlW c v => Sys2Proof.Machine.execCpuCtrlW c v s
  | .cpuPrimaskR c => Sys2Proof.Machine.execCpuPrimaskR c s
  | .cpuPrimaskW c v => Sys2Proof.Machine.execCpuPrimaskW c v s
  | .cpuBinpointR c => Sys2Proof.Machine.execCpuBinpointR c s
  | .cpuBinpointW c v => Sys2Proof.Machine.execCpuBinpointW c v s
  | .cpuAckR c => Sys2Proof.Machine.execCpuAckR c s
  | .cpuAckW c v => Sys2Proof.Machine.execCpuAckW c v s
  | .cpuEoiR c => Sys2Proof.Machine.execCpuEoiR c s
  | .cpuEoiW c v => Sys2Proof.Machine.execCpuEoiW c v s
  | .cpuRunpriR c => Sys2Proof.Machine.execCpuRunpriR c s
  | .cpuRunpriW c v => Sys2Proof.Machine.execCpuRunpriW c v s
  | .cpuHipendR c => Sys2Proof.Machine.execCpuHipendR c s
  | .cpuHipendW c v => Sys2Proof.Machine.execCpuHipendW c v s
  | .snapshotSave => Sys2Proof.Machine.execSnapshotSave s
  | .snapshotLoad snap => Sys2Proof.Machine.execSnapshotLoad snap s

end Sys2Proof.Machine
end

