-- ==== Sys2Proof/Machine/Issue.lean ====
section
/-! DEFINITION. One event performed: from what an agent asks for (`00_scope.md` rule R14) to the operation it is
(`30_encoding.md` rule R103). -/

namespace Sys2Proof.Machine

/-- A register transaction (rule R101). An access with no such CPU is refused before it is decoded (rule R73); an
undecoded one is fatal (rule R130). -/
def issueTxn (t : Txn) (s : State) : Outcome :=
  if t.cpu < s.cfg.numCpu then
    match decodeTxn s.cfg t with
    | .op i => exec i s
    | .wideRead c off n => execWideRead c off n s
    | .wideWrite c off n v => execWideWrite c off n v s
    | .undecoded d => s.unlessFatal (s.raiseFatal d)
  else s.unlessFatal (.refused .noSuchCpu)

/-- One event: one whole operation (rules R75 and R100). -/
def issue (e : Event) (s : State) : Outcome :=
  match e with
  | .bus t => issueTxn t s
  | .line n v => exec (.setLine n v) s
  | .reset => exec .reset s
  | .save => exec .snapshotSave s
  | .load snap => exec (.snapshotLoad snap) s

end Sys2Proof.Machine
end

