-- ==== Sys2Proof/Machine/Step.lean ====
section
/-! DEFINITION. The step: the next operation the agents have issued, performed whole (`20_memory.md` rule R75). -/

namespace Sys2Proof.Machine

/-- One step. After a fatal error there is none (rule R300). With nothing issued, nothing happens ("never spawns work",
rule R14; "Nothing advances between operations", rule R21). Otherwise the first event is taken and performed. -/
def step (s : State) : Host.Outcome State Fault Refusal :=
  if s.fatal then .refused .fatalState
  else
    match s.inbox with
    | [] => .next s
    | e :: rest => issue e { s with inbox := rest }

/-- The state in which the next operation is the register access that an operation-table word stands for: it is issued
before everything that already waits (assumption log 1). A word that is no selector issues nothing. -/
def State.withFetchWord (s : State) (nbits w : Nat) : State :=
  match txnOfBytes s.cfg (wordBytes (w % 2 ^ nbits)) with
  | .ok t => { s with inbox := .bus t :: s.inbox }
  | .error _ => s

end Sys2Proof.Machine
end

