-- ==== Sys2Proof/Safety.lean ====
section
/-! DEFINITION. The terms statements are made in: what arbitration must have computed (`40_arbitration.md` rule R147), how a
table operation leaves the state, the invariants of `10_state.md` section 7, and the active chain (rule R49). None of it is
used by the machine. -/

namespace Sys2Proof.Machine

/-! ## Instances -/

/-- The tables have the sizes that the parameters give them (rule R41). -/
abbrev Shaped (s : State) : Prop :=
  s.lines.length = s.cfg.numIrq ∧ s.prioShared.length = s.cfg.numIrq - numPrivate ∧ s.cpus.length = s.cfg.numCpu ∧
    ∀ p ∈ s.cpus, p.prioPriv.length = numPrivate ∧ p.lastActive.length = s.cfg.numIrq

/-- An instance that exists (rules R6 and R7) and has met no fatal error (rule R300). -/
abbrev Live (s : State) : Prop := s.cfg.ok = true ∧ Shaped s ∧ s.fatal = false

/-! ## Arbitration (rule R147) -/

/-- `i` is in `Cand(c)`: an existing line, enabled and pending for CPU `c`. -/
abbrev Candidate (s : State) (c i : Nat) : Prop :=
  (s.line i).enabled.getLsbD c = true ∧ (s.line i).pending.getLsbD c = true

/-- `Gate(c)`. -/
abbrev GateOpen (s : State) (c : Nat) : Prop := s.distEnabled = true ∧ (s.cpu c).enabled = true

/-- `(PRIO(i, c), i)` is lexicographically at most `(PRIO(k, c), k)`. -/
abbrev NotAfter (s : State) (c i k : Nat) : Prop :=
  (s.prio i c).toNat < (s.prio k c).toNat ∨ (s.prio i c).toNat = (s.prio k c).toNat ∧ i ≤ k

/-- `id` is `Best(c)`: the candidate that comes first by priority and then by id, or 1023 if there is none or the gate is
closed. -/
abbrev IsBest (s : State) (c : Nat) (id : IrqId) : Prop :=
  if GateOpen s c ∧ ∃ i < s.cfg.numIrq, Candidate s c i then
    id.toNat < s.cfg.numIrq ∧ Candidate s c id.toNat ∧
      ∀ k < s.cfg.numIrq, Candidate s c k → NotAfter s c id.toNat k
  else id = noneId

/-- "there exists an enabled+pending line for that CPU with priority ≤ its priority_mask and strictly less than its
running_priority", with the gating made explicit. -/
abbrev MayInterrupt (s : State) (c : Nat) : Prop :=
  GateOpen s c ∧ ∃ i < s.cfg.numIrq, Candidate s c i ∧ (s.prio i c).toNat ≤ (s.cpu c).prioMask.toNat ∧
    (s.prio i c).toNat < (s.cpu c).runPrio.toNat

/-- Rule R47: for every CPU, `best_pending` and `irq_out` are what arbitration computes from the rest of the state. -/
abbrev ArbitrationCurrent (s : State) : Prop :=
  ∀ c < s.cfg.numCpu, IsBest s c (s.cpu c).best ∧ ((s.cpu c).irqOut = true ↔ MayInterrupt s c)

/-! ## How an operation leaves the state -/

/-- `t` is `s` after an operation that changes line `i` by `line i`, CPU `c` by `cpu c`, returns `r` and ends with
`Update()`: nothing else differs but the outputs of arbitration, which are current. -/
abbrev After (s : State) (line : Nat → Line → Line) (cpu : Nat → Cpu → Cpu) (r : Response) (t : State) : Prop :=
  t = { s with lines := t.lines, cpus := t.cpus, response := r } ∧
    t.lines.length = s.lines.length ∧ t.cpus.length = s.cpus.length ∧
    (∀ i < s.cfg.numIrq, t.line i = line i (s.line i)) ∧
    (∀ c < s.cfg.numCpu, t.cpu c = { cpu c (s.cpu c) with best := (t.cpu c).best, irqOut := (t.cpu c).irqOut }) ∧
    ArbitrationCurrent t

/-- No line changes. -/
abbrev sameLines : Nat → Line → Line := fun _ l => l

/-- No CPU field changes but the outputs of arbitration. -/
abbrev sameCpus : Nat → Cpu → Cpu := fun _ p => p

/-- `s` after a fatal error with diagnostic `d` (rule R300). -/
abbrev State.died (s : State) (d : Diag) : State := { s with fatal := true, diag := some d, response := .none }

/-! ## Invariants (`10_state.md` section 7) -/

/-- No bit at or above `NUM_CPU` is set (rule R51). -/
abbrev Within (cfg : Config) (m : CpuSet) : Prop := m &&& cpuAll cfg = m

/-- An id is the sentinel or names a line (rule R44). -/
abbrev IdOk (cfg : Config) (id : IrqId) : Prop := id = noneId ∨ id.toNat < cfg.numIrq

/-- What every reachable state says of line `i` (rules R26, R28, R45 and R51). -/
abbrev LineOk (cfg : Config) (i : Nat) (l : Line) : Prop :=
  (Within cfg l.enabled ∧ Within cfg l.pending ∧ Within cfg l.active ∧ Within cfg l.target) ∧
    (i < numSgi → l.enabled = cpuAll cfg ∧ l.trigger = .edge) ∧
    (i < numPrivate → l.model = .nn ∧ l.level = false) ∧
    (numPrivate ≤ i → l.enabled = 0 ∨ l.enabled = cpuAll cfg)

/-- What every reachable state says of a CPU interface (rules R44 and R48). -/
abbrev CpuOk (cfg : Config) (p : Cpu) : Prop :=
  (p.runId = noneId ↔ p.runPrio = nonePrio) ∧ p.runPrio.toNat ≤ 0x100 ∧ IdOk cfg p.runId ∧
    ∀ id ∈ p.lastActive, IdOk cfg id

/-- The invariants of rules R44, R45, R48 and R51 over the tables. -/
abbrev TablesOk (s : State) : Prop :=
  s.cfg.ok = true ∧ Shaped s ∧ (∀ i < s.cfg.numIrq, LineOk s.cfg i (s.line i)) ∧
    ∀ c < s.cfg.numCpu, CpuOk s.cfg (s.cpu c)

/-- The snapshot breaks none of the invariants (rule R287): with the level of every line left as it is, loading it into an
instance with these parameters gives tables that meet them. -/
abbrev SnapshotOk (cfg : Config) (snap : Snapshot) : Prop :=
  snap.fits cfg = true ∧
    (∀ i < cfg.numIrq, ∀ r ∈ snap.lines[i]?,
      LineOk cfg i { target := r.target, enabled := r.enabled, pending := r.pending, active := r.active,
                     model := r.model, trigger := r.trigger, level := false }) ∧
    ∀ q ∈ snap.cpus,
      (q.runId = noneId ↔ q.runPrio = nonePrio) ∧ q.runPrio.toNat ≤ 0x100 ∧ IdOk cfg q.runId ∧
        ∀ id ∈ q.lastActive, IdOk cfg id

/-- Every snapshot that waits to be loaded breaks none of the invariants. -/
abbrev InboxOk (s : State) : Prop := ∀ e ∈ s.inbox, ∀ snap, e = .load snap → SnapshotOk s.cfg snap

/-- The invariants of `10_state.md` section 7 that hold in every reachable state. -/
structure Inv (s : State) : Prop where
  /-- Rules R44, R45, R48 and R51. -/
  tables : TablesOk s
  /-- Rule R47. -/
  arbitration : ArbitrationCurrent s
  /-- Rule R287: no malformed snapshot is loaded. -/
  inbox : InboxOk s

/-! ## The active chain (rules R49 and R50) -/

/-- `members` is the sequence `k0 = start`, `k(n+1) = last_active[kn]`, ended by the first 1023. -/
def IsChain (lastActive : List IrqId) : IrqId → List IrqId → Prop
  | start, [] => start = noneId
  | start, k :: rest => start = k ∧ k ≠ noneId ∧ IsChain lastActive (lastActive.getD k.toNat noneId) rest

/-- Rule R49: the chain is finite, repeats no id, and its members name lines. -/
abbrev IsGoodChain (cfg : Config) (p : Cpu) (members : List IrqId) : Prop :=
  IsChain p.lastActive p.runId members ∧ members.Nodup ∧ ∀ id ∈ members, id.toNat < cfg.numIrq

/-- Rules R49 and R50 for CPU `c`: there is such a chain, and the lines active for the CPU are its members. -/
def ChainOk (s : State) (c : Nat) : Prop :=
  ∃ members, IsGoodChain s.cfg (s.cpu c) members ∧
    ∀ i < s.cfg.numIrq, (s.line i).active.getLsbD c = true ↔ BitVec.ofNat 10 i ∈ members

/-- Rules R49 and R50 for every CPU. -/
def ChainsOk (s : State) : Prop := ∀ c < s.cfg.numCpu, ChainOk s c

/-- `last_active` followed `n` times. -/
def follow (lastActive : List IrqId) : Nat → IrqId → IrqId
  | 0, id => id
  | n + 1, id => follow lastActive n (lastActive.getD id.toNat noneId)

/-! ## Callers and sequences -/

/-- The CPU whose register access an operation is, if it is one (rule R73). -/
def callerOf : Instr → Option Nat
  | .reset => none
  | .setLine _ _ => none
  | .distCtrlR c _ => some c
  | .distCtrlW c _ _ => some c
  | .distSetEnableR c _ => some c
  | .distSetEnableW c _ _ => some c
  | .distClrEnableR c _ => some c
  | .distClrEnableW c _ _ => some c
  | .distSetPendingR c _ => some c
  | .distSetPendingW c _ _ => some c
  | .distClrPendingR c _ => some c
  | .distClrPendingW c _ _ => some c
  | .distActiveR c _ => some c
  | .distActiveW c _ _ => some c
  | .distPriorityR c _ => some c
  | .distPriorityW c _ _ => some c
  | .distTargetR c _ => some c
  | .distTargetW c _ _ => some c
  | .distConfigR c _ => some c
  | .distConfigW c _ _ => some c
  | .distSgiW c _ => some c
  | .distSgiR c _ => some c
  | .distIdR c _ => some c
  | .distIdW c _ _ => some c
  | .cpuCtrlR c => some c
  | .cpuCtrlW c _ => some c
  | .cpuPrimaskR c => some c
  | .cpuPrimaskW c _ => some c
  | .cpuBinpointR c => some c
  | .cpuBinpointW c _ => some c
  | .cpuAckR c => some c
  | .cpuAckW c _ => some c
  | .cpuEoiR c => some c
  | .cpuEoiW c _ => some c
  | .cpuRunpriR c => some c
  | .cpuRunpriW c _ => some c
  | .cpuHipendR c => some c
  | .cpuHipendW c _ => some c
  | .snapshotSave => none
  | .snapshotLoad _ => none

/-- Events performed one after the other, stopping at the first that does not answer a next state. -/
def issueAll : List Event → State → Outcome
  | [], s => .next s
  | e :: rest, s =>
    match issue e s with
    | .next t => issueAll rest t
    | .fault r => .fault r
    | .refused r => .refused r

end Sys2Proof.Machine
end

