-- ==== Sys2Proof/Certificates/Slice0/Obligations.lean ====
section
/-! DEFINITION. The statements about the model, for the provers. -/

open Sys2Proof Sys2Proof.Machine

/-! ## Issue, decode and encode -/

/-- A step performs the first issued event, whatever it is, and so the operation that the event is; with nothing issued it
changes nothing. The list of issued events is the model's choice (assumption log 1). -/
def Obligations.StepPerformsTheIssuedOperation : Prop :=
  ∀ (s : State) (rest : List Event), s.fatal = false →
    (∀ e, s.inbox = e :: rest → step s = issue e { s with inbox := rest }) ∧
    (∀ t i, s.inbox = .bus t :: rest → t.cpu < s.cfg.numCpu → decodeTxn s.cfg t = .op i →
      step s = exec i { s with inbox := rest }) ∧
    (∀ t c off n, s.inbox = .bus t :: rest → t.cpu < s.cfg.numCpu → decodeTxn s.cfg t = .wideRead c off n →
      step s = execWideRead c off n { s with inbox := rest }) ∧
    (∀ t c off n v, s.inbox = .bus t :: rest → t.cpu < s.cfg.numCpu → decodeTxn s.cfg t = .wideWrite c off n v →
      step s = execWideWrite c off n v { s with inbox := rest }) ∧
    (∀ n v, s.inbox = .line n v :: rest → step s = exec (.setLine n v) { s with inbox := rest }) ∧
    (s.inbox = .reset :: rest → step s = exec .reset { s with inbox := rest }) ∧
    (s.inbox = .save :: rest → step s = exec .snapshotSave { s with inbox := rest }) ∧
    (∀ snap, s.inbox = .load snap :: rest → step s = exec (.snapshotLoad snap) { s with inbox := rest }) ∧
    (s.inbox = [] → step s = .next s)

/-- The bytes of an instruction placed as the next operation run as the instruction they decode to. The instruction
words are the model's choice (assumption log 7). -/
def Obligations.PlacedWordRunsAsDecoded : Prop :=
  ∀ (s : State) (nbits w : Nat) (i : Instr), s.fatal = false →
    decode s.cfg (wordBytes (w % 2 ^ nbits)) = .ok i → i.wf s.cfg = true →
    step (s.withFetchWord nbits w) = exec i s

/-- Words written out from the selector table of the spec decode to the rows they stand for, for an instance of 64 lines
under the default map. The map is the spec's decision D1, the place of the CPU index and the data the model's choice
(assumption log 7). -/
def Obligations.TableWordsDecode : Prop :=
  decodeTableWord 16 0x1185 = some (.distClrEnableW 0 5 0) ∧
  decodeTableWord 16 0x0428 = some (.distPriorityR 0 40) ∧
  decodeTableWord 16 0x1F00 = some (.distSgiW 0 0) ∧
  decodeTableWord 16 0x200C = some (.cpuAckR 0) ∧
  decodeTableWord 64 (0x3010 + 1 * 2 ^ 16 + 0x29 * 2 ^ 32) = some (.cpuEoiW 1 0x29) ∧
  decodeTableWord 16 0x0004 = none

/-- Every well-formed register operation, under every map whose ranges are disjoint, has bytes, and they decode to it.
The four operations that are no bus transactions have none (rule R138). -/
def Obligations.DecodeInvertsEncode : Prop :=
  ∀ (cfg : Config) (i : Instr), cfg.ok = true → i.wf cfg = true →
    (∃ bytes, encode cfg i = some bytes ∧ bytes.length = 8 ∧ decode cfg bytes = .ok i) ∨
      (encode cfg i = none ∧
        (i = .reset ∨ (∃ n v, i = .setLine n v) ∨ i = .snapshotSave ∨ ∃ snap, i = .snapshotLoad snap))

/-- The spec's default map (its decision D1) is a map for every legal `NUM_IRQ`: its eleven ranges are disjoint and lie
in the window. -/
def Obligations.DefaultMapRangesNeverOverlap : Prop :=
  ∀ (numIrq numCpu : Nat) (idBytes : List Byte) (version : Nat),
    (Config.withDefaults numIrq numCpu idBytes version).countsOk = true →
    (Config.withDefaults numIrq numCpu idBytes version).mapOk = true

/-- A distributor access some byte of which lies in no range, or in the SGI word, other than the 32-bit write at
`OFF_SGI`, is fatal: nothing changes but the fatal bit, with a diagnostic that names window, caller, direction, offset and
size. The offset is the access's own if the access runs past the window, and otherwise that of its first undecoded byte in
ascending order.
That an access past the window or partly undecoded is fatal as a whole is the spec's decision D22, that the fatal bit
is set its decision D23; that it is a next state is assumption log 4. -/
def Obligations.UndecodedDistributorAccessIsFatal : Prop :=
  ∀ (s : State) (t : Txn) (rest : List Event), Live s → s.inbox = .bus t :: rest → t.win = .dist →
    t.cpu < s.cfg.numCpu → ¬(t.dir = .write ∧ t.size = .word ∧ t.off.toNat = s.cfg.offSgi) →
    (∃ k < t.size.bytes, ∀ g, g ≠ .sgi →
      ¬(s.cfg.base g ≤ t.off.toNat + k ∧ t.off.toNat + k < s.cfg.base g + s.cfg.len g)) →
    ∃ k < t.size.bytes,
      (if 0x1000 < t.off.toNat + t.size.bytes then k = 0
       else
        (∀ g, g ≠ .sgi →
          ¬(s.cfg.base g ≤ t.off.toNat + k ∧ t.off.toNat + k < s.cfg.base g + s.cfg.len g)) ∧
        ∀ k' < k, ∃ g, g ≠ .sgi ∧ s.cfg.base g ≤ t.off.toNat + k' ∧
          t.off.toNat + k' < s.cfg.base g + s.cfg.len g) ∧
      step s = .next (State.died { s with inbox := rest }
        (.undecodedOffset .dist t.cpu t.dir (t.off.toNat + k) t.size.bytes))

/-- An access to the CPU-interface window that is not a 32-bit access at one of the seven offsets is fatal (the spec's
decision D20), and so is a read of `CPU_EOI` (its decision D17): nothing changes but the fatal bit. That offsets above
`0xFF` exist in this window, as undecoded ones, is the model's choice (assumption log 16). -/
def Obligations.UndecodedCpuWindowAccessIsFatal : Prop :=
  ∀ (s : State) (t : Txn) (rest : List Event), Live s → s.inbox = .bus t :: rest → t.win = .cpuif →
    t.cpu < s.cfg.numCpu →
    (t.size ≠ .word ∨ t.off.toNat ∉ [0x00, 0x04, 0x08, 0x0C, 0x10, 0x14, 0x18] ∨
      t.off.toNat = 0x10 ∧ t.dir = .read) →
    step s = .next (State.died { s with inbox := rest }
      (.undecodedOffset .cpuif t.cpu t.dir t.off.toNat t.size.bytes))

/-- After a fatal error every operation is refused, `RESET` too (the spec's decision D23). -/
def Obligations.FatalStateRefusesEveryOperation : Prop :=
  ∀ (s : State), s.fatal = true →
    step s = .refused .fatalState ∧ ∀ i : Instr, exec i s = .refused .fatalState

/-! ## Reset and construction -/

/-- A register access by a CPU that does not exist is refused (the spec's decision D37), and so is a line event whose
input does not exist or whose level is none (its decision D24). -/
def Obligations.OperationsOnMissingPartsAreRefused : Prop :=
  ∀ (s : State), s.fatal = false →
    (∀ c, s.cfg.numCpu ≤ c →
      (∀ t rest, s.inbox = .bus t :: rest → t.cpu = c → step s = .refused .noSuchCpu) ∧
      ∀ i, callerOf i = some c → exec i s = .refused .noSuchCpu) ∧
    ∀ n v,
      (s.cfg.numIrq ≤ n + 32 → exec (.setLine n v) s = .refused .noSuchInput) ∧
      (n + 32 < s.cfg.numIrq → 1 < v → exec (.setLine n v) s = .refused .notALevel)

/-- `RESET` from any state of an instance leaves every field of the reset table of the spec at its value and keeps the
parameters. The values `0` of `dist_enabled`, `cpu_enabled`, priorities, targets, levels and binary point, the trigger of
lines 16 and up, the routing model, `last_active` and the mask value `0xFF` are the spec's decisions D5 to D9. -/
def Obligations.ResetGivesTheResetTable : Prop :=
  ∀ (s : State), Live s → ∃ t, exec .reset s = .next t ∧
    t = { State.initial s.cfg with diag := s.diag, inbox := s.inbox } ∧
    (∀ i < s.cfg.numIrq,
      t.line i = { enabled := if i < 16 then cpuAll s.cfg else 0, pending := 0, active := 0, level := false,
                   trigger := if i < 16 then .edge else .level, model := .nn, target := 0 }) ∧
    (∀ c < s.cfg.numCpu,
      (t.cpu c).enabled = false ∧ (t.cpu c).prioMask = 0xFF ∧ (t.cpu c).binPoint = 0 ∧
      (t.cpu c).runPrio = 0x100 ∧ (t.cpu c).runId = 1023 ∧ (t.cpu c).best = 1023 ∧ (t.cpu c).irqOut = false ∧
      (∀ i < s.cfg.numIrq, (t.cpu c).lastActive[i]? = some 1023) ∧
      ∀ i < s.cfg.numIrq, t.prio i c = 0) ∧
    t.distEnabled = false ∧ t.fatal = false ∧ t.response = .none

/-- Construction succeeds exactly for legal parameters and leaves the reset state; for counts or a layout that the spec
refuses it gives the configuration error. -/
def Obligations.ConstructionBuildsExactlyLegalInstances : Prop :=
  ∀ (cfg : Config),
    (cfg.ok = true → construct cfg = .ok (State.initial cfg)) ∧
    (∀ s, construct cfg = .ok s → cfg.ok = true) ∧
    (cfg.numIrq = 0 ∨ cfg.numIrq % 32 ≠ 0 ∨ 1020 < cfg.numIrq ∨ cfg.numCpu = 0 ∨ 8 < cfg.numCpu ∨
        cfg.mode = .embedded →
      construct cfg = .error (.badConfig cfg.numIrq cfg.numCpu cfg.mode))

/-! ## Line input -/

/-- An event with the level the line already has changes nothing. -/
def Obligations.SetLineSameLevelDoesNothing : Prop :=
  ∀ (s : State) (n : Nat) (up : Bool), Live s → n + 32 < s.cfg.numIrq → (s.line (n + 32)).level = up →
    exec (.setLine n (if up then 1 else 0)) s = .next { s with response := .none }

/-- A rising transition stores the level and, if the line is edge-triggered or enabled for a targeted CPU, adds the
target mask to the pending bits; then arbitration runs. Nothing else changes. -/
def Obligations.SetLineRisingLatchesTargets : Prop :=
  ∀ (s : State) (n : Nat), Live s → n + 32 < s.cfg.numIrq → (s.line (n + 32)).level = false →
    ∃ t, exec (.setLine n 1) s = .next t ∧
      After s
        (fun i l => if i = n + 32 then
          { l with level := true,
                   pending := if l.trigger = .edge ∨ (∃ c < 8, l.enabled.getLsbD c = true ∧ l.target.getLsbD c = true)
                     then l.pending ||| l.target else l.pending } else l)
        sameCpus .none t

/-- A falling transition stores the level and retracts nothing; then arbitration runs. Nothing else changes. -/
def Obligations.SetLineFallingKeepsPending : Prop :=
  ∀ (s : State) (n : Nat), Live s → n + 32 < s.cfg.numIrq → (s.line (n + 32)).level = true →
    ∃ t, exec (.setLine n 0) s = .next t ∧
      After s (fun i l => if i = n + 32 then { l with level := false } else l) sameCpus .none t

/-! ## Distributor registers -/

/-- A `DIST_CTRL` byte reads the global enable in bit 0 of byte 0 and zeros elsewhere; that reserved bits read 0 is the
spec's decision D35. -/
def Obligations.CtrlReadShowsGlobalEnable : Prop :=
  ∀ (s : State) (c k : Nat), Live s → c < s.cfg.numCpu → k < 4 →
    exec (.distCtrlR c k) s = .next { s with response := .data (if k = 0 ∧ s.distEnabled = true then 1 else 0) }

/-- A write of byte 0 of `DIST_CTRL` sets the global enable to its bit 0; bytes 1 to 3 are ignored; then arbitration
runs. Nothing else changes. -/
def Obligations.CtrlWriteSetsGlobalEnable : Prop :=
  ∀ (s : State) (c k : Nat) (b : Byte), Live s → c < s.cfg.numCpu → k < 4 →
    ∃ t, exec (.distCtrlW c k b) s = .next t ∧
      After { s with distEnabled := if k = 0 then b.getLsbD 0 else s.distEnabled } sameLines sameCpus .none t

/-- A byte of either enable register reads the caller's enable bits of its eight lines (the spec's decision D15) and
changes nothing. -/
def Obligations.EnableReadsShowCallersBits : Prop :=
  ∀ (s : State) (c j : Nat), Live s → c < s.cfg.numCpu → j < s.cfg.numIrq / 8 →
    ∃ v : Byte, exec (.distSetEnableR c j) s = .next { s with response := .data (v.setWidth 32) } ∧
      exec (.distClrEnableR c j) s = .next { s with response := .data (v.setWidth 32) } ∧
      ∀ k < 8, v.getLsbD k = (s.line (8 * j + k)).enabled.getLsbD c

/-- A Set-Enable byte forces lines 0..15 enabled for the caller, enables a private line for the caller and a shared line
for every CPU where its bit is 1, and, with `PEND_LEVEL_ON_ENABLE` (the spec's decision D14), makes a raised
level-triggered line pending; then arbitration runs. Nothing else changes. -/
def Obligations.SetEnableWriteEnablesLines : Prop :=
  ∀ (s : State) (c j : Nat) (b : Byte), Live s → c < s.cfg.numCpu → j < s.cfg.numIrq / 8 →
    ∃ t, exec (.distSetEnableW c j b) s = .next t ∧
      After s
        (fun i l =>
          if i / 8 ≠ j then l
          else if i < 16 then { l with enabled := l.enabled ||| cpuBit c }
          else if b.getLsbD (i % 8) = false then l
          else
            { l with
              enabled := if i < 32 then l.enabled ||| cpuBit c else cpuAll s.cfg
              pending :=
                if s.cfg.pendLevelOnEnable = true ∧ l.trigger = .level ∧ l.level = true then
                  l.pending ||| (if i < 32 then cpuBit c else l.target)
                else l.pending })
        sameCpus .none t

/-- A Clear-Enable byte ignores lines 0..15, disables a private line for the caller and a shared line for every CPU where
its bit is 1; pending and active bits stay; then arbitration runs. -/
def Obligations.ClrEnableWriteDisablesLines : Prop :=
  ∀ (s : State) (c j : Nat) (b : Byte), Live s → c < s.cfg.numCpu → j < s.cfg.numIrq / 8 →
    ∃ t, exec (.distClrEnableW c j b) s = .next t ∧
      After s
        (fun i l =>
          if i / 8 = j ∧ 16 ≤ i ∧ b.getLsbD (i % 8) = true then
            { l with enabled := if i < 32 then l.enabled &&& ~~~(cpuBit c) else 0 }
          else l)
        sameCpus .none t

/-- A byte of either pending register, or of the Active register, reads for a private line the caller's pending or active
bit, and for a shared line whether it is pending or active for any CPU (the spec's decision D15), and changes nothing. -/
def Obligations.PendingAndActiveReadsShowLines : Prop :=
  ∀ (s : State) (c j : Nat), Live s → c < s.cfg.numCpu → j < s.cfg.numIrq / 8 → ∃ p a : Byte,
    exec (.distSetPendingR c j) s = .next { s with response := .data (p.setWidth 32) } ∧
    exec (.distClrPendingR c j) s = .next { s with response := .data (p.setWidth 32) } ∧
    exec (.distActiveR c j) s = .next { s with response := .data (a.setWidth 32) } ∧
    ∀ k < 8,
      (p.getLsbD k = true ↔
        if 8 * j + k < 32 then (s.line (8 * j + k)).pending.getLsbD c = true
        else ∃ c' < 8, (s.line (8 * j + k)).pending.getLsbD c' = true) ∧
      (a.getLsbD k = true ↔
        if 8 * j + k < 32 then (s.line (8 * j + k)).active.getLsbD c = true
        else ∃ c' < 8, (s.line (8 * j + k)).active.getLsbD c' = true)

/-- A Set-Pending byte ignores lines 0..15, pends a private line for the caller and a shared line for its target CPUs where
its bit is 1 (the spec's decision D13); then arbitration runs. Nothing else changes. -/
def Obligations.SetPendingWritePendsLines : Prop :=
  ∀ (s : State) (c j : Nat) (b : Byte), Live s → c < s.cfg.numCpu → j < s.cfg.numIrq / 8 →
    ∃ t, exec (.distSetPendingW c j b) s = .next t ∧
      After s
        (fun i l =>
          if i / 8 = j ∧ 16 ≤ i ∧ b.getLsbD (i % 8) = true then
            { l with pending := l.pending ||| (if i < 32 then cpuBit c else l.target) }
          else l)
        sameCpus .none t

/-- A Clear-Pending byte clears the pending bits of every CPU, for private lines too, where its bit is 1; active bits
stay; then arbitration runs. -/
def Obligations.ClrPendingWriteClearsEveryCpu : Prop :=
  ∀ (s : State) (c j : Nat) (b : Byte), Live s → c < s.cfg.numCpu → j < s.cfg.numIrq / 8 →
    ∃ t, exec (.distClrPendingW c j b) s = .next t ∧
      After s (fun i l => if i / 8 = j ∧ b.getLsbD (i % 8) = true then { l with pending := 0 } else l)
        sameCpus .none t

/-- A Priority byte reads the priority of its line, for a private line the caller's own, and changes nothing. -/
def Obligations.PriorityReadShowsPriority : Prop :=
  ∀ (s : State) (c i : Nat), Live s → c < s.cfg.numCpu → i < s.cfg.numIrq →
    ∃ b : Byte, exec (.distPriorityR c i) s = .next { s with response := .data (b.setWidth 32) } ∧
      (i < 32 → (s.cpu c).prioPriv[i]? = some b) ∧ (32 ≤ i → s.prioShared[i - 32]? = some b)

/-- A Priority write stores all eight bits, for a private line in the caller's own copy, changes no other priority and no
cached running priority; then arbitration runs. Nothing else changes. -/
def Obligations.PriorityWriteStoresPriority : Prop :=
  ∀ (s : State) (c i : Nat) (b : Byte), Live s → c < s.cfg.numCpu → i < s.cfg.numIrq →
    ∃ t, exec (.distPriorityW c i b) s = .next t ∧
      After { s with prioShared := if i < 32 then s.prioShared else s.prioShared.set (i - 32) b } sameLines
        (fun c' p => if c' = c ∧ i < 32 then { p with prioPriv := p.prioPriv.set i b } else p) .none t ∧
      (∀ c' < s.cfg.numCpu, t.prio i c' = if i < 32 ∧ c' ≠ c then s.prio i c' else b) ∧
      ∀ i' < s.cfg.numIrq, i' ≠ i → ∀ c' < s.cfg.numCpu, t.prio i' c' = s.prio i' c'

/-- A Target byte of lines 29..31 reads the caller's own bit, of any other line the stored mask, and changes nothing. -/
def Obligations.TargetReadShowsMaskOrCaller : Prop :=
  ∀ (s : State) (c i : Nat), Live s → c < s.cfg.numCpu → i < s.cfg.numIrq →
    ∃ v : Word, exec (.distTargetR c i) s = .next { s with response := .data v } ∧
      v = if i = 29 ∨ i = 30 ∨ i = 31 then 1#32 <<< c else (s.line i).target.setWidth 32

/-- A Target write stores the caller's bit for ids below 29 and every CPU's bit for 29..31, whatever the data, and the
data reduced to the existing CPUs for a shared line (the spec's decision D28); no pending bit changes; then arbitration
runs. -/
def Obligations.TargetWriteStoresMask : Prop :=
  ∀ (s : State) (c i : Nat) (b : Byte), Live s → c < s.cfg.numCpu → i < s.cfg.numIrq →
    ∃ (t : State) (m : CpuSet), exec (.distTargetW c i b) s = .next t ∧
      (∀ k < 8, m.getLsbD k = true ↔
        if i < 29 then k = c else if i < 32 then k < s.cfg.numCpu else k < s.cfg.numCpu ∧ b.getLsbD k = true) ∧
      After s (fun i' l => if i' = i then { l with target := m } else l) sameCpus .none t

/-- A Configuration byte reads the model bit and the trigger bit of its four lines (the packing is the spec's decision
D3) and changes nothing. -/
def Obligations.ConfigReadShowsModelAndTrigger : Prop :=
  ∀ (s : State) (c j : Nat), Live s → c < s.cfg.numCpu → j < s.cfg.numIrq / 4 →
    ∃ v : Byte, exec (.distConfigR c j) s = .next { s with response := .data (v.setWidth 32) } ∧
      ∀ k < 4, (v.getLsbD (2 * k) = true ↔ (s.line (4 * j + k)).model = .oneN) ∧
        (v.getLsbD (2 * k + 1) = true ↔ (s.line (4 * j + k)).trigger = .edge)

/-- A Configuration write forces the private lines of its byte to N:N and edge and stores the two bits of each shared line
(the packing is the spec's decision D3); no pending bit and no level changes; then arbitration runs. -/
def Obligations.ConfigWriteStoresModelAndTrigger : Prop :=
  ∀ (s : State) (c j : Nat) (b : Byte), Live s → c < s.cfg.numCpu → j < s.cfg.numIrq / 4 →
    ∃ t, exec (.distConfigW c j b) s = .next t ∧
      After s
        (fun i l =>
          if i / 4 ≠ j then l
          else if i < 32 then { l with model := .nn, trigger := .edge }
          else
            { l with
              model := if b.getLsbD (2 * (i % 4)) = true then .oneN else .nn
              trigger := if b.getLsbD (2 * (i % 4) + 1) = true then .edge else .level })
        sameCpus .none t

/-- An SGI write adds the chosen CPUs to the pending bits of the line it names, any line that exists, and changes nothing
if it names none; then arbitration runs. The numbering of the filter modes, the id range and the reduction of the mask
are the spec's decision D16. -/
def Obligations.SgiWritePendsChosenCpus : Prop :=
  ∀ (s : State) (c : Nat) (v : Word), Live s → c < s.cfg.numCpu →
    ∃ (t : State) (m : CpuSet), exec (.distSgiW c v) s = .next t ∧
      (∀ k < 8, m.getLsbD k = true ↔ k < s.cfg.numCpu ∧
        (v.getLsbD 25 = false ∧ v.getLsbD 24 = false ∧ v.getLsbD (16 + k) = true ∨
          v.getLsbD 25 = false ∧ v.getLsbD 24 = true ∧ k ≠ c ∨
          v.getLsbD 25 = true ∧ v.getLsbD 24 = false ∧ k = c ∨
          v.getLsbD 25 = true ∧ v.getLsbD 24 = true)) ∧
      After s (fun i l => if i = v.toNat % 1024 then { l with pending := l.pending ||| m } else l) sameCpus .none t

/-- Each of the eight identification bytes reads at its aligned offset; the bytes between read 0 (the spec's decision
D19). Nothing changes. -/
def Obligations.IdReadShowsIdentificationBytes : Prop :=
  ∀ (s : State) (c m r : Nat), Live s → c < s.cfg.numCpu → m < 8 → r < 4 →
    ∃ b : Byte, s.cfg.idBytes[m]? = some b ∧
      exec (.distIdR c (4 * m + r)) s = .next { s with response := .data (if r = 0 then b.setWidth 32 else 0) }

/-- A 16- or 32-bit distributor write, all of whose bytes lie in ranges other than the SGI word's, leaves the state that
its one-byte writes leave when they are issued in ascending offset order. That it runs arbitration once, after the last
byte, is the spec's decision D22. -/
def Obligations.WideWriteIsItsByteWrites : Prop :=
  ∀ (s : State) (t : Txn), Live s → t.win = .dist → t.dir = .write → t.cpu < s.cfg.numCpu → t.size ≠ .byte →
    t.off.toNat + t.size.bytes ≤ 0x1000 → ¬(t.size = .word ∧ t.off.toNat = s.cfg.offSgi) →
    (∀ k < t.size.bytes, ∃ g, g ≠ .sgi ∧ s.cfg.base g ≤ t.off.toNat + k ∧
      t.off.toNat + k < s.cfg.base g + s.cfg.len g) →
    (∃ u, issue (.bus t) s = .next u) ∧
    issue (.bus t) s =
      issueAll ((List.range t.size.bytes).map fun k =>
        .bus { t with off := BitVec.ofNat 12 (t.off.toNat + k), size := .byte, data := t.data >>> (8 * k) }) s

/-- A 16- or 32-bit distributor read, all of whose bytes lie in ranges other than the SGI word's, returns the
little-endian composition of what its one-byte reads return, and changes nothing. -/
def Obligations.WideReadIsItsByteReads : Prop :=
  ∀ (s : State) (t : Txn), Live s → t.win = .dist → t.dir = .read → t.cpu < s.cfg.numCpu → t.size ≠ .byte →
    t.off.toNat + t.size.bytes ≤ 0x1000 →
    (∀ k < t.size.bytes, ∃ g, g ≠ .sgi ∧ s.cfg.base g ≤ t.off.toNat + k ∧
      t.off.toNat + k < s.cfg.base g + s.cfg.len g) →
    ∃ v : Word, issue (.bus t) s = .next { s with response := .data v } ∧ v.toNat < 256 ^ t.size.bytes ∧
      ∀ k < t.size.bytes,
        issue (.bus { t with off := BitVec.ofNat 12 (t.off.toNat + k), size := .byte }) s =
          .next { s with response := .data ((v >>> (8 * k)) &&& 0xFF) }

/-! ## CPU interface registers -/

/-- The reads of Control, Priority-Mask, Binary-Point, Running-Priority and Highest-Pending return the field of their CPU,
zero-extended, and change nothing. That reserved bits read 0 is the spec's decision D35, the width of the binary point its
decision D31, the value 0x100 of an idle running priority its decision D32, the layout of an id word its decision D11. -/
def Obligations.CpuReadsShowTheirFields : Prop :=
  ∀ (s : State) (c : Nat), Live s → c < s.cfg.numCpu → ∃ v₁ v₂ v₃ v₄ v₅ : Word,
    exec (.cpuCtrlR c) s = .next { s with response := .data v₁ } ∧
    exec (.cpuPrimaskR c) s = .next { s with response := .data v₂ } ∧
    exec (.cpuBinpointR c) s = .next { s with response := .data v₃ } ∧
    exec (.cpuRunpriR c) s = .next { s with response := .data v₄ } ∧
    exec (.cpuHipendR c) s = .next { s with response := .data v₅ } ∧
    v₁.toNat = (s.cpu c).enabled.toNat ∧ v₂.toNat = (s.cpu c).prioMask.toNat ∧ v₃ = (s.cpu c).binPoint ∧
    v₄.toNat = (s.cpu c).runPrio.toNat ∧ v₅.toNat = (s.cpu c).best.toNat

/-- Reads of the write-only registers, one byte of the SGI word or the End-Of-Interrupt word, are fatal (the spec's
decision D17): nothing changes but the fatal bit (assumption log 4). -/
def Obligations.ReadsOfWriteOnlyRegistersAreFatal : Prop :=
  ∀ (s : State) (c : Nat), Live s → c < s.cfg.numCpu →
    (∀ k < 4, exec (.distSgiR c k) s =
      .next (s.died (.undecodedOffset .dist c .read (s.cfg.offSgi + k) 1))) ∧
    exec (.cpuEoiR c) s = .next (s.died (.undecodedOffset .cpuif c .read 0x10 4))

/-- Writes to the read-only registers are ignored: those of the CPU interface change nothing, and those of the
distributor, which end with arbitration, change nothing where arbitration was current. -/
def Obligations.WritesToReadOnlyRegistersAreIgnored : Prop :=
  ∀ (s : State) (c : Nat) (v : Word) (b : Byte), Live s → c < s.cfg.numCpu →
    exec (.cpuAckW c v) s = .next { s with response := .none } ∧
    exec (.cpuRunpriW c v) s = .next { s with response := .none } ∧
    exec (.cpuHipendW c v) s = .next { s with response := .none } ∧
    (ArbitrationCurrent s →
      (∀ j < s.cfg.numIrq / 8, exec (.distActiveW c j b) s = .next { s with response := .none }) ∧
      ∀ k < 32, exec (.distIdW c k b) s = .next { s with response := .none })

/-- A Control write sets the interface's enable to bit 0 of the data; the running state stays; then arbitration runs. -/
def Obligations.CpuCtrlWriteSetsEnable : Prop :=
  ∀ (s : State) (c : Nat) (v : Word), Live s → c < s.cfg.numCpu →
    ∃ t, exec (.cpuCtrlW c v) s = .next t ∧
      After s sameLines (fun c' p => if c' = c then { p with enabled := v.getLsbD 0 } else p) .none t

/-- A Priority-Mask write keeps the low eight bits of the data; then arbitration runs; the best pending line, which the
mask does not touch, stays where arbitration was current. -/
def Obligations.PrimaskWriteSetsMask : Prop :=
  ∀ (s : State) (c : Nat) (v : Word), Live s → c < s.cfg.numCpu →
    ∃ (t : State) (m : Byte), exec (.cpuPrimaskW c v) s = .next t ∧ m.toNat = v.toNat % 256 ∧
      After s sameLines (fun c' p => if c' = c then { p with prioMask := m } else p) .none t ∧
      (ArbitrationCurrent s → ∀ c' < s.cfg.numCpu, (t.cpu c').best = (s.cpu c').best)

/-- A Binary-Point write keeps all 32 bits of the data (the spec's decision D31) and changes nothing else: no output of
arbitration, no other CPU. -/
def Obligations.BinpointWriteStoresOnly : Prop :=
  ∀ (s : State) (c : Nat) (v : Word), Live s → c < s.cfg.numCpu →
    ∃ t, exec (.cpuBinpointW c v) s = .next t ∧ t = { s with cpus := t.cpus, response := .none } ∧
      t.cpus.length = s.cpus.length ∧
      ∀ c' < s.cfg.numCpu, t.cpu c' = if c' = c then { s.cpu c' with binPoint := v } else s.cpu c'

/-- An acknowledge claims the best pending line if its priority is strictly below the running priority, whatever the
priority mask: it returns the id, pushes the running id, clears the line's pending bit for this CPU, or for every CPU under
the 1:N model, sets its active bit, and makes it the running interrupt at its priority; then arbitration runs. Nothing else
changes. That the claim sets the active bit is the resolution of conflict C2. -/
def Obligations.AcknowledgeClaimsTheBestLine : Prop :=
  ∀ (s : State) (c : Nat) (id : IrqId), Live s → c < s.cfg.numCpu → (s.cpu c).best = id → id ≠ noneId →
    id.toNat < s.cfg.numIrq → (s.prio id.toNat c).toNat < (s.cpu c).runPrio.toNat →
    ∃ (t : State) (w : Word), exec (.cpuAckR c) s = .next t ∧ w.toNat = id.toNat ∧
      After s
        (fun i l => if i = id.toNat then
          { l with pending := if l.model = .oneN then 0 else l.pending &&& ~~~(cpuBit c),
                   active := l.active ||| cpuBit c } else l)
        (fun c' p => if c' = c then
          { p with lastActive := p.lastActive.set id.toNat p.runId, runId := id,
                   runPrio := (s.prio id.toNat c).setWidth 9 } else p)
        (.data w) t

/-- An acknowledge with nothing pending, or whose best pending line does not beat the running priority, returns 1023 and
changes nothing. -/
def Obligations.AcknowledgeWithNothingEligibleIsSpurious : Prop :=
  ∀ (s : State) (c : Nat), Live s → c < s.cfg.numCpu →
    (s.cpu c).best = noneId ∨
      (s.cpu c).best.toNat < s.cfg.numIrq ∧
        (s.cpu c).runPrio.toNat ≤ (s.prio (s.cpu c).best.toNat c).toNat →
    exec (.cpuAckR c) s = .next { s with response := .data 1023 }

/-- After a claim of a 1:N line, it is the best pending line of no CPU: exactly one CPU gets the interrupt. -/
def Obligations.OneNClaimLeavesItToNobodyElse : Prop :=
  ∀ (s t : State) (c : Nat) (id : IrqId), Live s → c < s.cfg.numCpu → id.toNat < s.cfg.numIrq →
    (s.line id.toNat).model = .oneN → exec (.cpuAckR c) s = .next t → (t.cpu c).runId = id →
    (s.cpu c).runId ≠ id → ∀ c' < s.cfg.numCpu, (t.cpu c').best ≠ id ∧ (t.line id.toNat).pending = 0

/-- An End-Of-Interrupt whose id names no line, or on a CPU with nothing running, is ignored. That the id is bits 9:0 of
the data is the spec's decision D11. -/
def Obligations.EoiOfNothingIsIgnored : Prop :=
  ∀ (s : State) (c : Nat) (v : Word), Live s → c < s.cfg.numCpu →
    s.cfg.numIrq ≤ v.toNat % 1024 ∨ (s.cpu c).runId = noneId →
    exec (.cpuEoiW c v) s = .next { s with response := .none }

/-- End-Of-Interrupt of the running id: a level-triggered line that is still enabled, raised and targeted here becomes
pending again for this CPU; the active bit is cleared; the id that was running before becomes the running one, at the
priority the table gives it now, or nothing runs (the spec's decision D12); then arbitration runs. Nothing else changes.
That the active bit is cleared is the resolution of conflict C2. -/
def Obligations.EoiOfRunningIdPops : Prop :=
  ∀ (s : State) (c : Nat) (v : Word) (prev : IrqId), Live s → c < s.cfg.numCpu →
    v.toNat % 1024 < s.cfg.numIrq → (s.cpu c).runId.toNat = v.toNat % 1024 →
    (s.cpu c).lastActive[v.toNat % 1024]? = some prev → IdOk s.cfg prev →
    ∃ t, exec (.cpuEoiW c v) s = .next t ∧
      After s
        (fun i l => if i = v.toNat % 1024 then
          { l with
            pending := if l.trigger = .level ∧ l.enabled.getLsbD c = true ∧ l.level = true ∧ l.target.getLsbD c = true
              then l.pending ||| cpuBit c else l.pending
            active := l.active &&& ~~~(cpuBit c) } else l)
        (fun c' p => if c' = c then
          { p with runId := prev,
                   runPrio := if prev = noneId then 0x100 else (s.prio prev.toNat c).setWidth 9 } else p)
        .none t

/-- End-Of-Interrupt of an active id that is not the running one: the member of the chain before it is linked to the one
after it and its active bit is cleared; what is running does not change; the level re-pend happens as for the running id,
and only then does arbitration run. That the active bit is cleared is the resolution of conflict C2. -/
def Obligations.EoiOfNestedIdSplices : Prop :=
  ∀ (s : State) (c : Nat) (v : Word) (before after : List IrqId) (pred id : IrqId), Live s → c < s.cfg.numCpu →
    IsGoodChain s.cfg (s.cpu c) (before ++ pred :: id :: after) → id.toNat = v.toNat % 1024 →
    ∃ (t : State) (comes : Bool), exec (.cpuEoiW c v) s = .next t ∧
      (comes = true ↔ (s.line id.toNat).trigger = .level ∧ (s.line id.toNat).enabled.getLsbD c = true ∧
        (s.line id.toNat).level = true ∧ (s.line id.toNat).target.getLsbD c = true) ∧
      t = { s with lines := t.lines, cpus := t.cpus, response := .none } ∧
      (∀ i < s.cfg.numIrq, t.line i =
        if i = id.toNat then
          { s.line i with
            pending := if comes = true then (s.line i).pending ||| cpuBit c else (s.line i).pending
            active := (s.line i).active &&& ~~~(cpuBit c) }
        else s.line i) ∧
      (∀ c' < s.cfg.numCpu, t.cpu c' =
        { (if c' = c then
            { s.cpu c' with lastActive :=
                (s.cpu c').lastActive.set pred.toNat ((s.cpu c').lastActive.getD id.toNat noneId) }
          else s.cpu c') with best := (t.cpu c').best, irqOut := (t.cpu c').irqOut }) ∧
      (comes = true → ArbitrationCurrent t) ∧
      (comes = false → ∀ c' < s.cfg.numCpu,
        (t.cpu c').best = (s.cpu c').best ∧ (t.cpu c').irqOut = (s.cpu c').irqOut) ∧
      IsChain (t.cpu c).lastActive (t.cpu c).runId (before ++ pred :: after)

/-- End-Of-Interrupt of an id that is not in the chain, while something runs, changes nothing but a possible level
re-pend, which needs no claim; only then does arbitration run. -/
def Obligations.EoiOfUnclaimedIdOnlyRepends : Prop :=
  ∀ (s : State) (c : Nat) (v : Word) (members : List IrqId), Live s → c < s.cfg.numCpu →
    IsGoodChain s.cfg (s.cpu c) members → members ≠ [] → v.toNat % 1024 < s.cfg.numIrq →
    BitVec.ofNat 10 (v.toNat % 1024) ∉ members →
    if (s.line (v.toNat % 1024)).trigger = .level ∧ (s.line (v.toNat % 1024)).enabled.getLsbD c = true ∧
        (s.line (v.toNat % 1024)).level = true ∧ (s.line (v.toNat % 1024)).target.getLsbD c = true then
      ∃ t, exec (.cpuEoiW c v) s = .next t ∧
        After s (fun i l => if i = v.toNat % 1024 then { l with pending := l.pending ||| cpuBit c } else l)
          sameCpus .none t
    else exec (.cpuEoiW c v) s = .next { s with response := .none }

/-- End-Of-Interrupt of an id that a cyclic chain never reaches does not end (the spec's decision D38): the machine is
stuck (assumption log 8). -/
def Obligations.EoiOnCyclicChainIsStuck : Prop :=
  ∀ (s : State) (c : Nat) (v : Word), Live s → c < s.cfg.numCpu → v.toNat % 1024 < s.cfg.numIrq →
    (∀ n, (follow (s.cpu c).lastActive n (s.cpu c).runId).toNat < s.cfg.numIrq ∧
      (follow (s.cpu c).lastActive n (s.cpu c).runId).toNat ≠ v.toNat % 1024) →
    exec (.cpuEoiW c v) s = .fault .eoiWalkDiverges

/-- Nested interrupts retired in stack order or out of it: with `b` running over `a` over nothing, both orders of the two
End-Of-Interrupts end with nothing running and neither active. -/
def Obligations.NestedRetirementInEitherOrderEndsIdle : Prop :=
  ∀ (s : State) (c : Nat) (a b : IrqId), Live s → c < s.cfg.numCpu →
    IsGoodChain s.cfg (s.cpu c) [b, a] →
    ∀ first second, (first = a ∧ second = b ∨ first = b ∧ second = a) →
    ∃ t u, exec (.cpuEoiW c (first.setWidth 32)) s = .next t ∧ exec (.cpuEoiW c (second.setWidth 32)) t = .next u ∧
      ((t.cpu c).runId = if first = a then b else a) ∧
      (u.cpu c).runId = 1023 ∧ (u.cpu c).runPrio = 0x100 ∧
      (u.line a.toNat).active.getLsbD c = false ∧ (u.line b.toNat).active.getLsbD c = false

/-! ## Snapshots -/

/-- A save returns the version and the fields of the spec's list and changes nothing. -/
def Obligations.SaveReturnsThePersistedFields : Prop :=
  ∀ (s : State), Live s → ∃ snap, exec .snapshotSave s = .next { s with response := .snapshot snap } ∧
    snap.version = s.cfg.snapshotVersion ∧ snap.distEnabled = s.distEnabled ∧ snap.prioShared = s.prioShared ∧
    snap.fits s.cfg = true ∧
    (∀ c < s.cfg.numCpu, snap.cpus[c]? = some
      { enabled := (s.cpu c).enabled, prioPriv := (s.cpu c).prioPriv, lastActive := (s.cpu c).lastActive,
        prioMask := (s.cpu c).prioMask, runId := (s.cpu c).runId, runPrio := (s.cpu c).runPrio,
        bestPending := (s.cpu c).best }) ∧
    ∀ i < s.cfg.numIrq, snap.lines[i]? = some
      { target := (s.line i).target, enabled := (s.line i).enabled, pending := (s.line i).pending,
        active := (s.line i).active, model := (s.line i).model, trigger := (s.line i).trigger }

/-- A load of a snapshot of the right version and shape restores every persisted field, keeps levels and binary points,
and runs arbitration (the spec's decision D30). -/
def Obligations.LoadRestoresThePersistedFields : Prop :=
  ∀ (s : State) (snap : Snapshot), Live s → snap.version = s.cfg.snapshotVersion → snap.fits s.cfg = true →
    ∃ t, exec (.snapshotLoad snap) s = .next t ∧
      After { s with distEnabled := snap.distEnabled, prioShared := snap.prioShared }
        (fun i l => match snap.lines[i]? with
          | some r => { target := r.target, enabled := r.enabled, pending := r.pending, active := r.active,
                        model := r.model, trigger := r.trigger, level := l.level }
          | none => l)
        (fun c p => match snap.cpus[c]? with
          | some q => { enabled := q.enabled, prioPriv := q.prioPriv, lastActive := q.lastActive,
                        prioMask := q.prioMask, runId := q.runId, runPrio := q.runPrio, best := q.bestPending,
                        binPoint := p.binPoint, irqOut := p.irqOut }
          | none => p)
        .none t

/-- A load of a snapshot of another version is fatal and changes no field. A snapshot of the right version and another
shape is refused, the model's choice (assumption log 10). -/
def Obligations.LoadOfOtherVersionIsFatal : Prop :=
  ∀ (s : State) (snap : Snapshot), Live s →
    (snap.version ≠ s.cfg.snapshotVersion →
      exec (.snapshotLoad snap) s = .next (s.died (.snapshotVersion snap.version))) ∧
    (snap.version = s.cfg.snapshotVersion → snap.fits s.cfg = false →
      exec (.snapshotLoad snap) s = .refused .foreignSnapshot)

/-- Loading the snapshot just saved changes nothing; loading it into a fresh instance of the same parameters gives the
saved state but for levels and binary points, which are the fresh instance's. -/
def Obligations.SnapshotRoundTrip : Prop :=
  ∀ (s : State), Live s → ArbitrationCurrent s → ∃ t snap, exec .snapshotSave s = .next t ∧
    t.response = .snapshot snap ∧
    exec (.snapshotLoad snap) s = .next { s with response := .none } ∧
    ∃ u, exec (.snapshotLoad snap) (State.initial s.cfg) = .next u ∧
      u.distEnabled = s.distEnabled ∧ u.prioShared = s.prioShared ∧
      (∀ i < s.cfg.numIrq, u.line i = { s.line i with level := false }) ∧
      ∀ c < s.cfg.numCpu, u.cpu c = { s.cpu c with binPoint := 0 }

/-! ## Whole-machine properties -/

/-- After every step, `best_pending` and `irq_out` of every CPU are what arbitration computes from the rest of the state,
if they were before it. -/
def Obligations.EveryStepKeepsArbitrationCurrent : Prop :=
  ∀ (s t : State), s.cfg.ok = true → ArbitrationCurrent s → step s = .next t → ArbitrationCurrent t

/-- A constructed instance, and the machine at reset, meet the invariants. -/
def Obligations.ResetStateMeetsTheInvariants : Prop :=
  (∀ cfg : Config, cfg.ok = true → Inv (State.initial cfg) ∧ ChainsOk (State.initial cfg)) ∧ Inv State.reset

/-- Every step keeps the invariants: table sizes, the fixed SGI lines, the paired running state, ids that name lines,
bitsets within the existing CPUs, all-or-nothing shared enables, current arbitration. -/
def Obligations.EveryStepKeepsTheInvariants : Prop :=
  ∀ (s t : State), Inv s → step s = .next t → Inv t

/-- Every operation but a snapshot load keeps the active chains well-formed and mirrored by the active bits, unless it
claims a line that is already active for its CPU. -/
def Obligations.EveryOperationKeepsTheActiveChains : Prop :=
  ∀ (s t : State) (i : Instr), Inv s → ChainsOk s → (∀ snap, i ≠ .snapshotLoad snap) →
    (∀ c, i = .cpuAckR c → (s.cpu c).best ≠ noneId →
      (s.line (s.cpu c).best.toNat).active.getLsbD c = false) →
    exec i s = .next t → ChainsOk t

/-- With the invariants, no step meets a stored id that names no line; with well-formed chains, no End-Of-Interrupt gets
stuck. -/
def Obligations.GoodStatesNeverFault : Prop :=
  ∀ (s : State), Inv s → step s ≠ .fault .idBeyondTable ∧ (ChainsOk s → ∀ f, step s ≠ .fault f)

/-- A private line's state for one CPU is changed by no other CPU's register access, but by a Clear-Pending or an SGI
write. -/
def Obligations.PrivateStateIsNotMutatedByOtherCpus : Prop :=
  ∀ (s t : State) (i : Instr) (caller other line : Nat), Inv s → callerOf i = some caller → other ≠ caller →
    other < s.cfg.numCpu → line < 32 →
    (∀ c j b, i ≠ .distClrPendingW c j b) → (∀ c v, i ≠ .distSgiW c v) → exec i s = .next t →
    (t.line line).enabled.getLsbD other = (s.line line).enabled.getLsbD other ∧
    (t.line line).pending.getLsbD other = (s.line line).pending.getLsbD other ∧
    (t.line line).active.getLsbD other = (s.line line).active.getLsbD other ∧
    t.prio line other = s.prio line other

/-- A private line's state for one CPU is visible to no other CPU. Two states that differ, in the private lines, only in
other CPUs' enable, pending and active bits, and in other CPUs' interfaces, answer the same to every distributor byte read.
If also arbitration is current in both and the CPU's own interface holds the same but for the outputs of arbitration, these
outputs are the same too, and every register read by the CPU, of any width and in either window, the acknowledge too,
returns the same or is fatal alike. -/
def Obligations.PrivateStateIsNotVisibleToOtherCpus : Prop :=
  ∀ (s₁ s₂ : State) (c : Nat), Live s₁ → Live s₂ → s₁.cfg = s₂.cfg → c < s₁.cfg.numCpu →
    s₁.distEnabled = s₂.distEnabled → s₁.prioShared = s₂.prioShared → (s₁.cpu c).prioPriv = (s₂.cpu c).prioPriv →
    (∀ i, 32 ≤ i → s₁.line i = s₂.line i) →
    (∀ i < 32, (s₁.line i).enabled.getLsbD c = (s₂.line i).enabled.getLsbD c ∧
      (s₁.line i).pending.getLsbD c = (s₂.line i).pending.getLsbD c ∧
      (s₁.line i).active.getLsbD c = (s₂.line i).active.getLsbD c ∧
      (s₁.line i).trigger = (s₂.line i).trigger ∧ (s₁.line i).model = (s₂.line i).model ∧
      (s₁.line i).target = (s₂.line i).target) →
    (∀ g j, g ≠ .sgi → j < s₁.cfg.len g →
      ∃ v, exec (readRow c g j) s₁ = .next { s₁ with response := .data v } ∧
        exec (readRow c g j) s₂ = .next { s₂ with response := .data v }) ∧
    (ArbitrationCurrent s₁ → ArbitrationCurrent s₂ →
      s₁.cpu c = { s₂.cpu c with best := (s₁.cpu c).best, irqOut := (s₁.cpu c).irqOut } →
      s₁.cpu c = s₂.cpu c ∧
      ∀ txn : Txn, txn.dir = .read → txn.cpu = c →
        ∃ t₁ t₂, issue (.bus txn) s₁ = .next t₁ ∧ issue (.bus txn) s₂ = .next t₂ ∧
          t₁.response = t₂.response ∧ t₁.fatal = t₂.fatal ∧ (t₁.fatal = true → t₁.diag = t₂.diag))

/-- The only register read that changes anything but the value returned is the acknowledge; a read that is fatal sets
the fatal bit. -/
def Obligations.OnlyAcknowledgeReadsHaveSideEffects : Prop :=
  ∀ (s t : State) (txn : Txn), Live s → txn.dir = .read → ¬(txn.win = .cpuif ∧ txn.off = 0x0C) →
    issue (.bus txn) s = .next t →
    (∃ v, t = { s with response := .data v }) ∨ ∃ d, t = s.died d

/-- The parameters never change, a step starts only in a state with no fatal error, and it leaves the events after the
one it performs as they are. -/
def Obligations.StepKeepsParametersAndLaterEvents : Prop :=
  ∀ (s t : State), step s = .next t → s.fatal = false ∧ t.cfg = s.cfg ∧ t.inbox = s.inbox.tail
end

