-- ==== Sys2Proof/Laws/Decode.lean ====
section
/-! SUPPORT. The distributor map finds the range that holds an offset, and the bytes of an instruction word give the word
back. -/

namespace Sys2Proof

/-! ## The map -/

theorem group_mem_all (g : Group) : g ∈ Group.all := by cases g <;> decide

/-- Offset `off` lies in the range of group `g`. -/
abbrev Config.holds (cfg : Config) (g : Group) (off : Nat) : Prop :=
  cfg.base g ≤ off ∧ off < cfg.base g + cfg.len g

theorem extent_holds (cfg : Config) (g : Group) (off : Nat) : (cfg.extent g).holds off = true ↔ cfg.holds g off := by
  simp only [Extent.holds, Bool.and_eq_true, decide_eq_true_eq]; exact Iff.rfl

/-- In a map, no offset lies in two ranges. -/
theorem holds_unique {cfg : Config} (h : cfg.mapOk = true) {g g' : Group} {off : Nat} (hg : cfg.holds g off)
    (hg' : cfg.holds g' off) : g = g' := by
  by_contra hne
  have hp : cfg.extents.Pairwise fun x y => x.disjoint y = true := by
    simp only [Config.mapOk, Bool.and_eq_true, decide_eq_true_eq] at h; exact h.1
  have hsym : Std.Symm fun x y : Group => (cfg.extent x).disjoint (cfg.extent y) = true :=
    ⟨fun x y hxy => by simp only [Extent.disjoint, Bool.or_eq_true, decide_eq_true_eq] at *; omega⟩
  have hd := (List.pairwise_map.1 hp).forall (group_mem_all g) (group_mem_all g') hne
  simp only [Extent.disjoint, Bool.or_eq_true, decide_eq_true_eq] at hd
  have hd' : cfg.base g + cfg.len g ≤ cfg.base g' ∨ cfg.base g' + cfg.len g' ≤ cfg.base g := hd
  omega

/-- In a map, every range lies in the window. -/
theorem extent_le {cfg : Config} (h : cfg.mapOk = true) (g : Group) : cfg.base g + cfg.len g ≤ 0x1000 := by
  simp only [Config.mapOk, Bool.and_eq_true, List.all_eq_true, decide_eq_true_eq] at h
  exact h.2 (cfg.extent g) (List.mem_map_of_mem (group_mem_all g))

/-- `Group(off)` is the group that holds the offset. -/
theorem extentAt_of_holds {cfg : Config} (h : cfg.mapOk = true) {g : Group} {off : Nat} (hg : cfg.holds g off) :
    cfg.extentAt off = some (cfg.extent g) := by
  unfold Config.extentAt
  cases hf : cfg.extents.find? (·.holds off) with
  | none =>
    have := List.find?_eq_none.1 hf _ (List.mem_map_of_mem (group_mem_all g))
    exact absurd ((extent_holds ..).2 hg) this
  | some x =>
    have hx := List.find?_some hf
    obtain ⟨g', _, rfl⟩ := List.mem_map.1 (List.mem_of_find?_eq_some hf)
    rw [holds_unique h hg ((extent_holds ..).1 hx)]

/-- `Group(off)` is a group that holds the offset. -/
theorem holds_of_extentAt {cfg : Config} {off : Nat} {x : Extent} (h : cfg.extentAt off = some x) :
    ∃ g, x = cfg.extent g ∧ cfg.holds g off := by
  unfold Config.extentAt at h
  have hx := List.find?_some h
  obtain ⟨g, _, rfl⟩ := List.mem_map.1 (List.mem_of_find?_eq_some h)
  exact ⟨g, rfl, (extent_holds ..).1 hx⟩

/-- An offset decodes exactly if a range other than the SGI word's holds it. -/
theorem decodesByte_iff {cfg : Config} (h : cfg.mapOk = true) (off : Nat) :
    cfg.decodesByte off = true ↔ ∃ g, g ≠ .sgi ∧ cfg.holds g off := by
  unfold Config.decodesByte
  cases hx : cfg.extentAt off with
  | none =>
    simp only [Bool.false_eq_true, false_iff]
    rintro ⟨g, _, hg⟩
    rw [extentAt_of_holds h hg] at hx
    exact absurd hx (by simp)
  | some x =>
    obtain ⟨g, rfl, hg⟩ := holds_of_extentAt hx
    simp only [decide_eq_true_eq]
    exact ⟨fun hne => ⟨g, hne, hg⟩, fun ⟨g', hne, hg'⟩ => by rw [holds_unique h hg hg']; exact hne⟩

/-- No byte of the access is undecoded exactly if every byte decodes. -/
theorem firstUndecoded_none {cfg : Config} {off n : Nat} :
    cfg.firstUndecoded off n = none ↔ ∀ k < n, cfg.decodesByte (off + k) = true := by
  simp [Config.firstUndecoded]

/-- The byte the diagnostic names is the first byte of the access, in ascending order, that does not decode. -/
theorem firstUndecoded_some {cfg : Config} {off n k : Nat} (h : cfg.firstUndecoded off n = some k) :
    k < n ∧ cfg.decodesByte (off + k) = false ∧ ∀ k' < k, cfg.decodesByte (off + k') = true := by
  unfold Config.firstUndecoded at h
  simpa [List.find?_range_eq_some, and_assoc, and_left_comm] using h

/-! ## Transactions -/

theorem mapOk_of_ok {cfg : Config} (h : cfg.ok = true) : cfg.mapOk = true := by
  simp only [Config.ok, Bool.and_eq_true] at h; exact h.2

/-- A one-byte read in the range of a group is the group's row. -/
theorem decodeByteAccess_read {cfg : Config} (h : cfg.mapOk = true) {t : Txn} {g : Group} (hd : t.dir = .read)
    (hg : cfg.holds g t.off.toNat) :
    decodeByteAccess cfg t = .op (readRow t.cpu g (t.off.toNat - cfg.base g)) := by
  unfold decodeByteAccess; dsimp only
  rw [extentAt_of_holds h hg, hd]
  rfl

/-- A one-byte write in the range of a group is the group's row, if it has one. -/
theorem decodeByteAccess_write {cfg : Config} (h : cfg.mapOk = true) {t : Txn} {g : Group} (hd : t.dir = .write)
    (hg : cfg.holds g t.off.toNat) :
    decodeByteAccess cfg t =
      match writeRow t.cpu g (t.off.toNat - cfg.base g) (t.data.setWidth 8) with
      | some i => .op i
      | none => .undecoded (.undecodedOffset .dist t.cpu .write t.off.toNat 1) := by
  unfold decodeByteAccess; dsimp only
  rw [extentAt_of_holds h hg, hd]
  rfl

/-- A one-byte access at an offset in no range is undecoded. -/
theorem decodeByteAccess_none {cfg : Config} {t : Txn} (h : ∀ g, ¬cfg.holds g t.off.toNat) :
    decodeByteAccess cfg t = .undecoded (.undecodedOffset .dist t.cpu t.dir t.off.toNat 1) := by
  unfold decodeByteAccess; dsimp only
  cases hx : cfg.extentAt t.off.toNat with
  | none => rfl
  | some x =>
    obtain ⟨g, _, hg⟩ := holds_of_extentAt hx
    exact absurd hg (h g)

/-- A one-byte access at an undecoded offset: undecoded, but for a read of the SGI word, which has a row of its own. -/
theorem decodeByteAccess_undecoded {cfg : Config} (h : cfg.mapOk = true) {t : Txn}
    (hd : cfg.decodesByte t.off.toNat = false) :
    decodeByteAccess cfg t = .undecoded (.undecodedOffset .dist t.cpu t.dir t.off.toNat 1) ∨
      t.dir = .read ∧ ∃ k < 4, cfg.offSgi + k = t.off.toNat ∧ decodeByteAccess cfg t = .op (.distSgiR t.cpu k) := by
  by_cases hg : cfg.holds .sgi t.off.toNat
  · cases hdir : t.dir with
    | write => rw [decodeByteAccess_write h hdir hg]; exact .inl rfl
    | read =>
      have h1 : cfg.offSgi ≤ t.off.toNat := hg.1
      have h2 : t.off.toNat < cfg.offSgi + 4 := hg.2
      exact .inr ⟨rfl, t.off.toNat - cfg.offSgi, by omega, by omega, decodeByteAccess_read h hdir hg⟩
  · refine .inl (decodeByteAccess_none fun g hh => ?_)
    rw [(decodesByte_iff h _).2 ⟨g, by rintro rfl; exact hg hh, hh⟩] at hd
    cases hd

/-- A read is no wide write, and a wide read is its caller's. -/
theorem decodeTxn_read {cfg : Config} {t : Txn} (hdir : t.dir = .read) :
    (∀ c off n v, decodeTxn cfg t ≠ .wideWrite c off n v) ∧
      ∀ c off n, decodeTxn cfg t = .wideRead c off n → c = t.cpu := by
  unfold decodeTxn
  cases t.win with
  | cpuif =>
    dsimp only [decodeCpuif]
    constructor
    · intro c off n v h; split at h <;> cases h
    · intro c off n h; split at h <;> cases h
  | dist =>
    dsimp only [decodeDist]
    split
    · exact ⟨fun _ _ _ _ h => (by cases h), fun _ _ _ h => (by cases h)⟩
    split
    · exact ⟨fun _ _ _ _ h => (by cases h), fun _ _ _ h => (by cases h)⟩
    split
    · dsimp only [decodeByteAccess]
      constructor
      · intro c off n v h; split at h <;> cases h
      · intro c off n h; split at h <;> cases h
    · rw [hdir]
      split
      · exact ⟨fun _ _ _ _ h => (by cases h), fun _ _ _ h => (by cases h)⟩
      · exact ⟨fun _ _ _ _ h => (by cases h), fun _ _ _ h => by cases h; rfl⟩

/-! ## Bytes of words -/

theorem wordBytes_length (w : Nat) : (wordBytes w).length = 8 := by simp [wordBytes]

/-- The bytes of a 64-bit word give the word back. -/
theorem bytesValue_wordBytes (w : Nat) : bytesValue (wordBytes w) = w % 2 ^ 64 := by
  simp only [wordBytes, List.range, List.range.loop, List.map, bytesValue, BitVec.toNat_ofNat]
  omega

/-- The bytes of a word whose bits 15:14 are zero stand for the word's transaction. -/
theorem txnOfBytes_wordBytes {cfg : Config} {w : Nat} (hlt : w < 2 ^ 64) (hz : w / 2 ^ 14 % 4 = 0) :
    txnOfBytes cfg (wordBytes w) = .ok (txnOfWord cfg w) := by
  unfold txnOfBytes
  have hv : bytesValue (wordBytes w) = w := by rw [bytesValue_wordBytes, Nat.mod_eq_of_lt hlt]
  rw [hv, if_neg (fun h => h (wordBytes_length w)), if_neg (fun h => h hz)]

theorem selector_lt {win : Win} {dir : Dir} {off : Nat} (h : off < 0x1000) : selector win dir off < 2 ^ 14 := by
  unfold selector; cases win <;> cases dir <;> simp <;> omega

/-- The word made of a selector, a CPU index and a data word stands for the transaction they say. -/
theorem txnOfWord_selector {cfg : Config} {win : Win} {dir : Dir} {off c d w : Nat} (hoff : off < 0x1000)
    (hc : c < 2 ^ 16) (hw : w = selector win dir off + c * 2 ^ 16 + d * 2 ^ 32) :
    txnOfWord cfg w =
      { win := win, cpu := c, dir := dir, off := BitVec.ofNat 12 off, size := rowSize cfg win dir off,
        data := BitVec.ofNat 32 d } := by
  have hsel := selector_lt (win := win) (dir := dir) hoff
  have h13 : w / 2 ^ 13 % 2 = if win = .cpuif then 1 else 0 := by
    rw [hw]; unfold selector; cases win <;> cases dir <;> simp <;> omega
  have h12 : w / 2 ^ 12 % 2 = if dir = .write then 1 else 0 := by
    rw [hw]; unfold selector; cases win <;> cases dir <;> simp <;> omega
  have hm : w % 0x1000 = off := by
    rw [hw]; unfold selector; cases win <;> cases dir <;> simp <;> omega
  have hcc : w / 2 ^ 16 % 2 ^ 16 = c := by omega
  have hdd : w / 2 ^ 32 = d := by omega
  have e13 : (if w.testBit 13 = true then Win.cpuif else Win.dist) = win := by
    rw [Nat.testBit_eq_decide_div_mod_eq, h13]; cases win <;> rfl
  have e12 : (if w.testBit 12 = true then Dir.write else Dir.read) = dir := by
    rw [Nat.testBit_eq_decide_div_mod_eq, h12]; cases dir <;> rfl
  unfold txnOfWord
  dsimp only
  rw [hm, hcc, hdd, e13, e12]

end Sys2Proof
end

