-- ==== Sys2Proof/Laws/State.lean ====
section
/-! SUPPORT. What the writes of the indexed fields leave: one lemma per field per update, so that no proof unfolds a record
update. -/

namespace Sys2Proof.Machine

variable (s : State) (i j c k : Nat) (f : Line → Line) (g : Cpu → Cpu) (h : Nat → Line → Line)

/-! ## Entries -/

/-- The fields of a CPU that exists. -/
theorem cpu_getElem {c : Nat} (hc : c < s.cpus.length) : s.cpu c = s.cpus[c] := by
  simp only [State.cpu, List.getD_eq_getElem?_getD, List.getElem?_eq_getElem hc, Option.getD_some]

/-- The fields of a line that exists. -/
theorem line_getElem {i : Nat} (hi : i < s.lines.length) : s.line i = s.lines[i] := by
  simp only [State.line, List.getD_eq_getElem?_getD, List.getElem?_eq_getElem hi, Option.getD_some]

/-! ## `onLine` -/

@[simp] theorem onLine_cfg : (s.onLine i f).cfg = s.cfg := rfl
@[simp] theorem onLine_lines : (s.onLine i f).lines = s.lines.modify i f := rfl
@[simp] theorem onLine_prioShared : (s.onLine i f).prioShared = s.prioShared := rfl
@[simp] theorem onLine_cpus : (s.onLine i f).cpus = s.cpus := rfl
@[simp] theorem onLine_distEnabled : (s.onLine i f).distEnabled = s.distEnabled := rfl
@[simp] theorem onLine_fatal : (s.onLine i f).fatal = s.fatal := rfl
@[simp] theorem onLine_diag : (s.onLine i f).diag = s.diag := rfl
@[simp] theorem onLine_response : (s.onLine i f).response = s.response := rfl
@[simp] theorem onLine_inbox : (s.onLine i f).inbox = s.inbox := rfl
@[simp] theorem onLine_cpu : (s.onLine i f).cpu c = s.cpu c := rfl
@[simp] theorem onLine_prio : (s.onLine i f).prio j c = s.prio j c := rfl

/-- Only line `i` changes, and only if it exists. -/
theorem onLine_line : (s.onLine i f).line j = if j = i ∧ i < s.lines.length then f (s.line j) else s.line j := by
  simp only [State.line, State.onLine, List.getD_eq_getElem?_getD, List.getElem?_modify]
  by_cases hji : j = i
  · subst hji
    by_cases hl : j < s.lines.length <;> simp [hl]
  · have : i ≠ j := fun e => hji e.symm
    simp [hji, this]

/-! ## `onLines` -/

@[simp] theorem onLines_cfg : (s.onLines h).cfg = s.cfg := rfl
@[simp] theorem onLines_lines : (s.onLines h).lines = s.lines.mapIdx h := rfl
@[simp] theorem onLines_prioShared : (s.onLines h).prioShared = s.prioShared := rfl
@[simp] theorem onLines_cpus : (s.onLines h).cpus = s.cpus := rfl
@[simp] theorem onLines_distEnabled : (s.onLines h).distEnabled = s.distEnabled := rfl
@[simp] theorem onLines_fatal : (s.onLines h).fatal = s.fatal := rfl
@[simp] theorem onLines_diag : (s.onLines h).diag = s.diag := rfl
@[simp] theorem onLines_response : (s.onLines h).response = s.response := rfl
@[simp] theorem onLines_inbox : (s.onLines h).inbox = s.inbox := rfl
@[simp] theorem onLines_cpu : (s.onLines h).cpu c = s.cpu c := rfl
@[simp] theorem onLines_prio : (s.onLines h).prio j c = s.prio j c := rfl

/-- Every line that exists changes by the function of its id. -/
theorem onLines_line : (s.onLines h).line j = if j < s.lines.length then h j (s.line j) else s.line j := by
  simp only [State.line, State.onLines, List.getD_eq_getElem?_getD, List.getElem?_mapIdx]
  by_cases hl : j < s.lines.length <;> simp [hl]

/-! ## `onCpu` -/

@[simp] theorem onCpu_cfg : (s.onCpu c g).cfg = s.cfg := rfl
@[simp] theorem onCpu_lines : (s.onCpu c g).lines = s.lines := rfl
@[simp] theorem onCpu_prioShared : (s.onCpu c g).prioShared = s.prioShared := rfl
@[simp] theorem onCpu_cpus : (s.onCpu c g).cpus = s.cpus.modify c g := rfl
@[simp] theorem onCpu_distEnabled : (s.onCpu c g).distEnabled = s.distEnabled := rfl
@[simp] theorem onCpu_fatal : (s.onCpu c g).fatal = s.fatal := rfl
@[simp] theorem onCpu_diag : (s.onCpu c g).diag = s.diag := rfl
@[simp] theorem onCpu_response : (s.onCpu c g).response = s.response := rfl
@[simp] theorem onCpu_inbox : (s.onCpu c g).inbox = s.inbox := rfl
@[simp] theorem onCpu_line : (s.onCpu c g).line j = s.line j := rfl

/-- Only CPU `c` changes, and only if it exists. -/
theorem onCpu_cpu : (s.onCpu c g).cpu k = if k = c ∧ c < s.cpus.length then g (s.cpu k) else s.cpu k := by
  simp only [State.cpu, State.onCpu, List.getD_eq_getElem?_getD, List.getElem?_modify]
  by_cases hkc : k = c
  · subst hkc
    by_cases hl : k < s.cpus.length <;> simp [hl]
  · have : c ≠ k := fun e => hkc e.symm
    simp [hkc, this]

/-- A change of a CPU that keeps its priorities keeps every priority. -/
theorem onCpu_prio (hg : ∀ p, (g p).prioPriv = p.prioPriv) : (s.onCpu c g).prio j k = s.prio j k := by
  unfold State.prio
  rw [onCpu_cpu]
  split
  · split <;> simp [hg]
  · rfl

/-! ## `update` -/

@[simp] theorem update_cfg : s.update.cfg = s.cfg := rfl
@[simp] theorem update_lines : s.update.lines = s.lines := rfl
@[simp] theorem update_prioShared : s.update.prioShared = s.prioShared := rfl
@[simp] theorem update_distEnabled : s.update.distEnabled = s.distEnabled := rfl
@[simp] theorem update_fatal : s.update.fatal = s.fatal := rfl
@[simp] theorem update_diag : s.update.diag = s.diag := rfl
@[simp] theorem update_response : s.update.response = s.response := rfl
@[simp] theorem update_inbox : s.update.inbox = s.inbox := rfl
@[simp] theorem update_line : s.update.line i = s.line i := rfl
@[simp] theorem update_cpus_length : s.update.cpus.length = s.cpus.length := by simp [State.update]

variable (p : Cpu)

@[simp] theorem arbitrate_enabled : (s.arbitrate c p).enabled = p.enabled := by unfold State.arbitrate; split <;> rfl
@[simp] theorem arbitrate_prioMask : (s.arbitrate c p).prioMask = p.prioMask := by unfold State.arbitrate; split <;> rfl
@[simp] theorem arbitrate_binPoint : (s.arbitrate c p).binPoint = p.binPoint := by unfold State.arbitrate; split <;> rfl
@[simp] theorem arbitrate_runPrio : (s.arbitrate c p).runPrio = p.runPrio := by unfold State.arbitrate; split <;> rfl
@[simp] theorem arbitrate_runId : (s.arbitrate c p).runId = p.runId := by unfold State.arbitrate; split <;> rfl
@[simp] theorem arbitrate_prioPriv : (s.arbitrate c p).prioPriv = p.prioPriv := by unfold State.arbitrate; split <;> rfl
@[simp] theorem arbitrate_lastActive : (s.arbitrate c p).lastActive = p.lastActive := by
  unfold State.arbitrate; split <;> rfl

/-- Arbitration changes nothing of a CPU but its two outputs. -/
theorem arbitrate_eq :
    s.arbitrate c p = { p with best := (s.arbitrate c p).best, irqOut := (s.arbitrate c p).irqOut } := by
  unfold State.arbitrate; split <;> rfl

/-- What arbitration gives a CPU does not depend on the outputs it had. -/
theorem arbitrate_outputs (b : IrqId) (o : Bool) :
    s.arbitrate c { p with best := b, irqOut := o } = s.arbitrate c p := by
  unfold State.arbitrate; rfl

/-- `Update()` gives every CPU its arbitration. A CPU that does not exist reads as reset, which is what arbitration
gives it. -/
@[simp] theorem update_cpu : s.update.cpu c = s.arbitrate c (s.cpu c) := by
  simp only [State.cpu, State.update, List.getD_eq_getElem?_getD, List.getElem?_mapIdx]
  by_cases hl : c < s.cpus.length
  · simp [hl]
  · simp [hl, State.arbitrate, Cpu.atReset]

@[simp] theorem update_prio : s.update.prio i c = s.prio i c := by
  unfold State.prio
  rw [update_cpu, arbitrate_prioPriv]
  rfl

/-! ## `setPrio` -/

variable (b : Byte)

@[simp] theorem setPrio_cfg : (s.setPrio c i b).cfg = s.cfg := by unfold State.setPrio; split <;> rfl
@[simp] theorem setPrio_lines : (s.setPrio c i b).lines = s.lines := by unfold State.setPrio; split <;> rfl
@[simp] theorem setPrio_distEnabled : (s.setPrio c i b).distEnabled = s.distEnabled := by
  unfold State.setPrio; split <;> rfl
@[simp] theorem setPrio_fatal : (s.setPrio c i b).fatal = s.fatal := by unfold State.setPrio; split <;> rfl
@[simp] theorem setPrio_diag : (s.setPrio c i b).diag = s.diag := by unfold State.setPrio; split <;> rfl
@[simp] theorem setPrio_response : (s.setPrio c i b).response = s.response := by unfold State.setPrio; split <;> rfl
@[simp] theorem setPrio_inbox : (s.setPrio c i b).inbox = s.inbox := by unfold State.setPrio; split <;> rfl
@[simp] theorem setPrio_line : (s.setPrio c i b).line j = s.line j := by unfold State.setPrio; split <;> rfl

/-! ## `response` -/

variable (r : Response)

@[simp] theorem answered_line : ({ s with response := r } : State).line j = s.line j := rfl
@[simp] theorem answered_cpu : ({ s with response := r } : State).cpu c = s.cpu c := rfl
@[simp] theorem answered_prio : ({ s with response := r } : State).prio j c = s.prio j c := rfl

end Sys2Proof.Machine
end

