-- ==== Sys2Proof/Laws/Arbitration.lean ====
section
/-! SUPPORT. What `Update()` computes: the scan finds the candidate that comes first, and after it arbitration is current. -/

namespace Sys2Proof.Machine

/-- The test of the scan's body, as a proposition. -/
theorem beats_iff (s : State) (c i : Nat) (bound : RunPrio) :
    s.beats c i bound = true ↔ Candidate s c i ∧ (s.prio i c).toNat < bound.toNat := by
  simp [State.beats, and_assoc]

/-- The scan of the first `n` lines: nothing found and no candidate among them, or the first candidate among them by
priority and then by id. -/
theorem scan_prefix (s : State) (c n : Nat) :
    ((∀ i < n, ¬Candidate s c i) ∧ (List.range n).foldl (s.scanStep c) (noneId, nonePrio) = (noneId, nonePrio)) ∨
    ∃ b < n, Candidate s c b ∧
      (List.range n).foldl (s.scanStep c) (noneId, nonePrio) = (BitVec.ofNat 10 b, (s.prio b c).setWidth 9) ∧
      ∀ k < n, Candidate s c k → NotAfter s c b k := by
  induction n with
  | zero => left; simp
  | succ n ih =>
    have hprio : ∀ i, ((s.prio i c).setWidth 9).toNat = (s.prio i c).toNat := fun i => by
      have := (s.prio i c).isLt
      simp only [BitVec.toNat_setWidth]; omega
    rw [List.range_succ, List.foldl_append, List.foldl_cons, List.foldl_nil]
    rcases ih with ⟨hnone, hfold⟩ | ⟨b, hb, hcand, hfold, hmin⟩
    · rw [hfold]
      by_cases hn : Candidate s c n
      · right
        refine ⟨n, by omega, hn, ?_, ?_⟩
        · have hlt := (s.prio n c).isLt
          have : s.beats c n nonePrio = true := (beats_iff ..).2 ⟨hn, by simpa using hlt⟩
          simp [State.scanStep, this]
        · intro k hk hck
          rcases Nat.lt_succ_iff_lt_or_eq.1 hk with h | rfl
          · exact absurd hck (hnone k h)
          · exact .inr ⟨rfl, le_rfl⟩
      · left
        refine ⟨fun i hi => ?_, ?_⟩
        · rcases Nat.lt_succ_iff_lt_or_eq.1 hi with h | rfl
          · exact hnone i h
          · exact hn
        · have : s.beats c n nonePrio = false := by
            rw [Bool.eq_false_iff]; exact fun h => hn ((beats_iff ..).1 h).1
          simp [State.scanStep, this]
    · right
      rw [hfold]
      by_cases hn : s.beats c n ((s.prio b c).setWidth 9) = true
      · obtain ⟨hcn, hlt⟩ := (beats_iff ..).1 hn
        rw [hprio] at hlt
        refine ⟨n, by omega, hcn, by simp [State.scanStep, hn], fun k hk hck => ?_⟩
        rcases Nat.lt_succ_iff_lt_or_eq.1 hk with h | rfl
        · have := hmin k h hck
          unfold NotAfter at *; omega
        · exact .inr ⟨rfl, le_rfl⟩
      · refine ⟨b, by omega, hcand, by simp [State.scanStep, hn], fun k hk hck => ?_⟩
        rcases Nat.lt_succ_iff_lt_or_eq.1 hk with h | rfl
        · exact hmin k h hck
        · have : ¬((s.prio k c).toNat < (s.prio b c).toNat) := fun h =>
            hn ((beats_iff ..).2 ⟨hck, by rw [hprio]; exact h⟩)
          unfold NotAfter; omega

/-- Two ids that are both the best one are the same. -/
theorem isBest_unique {s : State} {c : Nat} {a b : IrqId} (ha : IsBest s c a) (hb : IsBest s c b) : a = b := by
  unfold IsBest at ha hb
  split at ha
  · rename_i h
    rw [if_pos h] at hb
    have h1 := ha.2.2 _ hb.1 hb.2.1
    have h2 := hb.2.2 _ ha.1 ha.2.1
    unfold NotAfter at h1 h2
    exact BitVec.eq_of_toNat_eq (by omega)
  · rename_i h
    rw [if_neg h] at hb
    rw [ha, hb]

/-- Legal parameters have at most 1020 lines. -/
theorem numIrq_le {cfg : Config} (h : cfg.ok = true) : cfg.numIrq ≤ 1020 := by
  simp [Config.ok, Config.countsOk] at h; omega

/-- Legal parameters have at most 8 CPUs. -/
theorem numCpu_le {cfg : Config} (h : cfg.ok = true) : cfg.numCpu ≤ 8 := by
  simp [Config.ok, Config.countsOk, maxCpu] at h; omega

/-- The arbitration of a CPU: its best line is the best one, and its output is high exactly if some line may interrupt
it. -/
theorem arbitrate_spec (s : State) (hn : s.cfg.numIrq ≤ 1020) (c : Nat) :
    IsBest s c (s.arbitrate c (s.cpu c)).best ∧
      ((s.arbitrate c (s.cpu c)).irqOut = true ↔ MayInterrupt s c) := by
  unfold IsBest MayInterrupt State.arbitrate
  by_cases hg : GateOpen s c
  · have hg' : (s.distEnabled && (s.cpu c).enabled) = true := by simpa [GateOpen] using hg
    rw [if_pos hg']
    have key := scan_prefix s c s.cfg.numIrq
    change (_ ∧ s.scan c = _) ∨ (∃ b < s.cfg.numIrq, _ ∧ s.scan c = _ ∧ _) at key
    rcases key with ⟨hnone, hscan⟩ | ⟨b, hb, hcand, hscan, hmin⟩
    · have hno : ¬(GateOpen s c ∧ ∃ i < s.cfg.numIrq, Candidate s c i) := fun ⟨_, i, hi, h⟩ => hnone i hi h
      rw [if_neg hno, hscan]
      refine ⟨rfl, ?_⟩
      simp only [Cpu.outputFor]
      constructor
      · intro h; simp at h
      · rintro ⟨_, i, hi, h, _⟩; exact absurd h (hnone i hi)
    · have hbt : (BitVec.ofNat 10 b).toNat = b := by simp only [BitVec.toNat_ofNat]; omega
      have hpt : ((s.prio b c).setWidth 9).toNat = (s.prio b c).toNat := by
        have := (s.prio b c).isLt
        simp only [BitVec.toNat_setWidth]; omega
      have hne : BitVec.ofNat 10 b ≠ noneId := fun h => by
        have := congrArg BitVec.toNat h
        rw [hbt] at this; simp at this; omega
      rw [if_pos ⟨hg, b, hb, hcand⟩, hscan]
      refine ⟨by simp only [hbt]; exact ⟨hb, hcand, hmin⟩, ?_⟩
      simp only [Cpu.outputFor, Bool.and_eq_true, decide_eq_true_eq, hpt]
      constructor
      · rintro ⟨⟨_, h1⟩, h2⟩; exact ⟨hg, b, hb, hcand, h1, h2⟩
      · rintro ⟨_, i, hi, hci, h1, h2⟩
        have := hmin i hi hci
        unfold NotAfter at this
        exact ⟨⟨hne, by omega⟩, by omega⟩
  · have hg' : ¬(s.distEnabled && (s.cpu c).enabled) = true := by simpa [GateOpen] using hg
    rw [if_neg hg', if_neg (fun h => hg h.1)]
    exact ⟨rfl, by simp [hg]⟩

/-- What arbitration says of a state depends on its outputs nowhere else. -/
theorem arbitrationCurrent_of_same {s t : State} (hcfg : t.cfg = s.cfg) (hdist : t.distEnabled = s.distEnabled)
    (hline : ∀ i, (t.line i).enabled = (s.line i).enabled ∧ (t.line i).pending = (s.line i).pending)
    (hprio : ∀ i c, t.prio i c = s.prio i c)
    (hcpu : ∀ c, (t.cpu c).enabled = (s.cpu c).enabled ∧ (t.cpu c).prioMask = (s.cpu c).prioMask ∧
      (t.cpu c).runPrio = (s.cpu c).runPrio) (c : Nat) :
    (∀ id, IsBest t c id ↔ IsBest s c id) ∧ (MayInterrupt t c ↔ MayInterrupt s c) := by
  constructor
  · intro id
    simp only [IsBest, GateOpen, Candidate, NotAfter, hcfg, hdist, hprio, (hline _).1, (hline _).2, (hcpu c).1]
  · simp only [MayInterrupt, GateOpen, Candidate, hcfg, hdist, hprio, (hline _).1, (hline _).2, (hcpu c).1,
      (hcpu c).2.1, (hcpu c).2.2]

/-- After `Update()`, arbitration is current. -/
theorem update_current (s : State) (hn : s.cfg.numIrq ≤ 1020) : ArbitrationCurrent s.update := by
  intro c _
  have key := arbitrationCurrent_of_same (s := s) (t := s.update) rfl rfl (fun _ => ⟨rfl, rfl⟩)
    (fun i c => update_prio s i c) (fun c => by simp) c
  rw [key.1, key.2, update_cpu]
  exact arbitrate_spec s hn c

/-- Where arbitration is current and every CPU exists, `Update()` changes nothing. -/
theorem update_of_current {s : State} (hn : s.cfg.numIrq ≤ 1020) (hl : s.cpus.length = s.cfg.numCpu)
    (h : ArbitrationCurrent s) : s.update = s := by
  have hcpus : s.update.cpus = s.cpus := by
    apply List.ext_getElem (by simp)
    intro c h1 h2
    have hc : s.cpu c = s.cpus[c] := cpu_getElem s h2
    have hu : s.update.cpu c = s.update.cpus[c] := cpu_getElem s.update h1
    rw [← hc, ← hu, update_cpu, arbitrate_eq]
    have hcur := h c (by omega)
    have hspec := arbitrate_spec s hn c
    have hb := isBest_unique hspec.1 hcur.1
    have ho : (s.arbitrate c (s.cpu c)).irqOut = (s.cpu c).irqOut := by
      rw [Bool.eq_iff_iff, hspec.2, hcur.2]
    rw [hb, ho]
  calc s.update = { s with cpus := s.update.cpus } := rfl
    _ = s := by rw [hcpus]

/-- What `Update()` computes depends on no output it writes. -/
theorem update_outputs (s : State) (cpus : List Cpu) (hl : cpus.length = s.cpus.length)
    (h : ∀ c, ({ s with cpus := cpus } : State).cpu c =
      { s.cpu c with best := (({ s with cpus := cpus } : State).cpu c).best,
                     irqOut := (({ s with cpus := cpus } : State).cpu c).irqOut }) :
    ({ s with cpus := cpus } : State).update = s.update := by
  let t : State := { s with cpus := cpus }
  have hprio : ∀ i c, t.prio i c = s.prio i c := fun i c => by
    unfold State.prio; rw [h c]
  have hscan : ∀ c, t.scan c = s.scan c := fun c => by
    have hstep : t.scanStep c = s.scanStep c := by
      funext best i; simp only [State.scanStep, State.beats, hprio]; rfl
    unfold State.scan; rw [hstep]
  have harb : ∀ c p, t.arbitrate c p = s.arbitrate c p := fun c p => by
    unfold State.arbitrate; rw [hscan]
  have hcpus : t.update.cpus = s.update.cpus := by
    apply List.ext_getElem (by simpa [State.update, t] using hl)
    intro c h1 h2
    have hc : t.update.cpu c = t.update.cpus[c] := cpu_getElem t.update h1
    have hu : s.update.cpu c = s.update.cpus[c] := cpu_getElem s.update h2
    rw [← hc, ← hu, update_cpu, update_cpu, harb, h c, arbitrate_outputs]
  calc t.update = { s with cpus := t.update.cpus } := rfl
    _ = s.update := by rw [hcpus]; rfl

/-- `Update()` is idempotent (rule R147). -/
theorem update_update (s : State) : s.update.update = s.update := by
  have h := update_outputs s s.update.cpus (by simp) (fun c => by
    have : (({ s with cpus := s.update.cpus } : State).cpu c) = s.update.cpu c := rfl
    rw [this, update_cpu]; exact arbitrate_eq s c _)
  exact h

end Sys2Proof.Machine
end

