-- ==== Sys2Proof/Laws/Ops.lean ====
section
/-! SUPPORT. What the shared operations answer: one lemma each for when an operation ends in a next state and in which one,
and the state that an operation followed by `Update()` leaves. -/

namespace Sys2Proof.Machine

variable {s t : State} {c k : Nat} {r : Response}

/-! ## How an operation ends -/

@[simp] theorem answer_next : s.answer r = .next t ↔ t = { s with response := r } := by
  simp [State.answer, eq_comm]

@[simp] theorem raiseFatal_next {d : Diag} : s.raiseFatal d = .next t ↔ t = s.died d := by
  simp [State.raiseFatal, eq_comm]

@[simp] theorem unlessFatal_next {o : Outcome} : s.unlessFatal o = .next t ↔ s.fatal = false ∧ o = .next t := by
  unfold State.unlessFatal; split <;> simp_all

@[simp] theorem unlessFatal_fault {o : Outcome} {f : Fault} :
    s.unlessFatal o = .fault f ↔ s.fatal = false ∧ o = .fault f := by
  unfold State.unlessFatal; split <;> simp_all

@[simp] theorem asCpu_next {o : Outcome} :
    s.asCpu c o = .next t ↔ s.fatal = false ∧ c < s.cfg.numCpu ∧ o = .next t := by
  unfold State.asCpu; rw [unlessFatal_next]; split <;> simp_all

@[simp] theorem asCpu_fault {o : Outcome} {f : Fault} :
    s.asCpu c o = .fault f ↔ s.fatal = false ∧ c < s.cfg.numCpu ∧ o = .fault f := by
  unfold State.asCpu; rw [unlessFatal_fault]; split <;> simp_all

theorem unlessFatal_live (h : s.fatal = false) (o : Outcome) : s.unlessFatal o = o := by simp [State.unlessFatal, h]

theorem asCpu_live (h : s.fatal = false) (hc : c < s.cfg.numCpu) (o : Outcome) : s.asCpu c o = o := by
  simp [State.asCpu, State.unlessFatal, h, hc]

theorem readByteOf_live {g : Group} {v : Byte} (h : s.fatal = false) (hc : c < s.cfg.numCpu) (hk : k < s.cfg.len g) :
    s.readByteOf g c k v = .next { s with response := .data (v.setWidth 32) } := by
  rw [State.readByteOf, asCpu_live h hc, if_pos hk]; rfl

theorem writeByteOf_live {g : Group} {u : State} (h : s.fatal = false) (hc : c < s.cfg.numCpu) (hk : k < s.cfg.len g) :
    s.writeByteOf g c k u = .next { u.update with response := .none } := by
  rw [State.writeByteOf, asCpu_live h hc, if_pos hk]; rfl

/-- All a one-byte read can do. -/
theorem readByteOf_next {g : Group} {v : Byte} :
    s.readByteOf g c k v = .next t ↔ s.fatal = false ∧ c < s.cfg.numCpu ∧
      ((k < s.cfg.len g ∧ t = { s with response := .data (v.setWidth 32) }) ∨
       (¬k < s.cfg.len g ∧ t = s.died (.undecodedOffset .dist c .read (s.cfg.base g + k) 1))) := by
  unfold State.readByteOf; rw [asCpu_next]; split <;> simp_all

/-- All a one-byte write can do. -/
theorem writeByteOf_next {g : Group} {u : State} :
    s.writeByteOf g c k u = .next t ↔ s.fatal = false ∧ c < s.cfg.numCpu ∧
      ((k < s.cfg.len g ∧ t = { u.update with response := .none }) ∨
       (¬k < s.cfg.len g ∧ t = s.died (.undecodedOffset .dist c .write (s.cfg.base g + k) 1))) := by
  unfold State.writeByteOf; rw [asCpu_next]; split <;> simp_all

@[simp] theorem readByteOf_fault {g : Group} {v : Byte} {f : Fault} : s.readByteOf g c k v ≠ .fault f := by
  unfold State.readByteOf; rw [ne_eq, asCpu_fault]; split <;> simp [State.answer, State.raiseFatal]

@[simp] theorem writeByteOf_fault {g : Group} {u : State} {f : Fault} : s.writeByteOf g c k u ≠ .fault f := by
  unfold State.writeByteOf; rw [ne_eq, asCpu_fault]; split <;> simp [State.answer, State.raiseFatal]

/-! ## A table write followed by `Update()` -/

/-- What arbitration says of a state does not look at what the operation returned. -/
theorem current_answered (h : ArbitrationCurrent s) : ArbitrationCurrent { s with response := r } := h

/-- A state whose lines and CPUs are those of `s` changed entry by entry, after `Update()` and the answer. -/
theorem after_update {u : State} {line : Nat → Line → Line} {cpu : Nat → Cpu → Cpu} (hn : s.cfg.numIrq ≤ 1020)
    (hu : u = { s with lines := u.lines, cpus := u.cpus }) (hll : u.lines.length = s.lines.length)
    (hcl : u.cpus.length = s.cpus.length) (hline : ∀ i < s.cfg.numIrq, u.line i = line i (s.line i))
    (hcpu : ∀ c < s.cfg.numCpu, u.cpu c = cpu c (s.cpu c)) :
    After s line cpu r { u.update with response := r } := by
  have hcfg : u.cfg = s.cfg := by rw [hu]
  refine ⟨?_, by simpa using hll, by simpa using hcl, fun i hi => ?_, fun c hc => ?_, ?_⟩
  · calc ({ u.update with response := r } : State)
        = { u with cpus := u.update.cpus, response := r } := rfl
      _ = _ := by rw [hu]; rfl
  · rw [← hline i hi]; rfl
  · rw [← hcpu c hc]
    simp only [answered_cpu, update_cpu]
    exact arbitrate_eq u c _
  · exact update_current u (by rw [hcfg]; exact hn)

/-- `Update()` keeps what it does not write: entry by entry, only the outputs of arbitration can differ. -/
theorem update_entry (s : State) (c : Nat) :
    s.update.cpu c = { s.cpu c with best := (s.update.cpu c).best, irqOut := (s.update.cpu c).irqOut } := by
  simp only [update_cpu]; exact arbitrate_eq s c _

/-- An operation that ends with `Update()` after changing line `i`. -/
theorem onLine_after {i : Nat} {f : Line → Line} {line : Nat → Line → Line} (hs : Live s)
    (h : ∀ j < s.cfg.numIrq, (if j = i then f (s.line j) else s.line j) = line j (s.line j)) :
    ∃ t, (s.onLine i f).update.answer r = .next t ∧ After s line sameCpus r t := by
  refine ⟨_, rfl, after_update (numIrq_le hs.1) rfl (by simp) (by simp) (fun j hj => ?_) (fun _ _ => rfl)⟩
  rw [onLine_line, ← h j hj, hs.2.1.1]
  by_cases e : j = i
  · subst e; simp [hj]
  · simp [e]

/-- An operation that ends with `Update()` after changing the lines by a function of their id. -/
theorem onLines_after {f line : Nat → Line → Line} (hs : Live s)
    (h : ∀ j < s.cfg.numIrq, f j (s.line j) = line j (s.line j)) :
    ∃ t, (s.onLines f).update.answer r = .next t ∧ After s line sameCpus r t := by
  refine ⟨_, rfl, after_update (numIrq_le hs.1) rfl (by simp) (by simp) (fun j hj => ?_) (fun _ _ => rfl)⟩
  rw [onLines_line, ← h j hj, hs.2.1.1, if_pos hj]

/-- An operation that ends with `Update()` after changing CPU `i`. -/
theorem onCpu_after {i : Nat} {f : Cpu → Cpu} {cpu : Nat → Cpu → Cpu} (hs : Live s)
    (h : ∀ j < s.cfg.numCpu, (if j = i then f (s.cpu j) else s.cpu j) = cpu j (s.cpu j)) :
    ∃ t, (s.onCpu i f).update.answer r = .next t ∧ After s sameLines cpu r t := by
  refine ⟨_, rfl, after_update (numIrq_le hs.1) rfl (by simp) (by simp) (fun _ _ => rfl) (fun j hj => ?_)⟩
  rw [onCpu_cpu, ← h j hj, hs.2.1.2.2.1]
  by_cases e : j = i
  · subst e; simp [hj]
  · simp [e]

/-- Where the distributor is disabled and no output of arbitration is set, `Update()` changes nothing. -/
theorem update_of_disabled (h : s.distEnabled = false) (hc : ∀ p ∈ s.cpus, p.best = noneId ∧ p.irqOut = false) :
    s.update = s := by
  have hcpus : s.update.cpus = s.cpus := by
    apply List.ext_getElem (by simp)
    intro i h1 h2
    have := hc _ (List.getElem_mem h2)
    simp only [State.update, List.getElem_mapIdx, State.arbitrate, h, Bool.false_and]
    generalize s.cpus[i] = p at *
    cases p; simp_all
  calc s.update = { s with cpus := s.update.cpus } := rfl
    _ = s := by rw [hcpus]

/-! ## The claim -/

/-- All the claim of a line does before its `Update()`. -/
theorem claim_eq (s : State) (c : Nat) (id : IrqId) : s.claim c id =
    ((s.onCpu c fun p =>
        { p with lastActive := p.lastActive.set id.toNat p.runId, runId := id,
                 runPrio := (s.prio id.toNat c).setWidth 9 }).onLine id.toNat fun l =>
      { l with pending := if l.model = .oneN then 0 else l.pending &&& ~~~(cpuBit c),
               active := l.active ||| cpuBit c }).update := rfl

/-- A claim ends with `Update()`. -/
theorem claim_current (s : State) (hn : s.cfg.numIrq ≤ 1020) (c : Nat) (id : IrqId) :
    ArbitrationCurrent (s.claim c id) := by
  rw [claim_eq]; exact update_current (State.onLine _ _ _) hn

/-- All a claim does, entry by entry. -/
theorem claim_after (hn : s.cfg.numIrq ≤ 1020) (hl : s.lines.length = s.cfg.numIrq)
    (hp : s.cpus.length = s.cfg.numCpu) (c : Nat) (id : IrqId) :
    After s
      (fun i l => if i = id.toNat then
        { l with pending := if l.model = .oneN then 0 else l.pending &&& ~~~(cpuBit c),
                 active := l.active ||| cpuBit c } else l)
      (fun c' p => if c' = c then
        { p with lastActive := p.lastActive.set id.toNat p.runId, runId := id,
                 runPrio := (s.prio id.toNat c).setWidth 9 } else p)
      r { s.claim c id with response := r } := by
  rw [claim_eq]
  refine after_update hn rfl (by simp) (by simp) (fun i hi => ?_) (fun c' hc' => ?_)
  · rw [onLine_line]
    by_cases h : i = id.toNat
    · rw [if_pos ⟨h, by simpa [hl, ← h] using hi⟩, if_pos h]; rfl
    · rw [if_neg (fun e => h e.1), if_neg h]; rfl
  · rw [onLine_cpu, onCpu_cpu]
    by_cases h : c' = c
    · subst h; simp [hp, hc']
    · simp [h]

end Sys2Proof.Machine
end

