-- ==== Sys2Proof/Laws/Operands.lean ====
section
/-! SUPPORT. The bits of the operand forms: bitsets over CPUs, bytes packed from lines, words composed of bytes. -/

namespace Sys2Proof.Machine

/-! ## Bitsets over CPUs -/

theorem cpuBit_getLsbD (c k : Nat) : (cpuBit c).getLsbD k = decide (k = c ∧ c < 8) := by
  unfold cpuBit
  rw [BitVec.getLsbD_shiftLeft]
  by_cases hk : k < 8
  · by_cases hkc : k < c
    · simp [hkc, hk]; omega
    · simp only [hk, hkc, decide_true, Bool.true_and, decide_false, Bool.not_false]
      rw [BitVec.getLsbD_one]
      simp only [Nat.zero_lt_succ, decide_true, Bool.true_and, decide_eq_decide]
      omega
  · simp [hk]; omega

theorem cpuAll_getLsbD {cfg : Config} (h : cfg.numCpu ≤ 8) (k : Nat) :
    (cpuAll cfg).getLsbD k = decide (k < cfg.numCpu) := by
  unfold cpuAll
  by_cases hk : k < 8
  · rw [BitVec.getLsbD_ofNat, Nat.testBit_two_pow_sub_one]; simp [hk]
  · rw [BitVec.getLsbD_of_ge _ _ (by omega)]
    simp; omega

/-- A bitset is not empty exactly if it has a bit. -/
theorem cpuSet_ne_zero (m : CpuSet) : m ≠ 0 ↔ ∃ c < 8, m.getLsbD c = true := by
  constructor
  · intro h
    by_contra hn
    refine h (BitVec.eq_of_getLsbD_eq fun i hi => ?_)
    by_contra hb
    exact hn ⟨i, hi, by simpa using hb⟩
  · rintro ⟨c, _, hc⟩ rfl
    simp at hc

/-- Two bitsets meet exactly if they share a bit. -/
theorem cpuSet_meet (m n : CpuSet) : m &&& n ≠ 0 ↔ ∃ c < 8, m.getLsbD c = true ∧ n.getLsbD c = true := by
  rw [cpuSet_ne_zero]; simp

/-- A bitset lies within the existing CPUs exactly if no bit at or above `NUM_CPU` is set. -/
theorem within_iff {cfg : Config} (h : cfg.numCpu ≤ 8) (m : CpuSet) :
    Within cfg m ↔ ∀ k, m.getLsbD k = true → k < cfg.numCpu := by
  constructor
  · intro hw k hk
    have : (m &&& cpuAll cfg).getLsbD k = true := by rw [hw]; exact hk
    rw [BitVec.getLsbD_and, cpuAll_getLsbD h] at this
    simp at this; exact this.2
  · intro hb
    refine BitVec.eq_of_getLsbD_eq fun k _ => ?_
    rw [BitVec.getLsbD_and, cpuAll_getLsbD h]
    cases hk : m.getLsbD k
    · simp
    · simp [hb k hk]

/-! ## Bytes of lines -/

/-- Bit `k` of a packed byte. -/
theorem packByte_getLsbD (f : Nat → Bool) {k : Nat} (hk : k < 8) : (packByte f).getLsbD k = f k := by
  have key : ∀ n, n ≤ 8 → ∀ j < 8,
      ((List.range n).foldl (fun r k => r ||| (if f k then 1#8 <<< k else 0#8)) 0#8).getLsbD j
        = (decide (j < n) && f j) := by
    intro n
    induction n with
    | zero => intro _ j _; simp
    | succ n ih =>
      intro hn j hj
      rw [List.range_succ, List.foldl_append, List.foldl_cons, List.foldl_nil, BitVec.getLsbD_or,
        ih (by omega) j hj]
      have hbit : ∀ b : Bool, ((if b then 1#8 <<< n else 0#8) : Byte).getLsbD j = (decide (j = n) && b) := by
        intro b
        have := cpuBit_getLsbD n j
        unfold cpuBit at this
        cases b
        · simp
        · rw [if_pos rfl, this, Bool.and_true, decide_eq_decide]; omega
      rw [hbit]
      by_cases hjn : j = n
      · subst hjn; simp
      · by_cases hlt : j < n
        · simp [hjn, hlt, Nat.lt_succ_of_lt hlt]
        · have : ¬j < n + 1 := by omega
          simp [hjn, hlt, this]
  have := key 8 le_rfl k hk
  simpa [packByte, hk] using this

/-- A packed byte depends only on its eight bits. -/
theorem packByte_congr {f g : Nat → Bool} (h : ∀ k < 8, f k = g k) : packByte f = packByte g :=
  BitVec.eq_of_getLsbD_eq fun k hk => by rw [packByte_getLsbD f hk, packByte_getLsbD g hk, h k hk]

/-! ## Bytes of words -/

/-- Bit `j` of the composition of `n` bytes. -/
theorem compose_getLsbD (n : Nat) (hn : n ≤ 4) (byte : Nat → Byte) (j : Nat) :
    (compose n byte).getLsbD j = (decide (j < 8 * n) && (byte (j / 8)).getLsbD (j % 8)) := by
  unfold compose
  induction n with
  | zero => simp
  | succ n ih =>
    rw [List.range_succ, List.foldl_append, List.foldl_cons, List.foldl_nil, BitVec.getLsbD_or, ih (by omega),
      BitVec.getLsbD_shiftLeft, BitVec.getLsbD_setWidth]
    by_cases h1 : j < 8 * n
    · have : j < 8 * (n + 1) := by omega
      simp [h1, this]
    · by_cases h2 : j < 8 * (n + 1)
      · have h3 : j / 8 = n := by omega
        have h4 : j - 8 * n = j % 8 := by omega
        have h5 : j < 32 := by omega
        have h6 : j % 8 < 32 := by omega
        have h7 : ¬(j < 8 * n) := h1
        rw [h3, h4]
        simp [h2, h5, h6, h7]
      · have h3 : 8 ≤ j - 8 * n := by omega
        rw [BitVec.getLsbD_of_ge (byte n) _ h3]
        simp [h1, h2]

/-- A composition of `n` bytes has no bit above them. -/
theorem compose_lt (n : Nat) (hn : n ≤ 4) (byte : Nat → Byte) : (compose n byte).toNat < 256 ^ n := by
  have : 256 ^ n = 2 ^ (8 * n) := by rw [show (256 : Nat) = 2 ^ 8 from rfl, ← pow_mul]
  rw [this]
  refine Nat.lt_pow_two_of_testBit _ fun j hj => ?_
  have := compose_getLsbD n hn byte j
  rw [BitVec.getLsbD] at this
  rw [this]; simp; omega

/-- Byte `k` of a composition. -/
theorem compose_byte (n : Nat) (hn : n ≤ 4) (byte : Nat → Byte) {k : Nat} (hk : k < n) :
    (compose n byte >>> (8 * k)) &&& 0xFF = (byte k).setWidth 32 := by
  refine BitVec.eq_of_getLsbD_eq fun j hj => ?_
  have hff : (0xFF : Word).getLsbD j = decide (j < 8) := by
    rw [show (0xFF : Word) = BitVec.ofNat 32 (2 ^ 8 - 1) from rfl, BitVec.getLsbD_ofNat, Nat.testBit_two_pow_sub_one]
    simp [hj]
  rw [BitVec.getLsbD_and, BitVec.getLsbD_ushiftRight, compose_getLsbD n hn, hff, BitVec.getLsbD_setWidth]
  by_cases h8 : j < 8
  · have h1 : (8 * k + j) / 8 = k := by omega
    have h2 : (8 * k + j) % 8 = j := by omega
    have h3 : 8 * k + j < 8 * n := by omega
    rw [h1, h2]; simp [h3, h8, hj]
  · rw [BitVec.getLsbD_of_ge (byte k) _ (by omega)]; simp [h8]

/-- Byte `k` of a data word is the low byte of the word shifted down. -/
theorem byteOf_eq (v : Word) (k : Nat) : byteOf v k = (v >>> (8 * k)).setWidth 8 := by
  refine BitVec.eq_of_getLsbD_eq fun j hj => ?_
  unfold byteOf
  rw [BitVec.getLsbD_extractLsb', BitVec.getLsbD_setWidth, BitVec.getLsbD_ushiftRight]

end Sys2Proof.Machine
end

