-- ==== Sys2Proof/Laws/Issue.lean ====
section
/-! SUPPORT. What the step performs, and which rows a transaction can be. -/

namespace Sys2Proof.Machine

/-- A live step performs the first issued event. -/
theorem step_of_inbox {s : State} {e : Event} {rest : List Event} (hf : s.fatal = false) (h : s.inbox = e :: rest) :
    step s = issue e { s with inbox := rest } := by
  simp [step, hf, h]

/-- All a step can do: there is no fatal error, and nothing is issued and nothing changes, or the first event is
performed. -/
theorem step_next {s t : State} : step s = .next t ↔ s.fatal = false ∧
    ((s.inbox = [] ∧ t = s) ∨ ∃ e rest, s.inbox = e :: rest ∧ issue e { s with inbox := rest } = .next t) := by
  unfold step
  cases hf : s.fatal
  · cases hi : s.inbox <;> simp [eq_comm]
  · simp

/-- All a transaction can do. -/
theorem issueTxn_live {t : Txn} {s : State} (h : t.cpu < s.cfg.numCpu) (hf : s.fatal = false) :
    issueTxn t s = match decodeTxn s.cfg t with
      | .op i => exec i s
      | .wideRead c off n => execWideRead c off n s
      | .wideWrite c off n v => execWideWrite c off n v s
      | .undecoded d => .next (s.died d) := by
  unfold issueTxn
  rw [if_pos h]
  cases decodeTxn s.cfg t <;> simp [State.unlessFatal, hf, State.raiseFatal]

theorem readRow_caller (c : Nat) (g : Group) (k : Nat) : callerOf (readRow c g k) = some c := by cases g <;> rfl

theorem writeRow_caller {c : Nat} {g : Group} {k : Nat} {b : Byte} {i : Instr} (h : writeRow c g k b = some i) :
    callerOf i = some c := by cases g <;> simp [writeRow] at h <;> subst h <;> rfl

theorem cpuReadRow_caller {c off : Nat} {i : Instr} (h : cpuReadRow c off = some i) : callerOf i = some c := by
  unfold cpuReadRow at h; split at h <;> simp at h <;> subst h <;> rfl

theorem cpuWriteRow_caller {c off : Nat} {v : Word} {i : Instr} (h : cpuWriteRow c off v = some i) :
    callerOf i = some c := by
  unfold cpuWriteRow at h; split at h <;> simp at h <;> subst h <;> rfl

/-- The row that a transaction is belongs to the transaction's CPU. -/
theorem decodeTxn_caller {cfg : Config} {t : Txn} {i : Instr} (h : decodeTxn cfg t = .op i) :
    callerOf i = some t.cpu := by
  unfold decodeTxn at h
  split at h
  · unfold decodeDist at h
    dsimp only at h
    split at h
    · simp at h
    split at h
    · simp only [Decoded.op.injEq] at h; subst h; rfl
    split at h
    · unfold decodeByteAccess at h
      dsimp only at h
      split at h
      · rename_i hrow
        simp only [Decoded.op.injEq] at h; subst h
        split at hrow
        · simp at hrow
        · split at hrow
          · simp only [Option.some.injEq] at hrow; subst hrow; exact readRow_caller ..
          · exact writeRow_caller hrow
      · simp at h
    · split at h
      · simp at h
      · split at h <;> simp at h
  · unfold decodeCpuif at h
    dsimp only at h
    split at h
    · rename_i hrow
      simp only [Decoded.op.injEq] at h; subst h
      split at hrow
      · split at hrow
        · exact cpuReadRow_caller hrow
        · exact cpuWriteRow_caller hrow
      · simp at hrow
    · simp at h

/-- The CPU of a well-formed access exists. -/
theorem wf_caller {cfg : Config} {i : Instr} {c : Nat} (h : i.wf cfg = true) (hc : callerOf i = some c) :
    c < cfg.numCpu := by
  cases i <;> simp only [callerOf, Option.some.injEq, reduceCtorEq] at hc <;> subst hc <;>
    simp only [Instr.wf, Bool.and_eq_true, decide_eq_true_eq] at h <;> first | exact h.1 | exact h

end Sys2Proof.Machine
end

