-- ==== Sys2Proof/Laws/Chains.lean ====
section
/-! SUPPORT. The active chain: how the walk of an End-Of-Interrupt ends on it, and what a claim, a pop and a splice make of
it. -/

namespace Sys2Proof.Machine

/-! ## Chains -/

/-- A chain is determined by its start. -/
theorem isChain_unique {la : List IrqId} : ∀ {start : IrqId} {m m' : List IrqId}, IsChain la start m →
    IsChain la start m' → m = m'
  | _, [], [], _, _ => rfl
  | _, [], _ :: _, h, h' => absurd (h'.1 ▸ h) h'.2.1
  | _, _ :: _, [], h, h' => absurd (h.1 ▸ h') h.2.1
  | _, k :: _, k' :: _, h, h' => by
    have hk : k = k' := h.1.symm.trans h'.1
    subst hk
    rw [isChain_unique h.2.2 h'.2.2]

/-- No member of a chain is the sentinel. -/
theorem isChain_ne_none {la : List IrqId} : ∀ {start : IrqId} {m : List IrqId}, IsChain la start m →
    ∀ id ∈ m, id ≠ noneId
  | _, [], _, id, h => absurd h (by simp)
  | _, k :: rest, h, id, hid => by
    rcases List.mem_cons.1 hid with rfl | hid
    · exact h.2.1
    · exact isChain_ne_none h.2.2 id hid

/-- The chain from the start is the chain from any member after the members before it. -/
theorem isChain_append {la : List IrqId} : ∀ {m₁ : List IrqId} {start k : IrqId} {m₂ : List IrqId},
    IsChain la start (m₁ ++ k :: m₂) → IsChain la k (k :: m₂)
  | [], _, _, _, h => ⟨rfl, h.2⟩
  | _ :: _, _, _, _, h => isChain_append h.2.2

/-- Writing an entry that is no member's keeps the chain. -/
theorem isChain_set {la : List IrqId} {i : Nat} {v : IrqId} : ∀ {start : IrqId} {m : List IrqId}, IsChain la start m →
    (∀ id ∈ m, id.toNat ≠ i) → IsChain (la.set i v) start m
  | _, [], h, _ => h
  | _, k :: rest, h, hn => by
    refine ⟨h.1, h.2.1, ?_⟩
    have hk : i ≠ k.toNat := fun e => hn k (by simp) e.symm
    have : (la.set i v).getD k.toNat noneId = la.getD k.toNat noneId := by
      simp [List.getD_eq_getElem?_getD, List.getElem?_set_ne hk]
    rw [this]
    exact isChain_set h.2.2 fun id hid => hn id (List.mem_cons_of_mem _ hid)

/-- Linking a member to the one after the next removes the next from the chain. -/
theorem isChain_splice {la : List IrqId} {pred id : IrqId} {after : List IrqId} (hlen : pred.toNat < la.length) :
    ∀ {before : List IrqId} {start : IrqId}, IsChain la start (before ++ pred :: id :: after) →
      (before ++ pred :: id :: after).Nodup →
      IsChain (la.set pred.toNat (la.getD id.toNat noneId)) start (before ++ pred :: after)
  | [], start, h, hnd => by
    refine ⟨h.1, h.2.1, ?_⟩
    have hget : (la.set pred.toNat (la.getD id.toNat noneId)).getD pred.toNat noneId = la.getD id.toNat noneId := by
      simp [List.getD_eq_getElem?_getD, hlen]
    rw [hget]
    have hchain : IsChain la (la.getD id.toNat noneId) after := h.2.2.2.2
    refine isChain_set hchain fun k hk e => ?_
    have : k = pred := BitVec.eq_of_toNat_eq e
    subst this
    simp only [List.nil_append, List.nodup_cons, List.mem_cons] at hnd
    exact hnd.1 (.inr hk)
  | b :: before, start, h, hnd => by
    refine ⟨h.1, h.2.1, ?_⟩
    have hb : pred.toNat ≠ b.toNat := fun e => by
      have : pred = b := BitVec.eq_of_toNat_eq e
      subst this
      exact (List.nodup_cons.1 hnd).1 (List.mem_append.2 (.inr (by simp)))
    have : (la.set pred.toNat (la.getD id.toNat noneId)).getD b.toNat noneId = la.getD b.toNat noneId := by
      simp [List.getD_eq_getElem?_getD, List.getElem?_set_ne hb]
    rw [this]
    exact isChain_splice hlen h.2.2 (List.nodup_cons.1 hnd).2

/-- A good chain has at most one member for each line. -/
theorem goodChain_length {cfg : Config} {p : Cpu} {m : List IrqId} (h : IsGoodChain cfg p m) :
    m.length ≤ cfg.numIrq := by
  have hmap : (m.map BitVec.toNat).Nodup := h.2.1.map fun a b e => BitVec.eq_of_toNat_eq e
  have hsub : m.map BitVec.toNat ⊆ List.range cfg.numIrq := fun x hx => by
    obtain ⟨id, hid, rfl⟩ := List.mem_map.1 hx
    exact List.mem_range.2 (h.2.2 id hid)
  have := (hmap.subperm hsub).length_le
  simpa using this

/-! ## The walk (rule R249) -/

/-- The walk over a chain that holds the id after another member finds that member. -/
theorem walkChain_found {la : List IrqId} {pred id : IrqId} {after : List IrqId} :
    ∀ {before : List IrqId} {start : IrqId} {fuel : Nat}, IsChain la start (before ++ pred :: id :: after) →
      (∀ k ∈ before ++ pred :: id :: after, k.toNat < la.length) → (before ++ pred :: id :: after).Nodup →
      before.length < fuel → walkChain la id fuel start = .found pred
  | _, _, 0, _, _, _, hf => absurd hf (by omega)
  | [], start, fuel + 1, h, hl, _, _ => by
    have hs : start = pred := h.1
    have hlt : pred.toNat < la.length := hl pred (by simp)
    have hnext : la.getD pred.toNat noneId = id := h.2.2.1
    have hget : la[pred.toNat]? = some id := by
      rw [List.getElem?_eq_getElem hlt]
      rw [List.getD_eq_getElem?_getD, List.getElem?_eq_getElem hlt] at hnext
      simpa using hnext
    have hne : id ≠ noneId := h.2.2.2.1
    subst hs
    simp [walkChain, hget, hne]
  | b :: before, start, fuel + 1, h, hl, hnd, hf => by
    have hs : start = b := h.1
    subst hs
    have hlt : start.toNat < la.length := hl start (by simp)
    have hget : la[start.toNat]? = some (la.getD start.toNat noneId) := by
      rw [List.getD_eq_getElem?_getD, List.getElem?_eq_getElem hlt]; rfl
    have hrest : IsChain la (la.getD start.toNat noneId) (before ++ pred :: id :: after) := h.2.2
    have hmem : la.getD start.toNat noneId ∈ before ++ [pred] := by
      generalize la.getD start.toNat noneId = x at hrest
      cases before with
      | nil => have : x = pred := hrest.1
               simp [this]
      | cons b' rest => have : x = b' := hrest.1
                        simp [this]
    have hnd' := (List.nodup_cons.1 hnd).2
    have hne : la.getD start.toNat noneId ≠ noneId :=
      isChain_ne_none hrest _ (by simp only [List.mem_append, List.mem_cons, List.not_mem_nil, or_false] at hmem ⊢; tauto)
    have hid : la.getD start.toNat noneId ≠ id := fun e => by
      rw [e] at hmem
      have hmem' : id ∈ before ∨ id = pred := by simpa using hmem
      have hnd'' : (before ++ pred :: id :: after).Nodup := hnd'
      rw [List.nodup_append] at hnd''
      rcases hmem' with hm | hm
      · exact hnd''.2.2 id hm id (by simp) rfl
      · have := hnd''.2.1; rw [hm] at this; simp at this
    simp only [walkChain, hget, if_neg hne, if_neg hid]
    exact walkChain_found hrest (fun k hk => hl k (List.mem_cons_of_mem _ hk)) hnd'
      (by simp only [List.length_cons] at hf; omega)

/-- The walk over a chain that does not hold the id ends. -/
theorem walkChain_ended {la : List IrqId} {id : IrqId} :
    ∀ {m : List IrqId} {start : IrqId} {fuel : Nat}, IsChain la start m → m ≠ [] →
      (∀ k ∈ m, k.toNat < la.length) → id ∉ m → id ≠ noneId → m.length ≤ fuel → walkChain la id fuel start = .ended
  | [], _, _, _, h, _, _, _, _ => absurd rfl h
  | _ :: _, _, 0, _, _, _, _, _, hf => absurd hf (by simp)
  | k :: rest, start, fuel + 1, h, _, hl, hid, hne, hf => by
    have hs : start = k := h.1
    subst hs
    have hlt : start.toNat < la.length := hl start (by simp)
    have hget : la[start.toNat]? = some (la.getD start.toNat noneId) := by
      rw [List.getD_eq_getElem?_getD, List.getElem?_eq_getElem hlt]; rfl
    have hrest := h.2.2
    simp only [walkChain, hget]
    cases rest with
    | nil => rw [if_pos (show la.getD start.toNat noneId = noneId from hrest)]
    | cons k' rest' =>
      have hk' : la.getD start.toNat noneId = k' := hrest.1
      rw [hk'] at hrest ⊢
      rw [if_neg hrest.2.1, if_neg (fun e => hid (by simp [e]))]
      exact walkChain_ended hrest (by simp) (fun j hj => hl j (List.mem_cons_of_mem _ hj))
        (fun hm => hid (List.mem_cons_of_mem _ hm)) hne (by simp only [List.length_cons] at hf ⊢; omega)

/-- The walk over a chain that never ends and never reaches the id does not end. -/
theorem walkChain_diverges {la : List IrqId} {id : IrqId} (hla : la.length ≤ 1020) : ∀ {fuel : Nat} {start : IrqId},
    (∀ n, (follow la n start).toNat < la.length ∧ (follow la n start).toNat ≠ id.toNat) →
      walkChain la id fuel start = .diverges
  | 0, _, _ => rfl
  | fuel + 1, start, h => by
    have hlt : start.toNat < la.length := (h 0).1
    have hget : la[start.toNat]? = some (la.getD start.toNat noneId) := by
      rw [List.getD_eq_getElem?_getD, List.getElem?_eq_getElem hlt]; rfl
    have h1 : (la.getD start.toNat noneId).toNat < la.length ∧ (la.getD start.toNat noneId).toNat ≠ id.toNat := h 1
    have hne : la.getD start.toNat noneId ≠ noneId := fun e => by
      rw [e] at h1; have := h1.1; simp at this; omega
    have hid : la.getD start.toNat noneId ≠ id := fun e => h1.2 (by rw [e])
    simp only [walkChain, hget, if_neg hne, if_neg hid]
    exact walkChain_diverges hla fun n => h (n + 1)

/-- The walk meets an id that names no line only where one is stored. -/
theorem walkChain_ne_beyond {la : List IrqId} {id : IrqId} (hla : ∀ k ∈ la, k = noneId ∨ k.toNat < la.length) :
    ∀ {fuel : Nat} {start : IrqId}, start.toNat < la.length → walkChain la id fuel start ≠ .beyond
  | 0, _, _ => by simp [walkChain]
  | fuel + 1, start, h => by
    simp only [walkChain, List.getElem?_eq_getElem h]
    split
    · simp
    · rename_i hne
      split
      · simp
      · exact walkChain_ne_beyond hla ((hla _ (List.getElem_mem h)).resolve_left hne)

/-- What the walk finds is a line whose successor is the id. -/
theorem walkChain_found_lt {la : List IrqId} {id pred : IrqId} :
    ∀ {fuel : Nat} {start : IrqId}, walkChain la id fuel start = .found pred →
      la[pred.toNat]? = some id
  | 0, _, h => by simp [walkChain] at h
  | fuel + 1, start, h => by
    simp only [walkChain] at h
    split at h
    · simp at h
    · rename_i nxt hget
      split at h
      · simp at h
      · split at h
        · rename_i e
          simp only [Walk.found.injEq] at h
          subst h; rw [← e]; exact hget
        · exact walkChain_found_lt h

end Sys2Proof.Machine
end

