-- ==== Sys2Proof/Laws/Retire.lean ====
section
/-! SUPPORT. What an End-Of-Interrupt answers: one equation per case of rules R249 to R252. -/

namespace Sys2Proof.Machine

/-- Rule R250 as a proposition. -/
theorem comesBack_iff (s : State) (c i : Nat) : s.comesBack c i = true ↔
    (s.line i).trigger = .level ∧ (s.line i).enabled.getLsbD c = true ∧ (s.line i).level = true ∧
      (s.line i).target.getLsbD c = true := by
  simp [State.comesBack, and_assoc]

/-- The state after the level re-pend of rule R250, before the chain is touched. -/
abbrev State.repended (s : State) (c i : Nat) : State := if s.comesBack c i then s.pendFor c i else s

theorem pendFor_eq (s : State) (c i : Nat) :
    s.pendFor c i = s.onLine i fun l => { l with pending := l.pending ||| cpuBit c } := rfl

theorem deactivate_eq (s : State) (c i : Nat) :
    s.deactivate c i = s.onLine i fun l => { l with active := l.active &&& ~~~(cpuBit c) } := rfl

@[simp] theorem repended_cfg (s : State) (c i : Nat) : (s.repended c i).cfg = s.cfg := by
  unfold State.repended; split <;> rfl

@[simp] theorem repended_cpus (s : State) (c i : Nat) : (s.repended c i).cpus = s.cpus := by
  unfold State.repended; split <;> rfl

@[simp] theorem repended_cpu (s : State) (c i k : Nat) : (s.repended c i).cpu k = s.cpu k := by
  unfold State.repended; split <;> rfl

@[simp] theorem repended_prio (s : State) (c i j k : Nat) : (s.repended c i).prio j k = s.prio j k := by
  unfold State.repended; split <;> rfl

/-- The re-pend as a change of one line. -/
theorem repended_eq (s : State) (c i : Nat) :
    s.repended c i = s.onLine i fun l => if s.comesBack c i then { l with pending := l.pending ||| cpuBit c } else l := by
  unfold State.repended
  split
  · simp [pendFor_eq]
  · have : s.lines.modify i (fun l => l) = s.lines :=
      List.ext_getElem? fun j => by rw [List.getElem?_modify]; split <;> simp
    simp [State.onLine, this]

/-- Changing a line twice. -/
theorem onLine_onLine (s : State) (i : Nat) (f g : Line → Line) :
    (s.onLine i f).onLine i g = s.onLine i fun l => g (f l) := by
  simp only [State.onLine]
  congr 1
  apply List.ext_getElem? fun j => ?_
  simp only [List.getElem?_modify]
  split <;> simp [Function.comp_def]

/-- An End-Of-Interrupt whose id names no line, or with nothing running, is ignored. -/
theorem retire_ignored {s : State} {c : Nat} {id : IrqId}
    (h : s.cfg.numIrq ≤ id.toNat ∨ (s.cpu c).runId = noneId) : s.retire c id = s.answer .none := by
  unfold State.retire
  rcases h with h | h
  · simp [h]
  · simp [h]

/-- An End-Of-Interrupt that is not ignored. -/
theorem retire_eq {s : State} {c : Nat} {id : IrqId} (hid : id.toNat < s.cfg.numIrq)
    (hrun : (s.cpu c).runId ≠ noneId) : s.retire c id =
      if id = (s.cpu c).runId then (s.repended c id.toNat).pop c id.toNat
      else match walkChain (s.cpu c).lastActive id s.cfg.numIrq (s.cpu c).runId with
        | .found pred =>
          if s.comesBack c id.toNat then ((s.pendFor c id.toNat).splice c id.toNat pred).update.answer .none
          else (s.splice c id.toNat pred).answer .none
        | .ended =>
          if s.comesBack c id.toNat then (s.pendFor c id.toNat).update.answer .none else s.answer .none
        | .beyond => .fault .idBeyondTable
        | .diverges => .fault .eoiWalkDiverges := by
  unfold State.retire
  rw [if_neg (by omega), if_neg hrun]
  dsimp only
  unfold State.repended
  cases s.comesBack c id.toNat <;> rfl

/-- The table that popping line `i` back to `prev` leaves, before its `Update()` (rule R251). -/
def State.popped (s : State) (c i : Nat) (prev : IrqId) : State :=
  (s.deactivate c i).onCpu c fun p =>
    { p with runId := prev, runPrio := if prev = noneId then nonePrio else (s.prio prev.toNat c).setWidth 9 }

/-- A pop back to an id that names a line, or to nothing. -/
theorem pop_eq {s : State} {c i : Nat} {prev : IrqId} (hp : (s.cpu c).lastActive[i]? = some prev)
    (hok : IdOk s.cfg prev) : s.pop c i = (s.popped c i prev).update.answer .none := by
  unfold State.pop Cpu.previous State.popped
  rw [hp]
  dsimp only
  by_cases h : prev = noneId
  · simp only [h, if_true]
  · have hlt := hok.resolve_left h
    simp only [h, if_false, hlt, if_true]

/-- All a pop can do. -/
theorem pop_next {s t : State} {c i : Nat} (h : s.pop c i = .next t) :
    ∃ prev, (s.cpu c).lastActive[i]? = some prev ∧ IdOk s.cfg prev ∧
      t = { (s.popped c i prev).update with response := .none } := by
  have h0 := h
  unfold State.pop Cpu.previous at h
  cases hp : (s.cpu c).lastActive[i]? with
  | none => rw [hp] at h; simp at h
  | some prev =>
    have hok : IdOk s.cfg prev := by
      by_cases e : prev = noneId
      · exact .inl e
      · rw [hp] at h; dsimp only at h
        rw [if_neg e] at h
        by_cases hl : prev.toNat < s.cfg.numIrq
        · exact .inr hl
        · rw [if_neg hl] at h; simp at h
    rw [pop_eq hp hok, answer_next] at h0
    exact ⟨prev, rfl, hok, h0⟩

/-- All an End-Of-Interrupt can do when it answers a next state. -/
theorem retire_next {s t : State} {c : Nat} {id : IrqId} (h : s.retire c id = .next t) :
    t = { s with response := .none } ∨
    (id.toNat < s.cfg.numIrq ∧ (s.cpu c).runId ≠ noneId ∧
      ((id = (s.cpu c).runId ∧ ∃ prev, (s.cpu c).lastActive[id.toNat]? = some prev ∧ IdOk s.cfg prev ∧
          t = { ((s.repended c id.toNat).popped c id.toNat prev).update with response := .none }) ∨
       (id ≠ (s.cpu c).runId ∧ ∃ pred,
          walkChain (s.cpu c).lastActive id s.cfg.numIrq (s.cpu c).runId = .found pred ∧
          (s.comesBack c id.toNat = true ∧
              t = { ((s.pendFor c id.toNat).splice c id.toNat pred).update with response := .none } ∨
            s.comesBack c id.toNat = false ∧ t = { s.splice c id.toNat pred with response := .none })) ∨
       (id ≠ (s.cpu c).runId ∧
          walkChain (s.cpu c).lastActive id s.cfg.numIrq (s.cpu c).runId = .ended ∧
          s.comesBack c id.toNat = true ∧
          t = { (s.pendFor c id.toNat).update with response := .none }))) := by
  by_cases hid : id.toNat < s.cfg.numIrq
  swap
  · rw [retire_ignored (.inl (by omega)), answer_next] at h; exact .inl h
  by_cases hrun : (s.cpu c).runId = noneId
  · rw [retire_ignored (.inr hrun), answer_next] at h; exact .inl h
  rw [retire_eq hid hrun] at h
  by_cases he : id = (s.cpu c).runId
  · rw [if_pos he] at h
    obtain ⟨prev, h1, h2, h3⟩ := pop_next h
    rw [repended_cpu] at h1
    rw [repended_cfg] at h2
    exact .inr ⟨hid, hrun, .inl ⟨he, prev, h1, h2, h3⟩⟩
  · rw [if_neg he] at h
    cases hw : walkChain (s.cpu c).lastActive id s.cfg.numIrq (s.cpu c).runId with
    | found pred =>
      rw [hw] at h; dsimp only at h
      refine .inr ⟨hid, hrun, .inr (.inl ⟨he, pred, rfl, ?_⟩)⟩
      cases hb : s.comesBack c id.toNat
      · rw [hb] at h; exact .inr ⟨rfl, by simpa using h⟩
      · rw [hb] at h; exact .inl ⟨rfl, by simpa using h⟩
    | ended =>
      rw [hw] at h; dsimp only at h
      cases hb : s.comesBack c id.toNat
      · rw [hb] at h; exact .inl (by simpa using h)
      · rw [hb] at h; exact .inr ⟨hid, hrun, .inr (.inr ⟨he, rfl, rfl, by simpa using h⟩)⟩
    | beyond => rw [hw] at h; simp at h
    | diverges => rw [hw] at h; simp at h

end Sys2Proof.Machine
end

