-- ==== Sys2Proof/Laws/Effects.lean ====
section
/-! SUPPORT. All that an operation can do to the state, said once: it changes the table in one of the listed ways and
arbitrates, or it changes nothing that arbitration looks at, or it is fatal. Proofs over every operation go through
`exec_next` and `issue_next` and unfold no meaning. -/

namespace Sys2Proof.Machine

/-- What one byte of a distributor write by CPU `c` can make of the table. -/
inductive ByteWrite (c : Nat) (s : State) : State → Prop
  | nothing : ByteWrite c s s
  | ctrl (k : Nat) (b : Byte) : ByteWrite c s (s.writeCtrl k b)
  | setEnable (j : Nat) (b : Byte) : ByteWrite c s (s.writeSetEnable c j b)
  | clrEnable (j : Nat) (b : Byte) : ByteWrite c s (s.writeClrEnable c j b)
  | setPending (j : Nat) (b : Byte) : ByteWrite c s (s.writeSetPending c j b)
  | clrPending (j : Nat) (b : Byte) : ByteWrite c s (s.writeClrPending j b)
  | priority (i : Nat) (b : Byte) : ByteWrite c s (s.setPrio c i b)
  | target (i : Nat) (b : Byte) : ByteWrite c s (s.writeTarget c i b)
  | config (j : Nat) (b : Byte) : ByteWrite c s (s.writeConfig j b)

/-- What the bytes of a distributor write by CPU `c` can make of the table. -/
inductive ByteWrites (c : Nat) (s : State) : State → Prop
  | refl : ByteWrites c s s
  | step {t u : State} : ByteWrites c s t → ByteWrite c t u → ByteWrites c s u

/-- What an operation can make of the table before its `Update()`. -/
inductive TableWrite (s : State) : State → Prop
  | reset : TableWrite s s.resetTable
  | rise (n : Nat) : TableWrite s (s.onLine (n + numPrivate) Line.rise)
  | fall (n : Nat) : TableWrite s (s.onLine (n + numPrivate) Line.fall)
  | bytes {c : Nat} {u : State} : c < s.cfg.numCpu → ByteWrites c s u → TableWrite s u
  | sgi (c : Nat) (v : Word) : c < s.cfg.numCpu → TableWrite s (s.sendSgi c v)
  | cpuCtrl (c : Nat) (b : Bool) : TableWrite s (s.onCpu c fun p => { p with enabled := b })
  | primask (c : Nat) (b : Byte) : TableWrite s (s.onCpu c fun p => { p with prioMask := b })
  | popped (c : Nat) (id prev : IrqId) : c < s.cfg.numCpu → id.toNat < s.cfg.numIrq → (s.cpu c).runId = id →
      id ≠ noneId → (s.cpu c).lastActive[id.toNat]? = some prev → IdOk s.cfg prev →
      TableWrite s ((s.repended c id.toNat).popped c id.toNat prev)
  | spliced (c : Nat) (id pred : IrqId) : c < s.cfg.numCpu → id.toNat < s.cfg.numIrq → (s.cpu c).runId ≠ id →
      walkChain (s.cpu c).lastActive id s.cfg.numIrq (s.cpu c).runId = .found pred →
      TableWrite s ((s.pendFor c id.toNat).splice c id.toNat pred)
  | repended (c i : Nat) : c < s.cfg.numCpu → TableWrite s (s.pendFor c i)

/-- What an operation can change without arbitrating. -/
inductive QuietWrite (s : State) : State → Prop
  | nothing : QuietWrite s s
  | binPoint (c : Nat) (v : Word) : QuietWrite s (s.onCpu c fun p => { p with binPoint := v })
  | spliced (c : Nat) (id pred : IrqId) : c < s.cfg.numCpu → id.toNat < s.cfg.numIrq → (s.cpu c).runId ≠ id →
      walkChain (s.cpu c).lastActive id s.cfg.numIrq (s.cpu c).runId = .found pred →
      QuietWrite s (s.splice c id.toNat pred)
  | died (d : Diag) : QuietWrite s (s.died d)

/-- The state after an operation, from the state before it; `ack` says for which CPUs it can claim a line, and `load` which
snapshots it can load. -/
def Effect (ack : Nat → Prop) (load : Snapshot → Prop) (s t : State) : Prop :=
  (∃ u r, TableWrite s u ∧ t = { u.update with response := r }) ∨
    (∃ u r, QuietWrite s u ∧ t = { u with response := r }) ∨
    (∃ c id, ack c ∧ c < s.cfg.numCpu ∧ (s.cpu c).best = id ∧ id ≠ noneId ∧ id.toNat < s.cfg.numIrq ∧
      (s.prio id.toNat c).toNat < (s.cpu c).runPrio.toNat ∧
      t = { s.claim c id with response := .data (idWord id) }) ∨
    ∃ snap, load snap ∧ snap.fits s.cfg = true ∧ t = { (s.loadFields snap).update with response := .none }

variable {ack : Nat → Prop} {load : Snapshot → Prop}

theorem effect_mono {ack' : Nat → Prop} {load' : Snapshot → Prop} {s t : State} (h : Effect ack load s t)
    (ha : ∀ c, ack c → ack' c) (hl : ∀ snap, load snap → load' snap) :
    Effect ack' load' s t := by
  rcases h with h | h | ⟨c, id, h1, h2⟩ | ⟨snap, h1, h2⟩
  · exact .inl h
  · exact .inr (.inl h)
  · exact .inr (.inr (.inl ⟨c, id, ha c h1, h2⟩))
  · exact .inr (.inr (.inr ⟨snap, hl snap h1, h2⟩))

theorem effect_answer {s t : State} {r : Response} (h : s.answer r = .next t) : Effect ack load s t :=
  .inr (.inl ⟨s, r, .nothing, by simpa using h⟩)

theorem effect_died (s : State) (d : Diag) : Effect ack load s (s.died d) := .inr (.inl ⟨_, .none, .died d, rfl⟩)

theorem effect_read {s t : State} {g : Group} {c k : Nat} {v : Byte} (h : s.readByteOf g c k v = .next t) :
    Effect ack load s t := by
  rcases readByteOf_next.1 h with ⟨_, _, ⟨_, rfl⟩ | ⟨_, rfl⟩⟩
  · exact .inr (.inl ⟨s, _, .nothing, rfl⟩)
  · exact effect_died s _

theorem effect_write {s t u : State} {g : Group} {c k : Nat} (hu : ByteWrite c s u)
    (h : s.writeByteOf g c k u = .next t) : Effect ack load s t := by
  rcases writeByteOf_next.1 h with ⟨_, hc, ⟨_, rfl⟩ | ⟨_, rfl⟩⟩
  · exact .inl ⟨u, _, .bytes hc (.step .refl hu), rfl⟩
  · exact effect_died s _

theorem effect_table {s t u : State} {c : Nat} {r : Response} (hu : c < s.cfg.numCpu → TableWrite s u)
    (h : s.asCpu c (u.update.answer r) = .next t) : Effect ack load s t := by
  obtain ⟨_, hc, h⟩ := asCpu_next.1 h
  exact .inl ⟨u, r, hu hc, by simpa using h⟩

theorem effect_quiet {s t u : State} {c : Nat} {r : Response} (hu : QuietWrite s u)
    (h : s.asCpu c (u.answer r) = .next t) : Effect ack load s t := by
  obtain ⟨_, _, h⟩ := asCpu_next.1 h
  exact .inr (.inl ⟨u, r, hu, by simpa using h⟩)

/-- All an acknowledge can do when it answers a next state. -/
theorem ack_next {s t : State} {c : Nat} (h : execCpuAckR c s = .next t) :
    t = { s with response := .data (idWord noneId) } ∨
    ((s.cpu c).best ≠ noneId ∧ (s.cpu c).best.toNat < s.cfg.numIrq ∧
      (s.prio (s.cpu c).best.toNat c).toNat < (s.cpu c).runPrio.toNat ∧
      t = { s.claim c (s.cpu c).best with response := .data (idWord (s.cpu c).best) }) := by
  unfold execCpuAckR at h
  rw [asCpu_next] at h
  obtain ⟨hf, hc, h⟩ := h
  dsimp only at h
  split at h
  · left; simpa using h
  · split at h
    · simp at h
    · split at h
      · left; simpa using h
      · right; rename_i h1 h2 h3
        exact ⟨h1, by omega, by omega, by simpa using h⟩

theorem effect_ack {s t : State} {c : Nat} (hack : ack c) (h : execCpuAckR c s = .next t) :
    Effect ack load s t := by
  have hc : c < s.cfg.numCpu := by
    unfold execCpuAckR at h; rw [asCpu_next] at h; exact h.2.1
  rcases ack_next h with rfl | ⟨h1, h2, h3, rfl⟩
  · exact .inr (.inl ⟨s, _, .nothing, rfl⟩)
  · exact .inr (.inr (.inl ⟨c, _, hack, hc, rfl, h1, h2, h3, rfl⟩))

theorem effect_retire {s t : State} {c : Nat} {id : IrqId} (hc : c < s.cfg.numCpu) (h : s.retire c id = .next t) :
    Effect ack load s t := by
  rcases retire_next h with rfl | ⟨hid, hrun, ⟨he, prev, h1, h2, rfl⟩ | ⟨he, pred, hw, ⟨_, rfl⟩ | ⟨_, rfl⟩⟩ | ⟨_, _, _, rfl⟩⟩
  · exact .inr (.inl ⟨s, _, .nothing, rfl⟩)
  · exact .inl ⟨_, _, .popped c id prev hc hid he.symm (he ▸ hrun) h1 h2, rfl⟩
  · exact .inl ⟨_, _, .spliced c id pred hc hid (fun e => he e.symm) hw, rfl⟩
  · exact .inr (.inl ⟨_, _, .spliced c id pred hc hid (fun e => he e.symm) hw, rfl⟩)
  · exact .inl ⟨_, _, .repended c id.toNat hc, rfl⟩

/-- All an operation can do when it answers a next state. -/
theorem exec_next {s t : State} {i : Instr} (h : exec i s = .next t) :
    Effect (fun c => i = .cpuAckR c) (fun snap => i = .snapshotLoad snap) s t := by
  cases i with
  | reset =>
    obtain ⟨_, h⟩ := unlessFatal_next.1 h
    exact .inl ⟨_, _, .reset, by simpa using h⟩
  | setLine n v =>
    simp only [exec, execSetLine] at h
    obtain ⟨_, h⟩ := unlessFatal_next.1 h
    split at h
    · split at h
      · split at h
        · exact effect_answer h
        · rw [answer_next] at h
          by_cases hv : v = 1
          · simp only [hv, decide_true, if_true] at h; exact .inl ⟨_, _, .rise n, h⟩
          · simp only [hv, decide_false, Bool.false_eq_true, if_false] at h; exact .inl ⟨_, _, .fall n, h⟩
      · simp at h
    · simp at h
  | distCtrlR => exact effect_read h
  | distCtrlW c k b => exact effect_write (.ctrl k b) h
  | distSetEnableR => exact effect_read h
  | distSetEnableW c j b => exact effect_write (.setEnable j b) h
  | distClrEnableR => exact effect_read h
  | distClrEnableW c j b => exact effect_write (.clrEnable j b) h
  | distSetPendingR => exact effect_read h
  | distSetPendingW c j b => exact effect_write (.setPending j b) h
  | distClrPendingR => exact effect_read h
  | distClrPendingW c j b => exact effect_write (.clrPending j b) h
  | distActiveR => exact effect_read h
  | distActiveW => exact effect_write .nothing h
  | distPriorityR => exact effect_read h
  | distPriorityW c i b => exact effect_write (.priority i b) h
  | distTargetR => exact effect_read h
  | distTargetW c i b => exact effect_write (.target i b) h
  | distConfigR => exact effect_read h
  | distConfigW c j b => exact effect_write (.config j b) h
  | distSgiW c v => exact effect_table (fun hc => .sgi c v hc) h
  | distSgiR c k =>
    obtain ⟨_, _, h⟩ := asCpu_next.1 h
    rw [raiseFatal_next] at h; subst h; exact effect_died s _
  | distIdR => exact effect_read h
  | distIdW => exact effect_write .nothing h
  | cpuCtrlR => exact effect_quiet .nothing h
  | cpuCtrlW c v => exact effect_table (fun _ => .cpuCtrl c _) h
  | cpuPrimaskR => exact effect_quiet .nothing h
  | cpuPrimaskW c v => exact effect_table (fun _ => .primask c _) h
  | cpuBinpointR => exact effect_quiet .nothing h
  | cpuBinpointW c v => exact effect_quiet (.binPoint c v) h
  | cpuAckR => exact effect_ack rfl h
  | cpuAckW => exact effect_quiet .nothing h
  | cpuEoiR c =>
    obtain ⟨_, _, h⟩ := asCpu_next.1 h
    rw [raiseFatal_next] at h; subst h; exact effect_died s _
  | cpuEoiW c v =>
    obtain ⟨_, hc, h⟩ := asCpu_next.1 h
    exact effect_retire hc h
  | cpuRunpriR => exact effect_quiet .nothing h
  | cpuRunpriW => exact effect_quiet .nothing h
  | cpuHipendR => exact effect_quiet .nothing h
  | cpuHipendW => exact effect_quiet .nothing h
  | snapshotSave =>
    obtain ⟨_, h⟩ := unlessFatal_next.1 h
    exact effect_answer h
  | snapshotLoad snap =>
    obtain ⟨_, h⟩ := unlessFatal_next.1 h
    split at h
    · rw [raiseFatal_next] at h; subst h; exact effect_died s _
    · split at h
      · rename_i hfit; exact .inr (.inr (.inr ⟨snap, rfl, hfit, by simpa using h⟩))
      · simp at h

/-- One byte written is one of the listed writes. -/
theorem distWriteByte_write (s : State) (c off : Nat) (b : Byte) : ByteWrite c s (s.distWriteByte c off b) := by
  unfold State.distWriteByte
  cases s.cfg.extentAt off with
  | none => exact .nothing
  | some x =>
    dsimp only
    cases x.group <;> first | exact .nothing | constructor

/-- The bytes written one after the other. -/
theorem distWriteBytes_writes (s : State) (c off n : Nat) (v : Word) :
    ByteWrites c s (s.distWriteBytes c off n v) := by
  unfold State.distWriteBytes
  induction n with
  | zero => exact .refl
  | succ n ih =>
    rw [List.range_succ, List.foldl_append]
    exact .step ih (distWriteByte_write ..)

/-- All a transaction can do when it answers a next state. -/
theorem issueTxn_next {s t : State} {txn : Txn} (h : issueTxn txn s = .next t) :
    Effect (fun c => c = txn.cpu) (fun _ => False) s t := by
  unfold issueTxn at h
  split at h
  · split at h
    · rename_i i hi
      have hi' := decodeTxn_caller hi
      refine effect_mono (exec_next h) (fun c e => ?_) (fun snap e => ?_)
      · rw [e] at hi'; simpa [callerOf] using hi'
      · rw [e] at hi'; simp [callerOf] at hi'
    · exact effect_quiet .nothing h
    · exact effect_table (fun hc => .bytes hc (distWriteBytes_writes ..)) h
    · obtain ⟨_, h⟩ := unlessFatal_next.1 h
      rw [raiseFatal_next] at h; subst h; exact effect_died s _
  · obtain ⟨_, h⟩ := unlessFatal_next.1 h; simp at h

/-- All an event can do when it answers a next state. -/
theorem issue_next {s t : State} {e : Event} (h : issue e s = .next t) :
    Effect (fun c => ∃ txn, e = .bus txn ∧ c = txn.cpu) (fun snap => e = .load snap) s t := by
  cases e with
  | bus txn => exact effect_mono (issueTxn_next h) (fun _ e => ⟨txn, rfl, e⟩) fun _ => False.elim
  | line n v => exact effect_mono (exec_next (i := .setLine n v) h) (by simp) (by simp)
  | reset => exact effect_mono (exec_next (i := .reset) h) (by simp) (by simp)
  | save => exact effect_mono (exec_next (i := .snapshotSave) h) (by simp) (by simp)
  | load snap => exact effect_mono (exec_next (i := .snapshotLoad snap) h) (by simp) (by simp)

/-! ## What no write changes -/

theorem byteWrite_cfg {c : Nat} {s u : State} (h : ByteWrite c s u) : u.cfg = s.cfg ∧ u.inbox = s.inbox ∧
    u.fatal = s.fatal := by
  cases h <;> first
    | exact ⟨rfl, rfl, rfl⟩
    | (unfold State.writeCtrl; split <;> exact ⟨rfl, rfl, rfl⟩)
    | exact ⟨setPrio_cfg .., setPrio_inbox .., setPrio_fatal ..⟩

theorem byteWrites_cfg {c : Nat} {s u : State} (h : ByteWrites c s u) : u.cfg = s.cfg ∧ u.inbox = s.inbox ∧
    u.fatal = s.fatal := by
  induction h with
  | refl => exact ⟨rfl, rfl, rfl⟩
  | step _ hb ih =>
    have := byteWrite_cfg hb
    exact ⟨this.1.trans ih.1, this.2.1.trans ih.2.1, this.2.2.trans ih.2.2⟩

theorem sendSgi_cfg (s : State) (c : Nat) (v : Word) : (s.sendSgi c v).cfg = s.cfg ∧ (s.sendSgi c v).inbox = s.inbox ∧
    (s.sendSgi c v).fatal = s.fatal := by
  unfold State.sendSgi; split <;> exact ⟨rfl, rfl, rfl⟩

theorem repended_fields (s : State) (c i : Nat) : (s.repended c i).inbox = s.inbox ∧
    (s.repended c i).fatal = s.fatal := by
  unfold State.repended; split <;> exact ⟨rfl, rfl⟩

/-- No operation changes the parameters or the events that wait. -/
theorem tableWrite_cfg {s u : State} (h : TableWrite s u) : u.cfg = s.cfg ∧ u.inbox = s.inbox := by
  cases h with
  | bytes _ hb => exact ⟨(byteWrites_cfg hb).1, (byteWrites_cfg hb).2.1⟩
  | sgi c v => exact ⟨(sendSgi_cfg s c v).1, (sendSgi_cfg s c v).2.1⟩
  | popped c id prev => exact ⟨repended_cfg .., (repended_fields ..).1⟩
  | _ => exact ⟨rfl, rfl⟩

theorem effect_cfg {s t : State} (h : Effect ack load s t) : t.cfg = s.cfg ∧ t.inbox = s.inbox := by
  rcases h with ⟨u, r, hu, rfl⟩ | ⟨u, r, hu, rfl⟩ | ⟨c, id, _, _, _, _, _, _, rfl⟩ | ⟨snap, _, _, rfl⟩
  · have := tableWrite_cfg hu; exact this
  · cases hu <;> exact ⟨rfl, rfl⟩
  · exact ⟨rfl, rfl⟩
  · exact ⟨rfl, rfl⟩

end Sys2Proof.Machine
end

