-- ==== Sys2Proof/Laws/ActiveChains.lean ====
section
/-! SUPPORT. What the writes make of the active chains (rules R49 and R50): a claim pushes, an End-Of-Interrupt pops or
splices, and nothing else touches them. -/

namespace Sys2Proof.Machine

variable {s t u : State} {c i j : Nat}

/-! ## Entry by entry -/

theorem active_or {m : CpuSet} {c k : Nat} :
    (m ||| cpuBit c).getLsbD k = true ↔ m.getLsbD k = true ∨ (k = c ∧ c < 8) := by
  rw [BitVec.getLsbD_or, cpuBit_getLsbD]; simp

theorem active_and {m : CpuSet} {c k : Nat} :
    (m &&& ~~~(cpuBit c)).getLsbD k = true ↔ m.getLsbD k = true ∧ ¬(k = c ∧ c < 8) := by
  by_cases hk : k < 8
  · rw [BitVec.getLsbD_and, BitVec.getLsbD_not, cpuBit_getLsbD]
    simp only [hk, decide_true, Bool.true_and, Bool.and_eq_true, Bool.not_eq_true', decide_eq_false_iff_not]
  · rw [BitVec.getLsbD_of_ge _ _ (by omega), BitVec.getLsbD_of_ge _ _ (by omega)]; simp

theorem ofNat_eq_id {id : IrqId} (hi : i < 1024) : BitVec.ofNat 10 i = id ↔ i = id.toNat := by
  constructor
  · rintro rfl; simp; omega
  · rintro rfl; simp

theorem lastActive_length (h : Shaped s) (hc : c < s.cfg.numCpu) : (s.cpu c).lastActive.length = s.cfg.numIrq := by
  have := h.2.2.2 _ (List.getElem_mem (l := s.cpus) (n := c) (by rw [h.2.2.1]; exact hc))
  rw [← cpu_getElem] at this; exact this.2

theorem claim_line (hsh : Shaped s) {id : IrqId} (hid : id.toNat < s.cfg.numIrq) (j : Nat) :
    ((s.claim c id).line j).active =
      if j = id.toNat then (s.line j).active ||| cpuBit c else (s.line j).active := by
  rw [claim_eq, update_line, onLine_line, onCpu_line]
  by_cases e : j = id.toNat
  · rw [if_pos ⟨e, by simp [hsh.1, hid]⟩, if_pos e]
  · rw [if_neg (fun h => e h.1), if_neg e]

theorem claim_cpu (hsh : Shaped s) {id : IrqId} (hc : c < s.cfg.numCpu) (k : Nat) :
    ((s.claim c id).cpu k).runId = (if k = c then id else (s.cpu k).runId) ∧
    ((s.claim c id).cpu k).lastActive =
      (if k = c then (s.cpu k).lastActive.set id.toNat (s.cpu k).runId else (s.cpu k).lastActive) := by
  rw [claim_eq, update_cpu, arbitrate_runId, arbitrate_lastActive, onLine_cpu, onCpu_cpu]
  have := hsh.2.2.1
  by_cases e : k = c <;> simp [e, hc, this]

theorem popped_line (hsh : Shaped s) {prev : IrqId} (hi : i < s.cfg.numIrq) (j : Nat) :
    (s.popped c i prev).line j =
      if j = i then { s.line j with active := (s.line j).active &&& ~~~(cpuBit c) } else s.line j := by
  unfold State.popped; rw [onCpu_line, deactivate_eq, onLine_line, hsh.1]
  by_cases e : j = i <;> simp [e, hi]

theorem popped_cpu (hsh : Shaped s) {prev : IrqId} (hc : c < s.cfg.numCpu) (k : Nat) :
    (s.popped c i prev).cpu k =
      if k = c then
        { s.cpu k with
          runId := prev, runPrio := if prev = noneId then nonePrio else (s.prio prev.toNat c).setWidth 9 }
      else s.cpu k := by
  unfold State.popped; rw [onCpu_cpu, deactivate_eq, onLine_cpu]
  have := hsh.2.2.1
  by_cases e : k = c <;> simp [e, hc, this]

theorem splice_line (hsh : Shaped s) {pred : IrqId} (hi : i < s.cfg.numIrq) (j : Nat) :
    (s.splice c i pred).line j =
      if j = i then { s.line j with active := (s.line j).active &&& ~~~(cpuBit c) } else s.line j := by
  unfold State.splice; rw [deactivate_eq, onLine_line, onCpu_line]; simp only [onCpu_lines, hsh.1]
  by_cases e : j = i <;> simp [e, hi]

theorem splice_cpu (hsh : Shaped s) {pred : IrqId} (hc : c < s.cfg.numCpu) (k : Nat) :
    (s.splice c i pred).cpu k =
      if k = c then
        { s.cpu k with lastActive := (s.cpu k).lastActive.set pred.toNat ((s.cpu k).lastActive.getD i noneId) }
      else s.cpu k := by
  unfold State.splice; rw [deactivate_eq, onLine_cpu, onCpu_cpu]
  have := hsh.2.2.1
  by_cases e : k = c <;> simp [e, hc, this]

theorem pendFor_shaped (h : Shaped s) : Shaped (s.pendFor c i) := ⟨by simp [pendFor_eq, h.1], h.2⟩

theorem repended_shaped (h : Shaped s) : Shaped (s.repended c i) := by
  unfold State.repended; split
  · exact pendFor_shaped h
  · exact h

theorem pendFor_active (s : State) (c i j : Nat) : ((s.pendFor c i).line j).active = (s.line j).active := by
  rw [pendFor_eq, onLine_line]; split <;> rfl

theorem repended_active (s : State) (c i j : Nat) : ((s.repended c i).line j).active = (s.line j).active := by
  unfold State.repended; split
  · exact pendFor_active s c i j
  · rfl

/-! ## Writes that keep the chains -/

/-- What keeps the active bits, the running ids and the links keeps the chains. -/
theorem chains_same (hcfg : t.cfg = s.cfg) (hl : ∀ i < s.cfg.numIrq, (t.line i).active = (s.line i).active)
    (hp : ∀ c < s.cfg.numCpu, (t.cpu c).runId = (s.cpu c).runId ∧ (t.cpu c).lastActive = (s.cpu c).lastActive)
    (h : ChainsOk s) : ChainsOk t := by
  intro c hc
  rw [hcfg] at hc
  obtain ⟨m, hg, ha⟩ := h c hc
  refine ⟨m, ?_, fun i hi => ?_⟩
  · unfold IsGoodChain; rw [(hp c hc).1, (hp c hc).2, hcfg]; exact hg
  · rw [hcfg] at hi; rw [hl i hi]; exact ha i hi

theorem chains_update {r : Response} (h : ChainsOk s) : ChainsOk { s.update with response := r } :=
  chains_same (s := s) rfl (fun _ _ => rfl) (fun c _ => by rw [answered_cpu, update_cpu]; simp) h

theorem chains_pendFor (h : ChainsOk s) : ChainsOk (s.pendFor c i) :=
  chains_same (s := s) rfl (fun j _ => pendFor_active s c i j) (fun _ _ => ⟨rfl, rfl⟩) h

theorem chains_repended (h : ChainsOk s) : ChainsOk (s.repended c i) := by
  unfold State.repended; split
  · exact chains_pendFor h
  · exact h

/-- One byte of a distributor write keeps the chains. -/
theorem byteWrite_chains (hb : ByteWrite c s u) (h : ChainsOk s) : ChainsOk u := by
  have lines : ∀ f : Nat → Line → Line, (∀ i l, (f i l).active = l.active) → ChainsOk (s.onLines f) := fun f hf =>
    chains_same (s := s) rfl
      (fun i _ => by
        rw [onLines_line]; split
        · exact hf _ _
        · rfl)
      (fun _ _ => ⟨rfl, rfl⟩) h
  cases hb with
  | nothing => exact h
  | ctrl k b => unfold State.writeCtrl; split <;> exact h
  | setEnable j b =>
    refine lines _ fun i l => ?_
    split
    · unfold Line.setEnable; split
      · rfl
      · split <;> rfl
    · rfl
  | clrEnable j b =>
    refine lines _ fun i l => ?_
    split
    · unfold Line.clearEnable; split <;> rfl
    · rfl
  | setPending j b =>
    refine lines _ fun i l => ?_
    split
    · unfold Line.setPending; split <;> rfl
    · rfl
  | clrPending j b =>
    refine lines _ fun i l => ?_
    split
    · unfold Line.clearPending; split <;> rfl
    · rfl
  | config j b =>
    refine lines _ fun i l => ?_
    split
    · unfold Line.configure; split <;> rfl
    · rfl
  | target i b =>
    exact chains_same (s := s) rfl (fun j _ => by simp only [State.writeTarget, onLine_line]; split <;> rfl)
      (fun _ _ => ⟨rfl, rfl⟩) h
  | priority i b =>
    refine chains_same (s := s) (by simp) (fun j _ => by simp) (fun k _ => ?_) h
    unfold State.setPrio; split
    · simp only [onCpu_cpu]; split <;> exact ⟨rfl, rfl⟩
    · exact ⟨rfl, rfl⟩

theorem byteWrites_chains (hb : ByteWrites c s u) (h : ChainsOk s) : ChainsOk u := by
  induction hb with
  | refl => exact h
  | step _ h2 ih => exact byteWrite_chains h2 ih

/-! ## Push, pop and splice -/

/-- A claim of a line that is not active for its CPU pushes it on the CPU's chain. -/
theorem chains_claim (hok : s.cfg.ok = true) (hsh : Shaped s) (h : ChainsOk s) {id : IrqId} (hc : c < s.cfg.numCpu)
    (hid : id.toNat < s.cfg.numIrq) (hna : (s.line id.toNat).active.getLsbD c = false) : ChainsOk (s.claim c id) := by
  have hn := numIrq_le hok
  have h8 := numCpu_le hok
  have hcfg : (s.claim c id).cfg = s.cfg := rfl
  intro k hk
  rw [hcfg] at hk
  obtain ⟨m, hg, ha⟩ := h k hk
  have hcpu := claim_cpu (id := id) hsh hc k
  by_cases e : k = c
  · subst e
    have hlen := lastActive_length hsh hc
    have hidm : id ∉ m := fun hm => by
      have := (ha id.toNat hid).2 (by simpa using hm)
      rw [hna] at this; simp at this
    refine ⟨id :: m, ?_, fun i hi => ?_⟩
    · unfold IsGoodChain
      rw [hcpu.1, hcpu.2, if_pos rfl, if_pos rfl]
      refine ⟨⟨rfl, fun e => by rw [e] at hid; simp at hid; omega, ?_⟩, List.nodup_cons.2 ⟨hidm, hg.2.1⟩, ?_⟩
      · have : ((s.cpu k).lastActive.set id.toNat (s.cpu k).runId).getD id.toNat noneId = (s.cpu k).runId := by
          simp [List.getD_eq_getElem?_getD, hlen, hid]
        rw [this]
        exact isChain_set hg.1 fun k hk ek => hidm (BitVec.eq_of_toNat_eq ek ▸ hk)
      · intro k hk
        rcases List.mem_cons.1 hk with rfl | hk
        · exact hid
        · exact hg.2.2 k hk
    · rw [hcfg] at hi
      rw [claim_line hsh hid, List.mem_cons, ofNat_eq_id (by omega)]
      by_cases ei : i = id.toNat
      · rw [if_pos ei, active_or]; simp [ei]; right; omega
      · rw [if_neg ei, ha i hi]; simp [ei]
  · refine ⟨m, ?_, fun i hi => ?_⟩
    · unfold IsGoodChain
      rw [hcpu.1, hcpu.2, if_neg e, if_neg e]; exact hg
    · rw [hcfg] at hi
      rw [claim_line hsh hid, ← ha i hi]
      split
      · rw [active_or]; simp [e]
      · rfl

/-- A pop removes the running id from the CPU's chain. -/
theorem chains_popped (hok : s.cfg.ok = true) (hsh : Shaped s) (h : ChainsOk s) {id prev : IrqId}
    (hc : c < s.cfg.numCpu) (hid : id.toNat < s.cfg.numIrq) (hrun : (s.cpu c).runId = id) (hne : id ≠ noneId)
    (hp : (s.cpu c).lastActive[id.toNat]? = some prev) : ChainsOk (s.popped c id.toNat prev) := by
  have hn := numIrq_le hok
  have h8 := numCpu_le hok
  have hcfg : (s.popped c id.toNat prev).cfg = s.cfg := rfl
  intro k hk
  rw [hcfg] at hk
  obtain ⟨m, hg, ha⟩ := h k hk
  by_cases e : k = c
  · subst e
    cases m with
    | nil => exact absurd (hrun ▸ hg.1) hne
    | cons a rest =>
      have hka : a = id := by rw [← hrun]; exact hg.1.1.symm
      subst hka
      have hch : IsChain (s.cpu k).lastActive prev rest := by
        have := hg.1.2.2; rw [List.getD_eq_getElem?_getD, hp] at this; exact this
      have hnd := List.nodup_cons.1 hg.2.1
      refine ⟨rest, ?_, fun i hi => ?_⟩
      · rw [popped_cpu hsh hc, if_pos rfl]
        exact ⟨hch, hnd.2, fun j hj => hg.2.2 j (List.mem_cons_of_mem _ hj)⟩
      · rw [hcfg] at hi
        have hai := ha i hi
        rw [List.mem_cons, ofNat_eq_id (by omega)] at hai
        rw [popped_line hsh hid]
        by_cases ei : i = a.toNat
        · rw [if_pos ei, active_and]
          constructor
          · rintro ⟨_, hh⟩; omega
          · intro hm
            exact absurd ((ofNat_eq_id (by omega)).2 ei ▸ hm) hnd.1
        · rw [if_neg ei, hai]; simp [ei]
  · refine ⟨m, by rw [popped_cpu hsh hc, if_neg e]; exact hg, fun i hi => ?_⟩
    rw [hcfg] at hi
    rw [popped_line hsh hid, ← ha i hi]
    split
    · rw [active_and]; simp [e]
    · rfl

/-- On a good chain the walk finds only the member before the id. -/
theorem walk_splits {cfg : Config} {p : Cpu} {m : List IrqId} {id pred : IrqId} (hn : cfg.numIrq ≤ 1020)
    (hlen : p.lastActive.length = cfg.numIrq) (hg : IsGoodChain cfg p m) (hid : id.toNat < cfg.numIrq)
    (hrun : p.runId ≠ id) (hw : walkChain p.lastActive id cfg.numIrq p.runId = .found pred) :
    ∃ before after, m = before ++ pred :: id :: after := by
  have hidne : id ≠ noneId := fun e => by rw [e] at hid; simp at hid; omega
  have hmem : ∀ k ∈ m, k.toNat < p.lastActive.length := fun k hk => by rw [hlen]; exact hg.2.2 k hk
  by_cases hm : id ∈ m
  · obtain ⟨a, b, rfl⟩ := List.append_of_mem hm
    rcases List.eq_nil_or_concat a with rfl | ⟨a', q, rfl⟩
    · exact absurd hg.1.1 hrun
    · rw [List.concat_eq_append, List.append_assoc] at hg hmem ⊢
      simp only [List.singleton_append] at hg hmem ⊢
      have hle := goodChain_length hg
      simp at hle
      rw [walkChain_found hg.1 hmem hg.2.1 (by omega)] at hw
      simp only [Walk.found.injEq] at hw
      exact ⟨a', b, by rw [hw]⟩
  · exfalso
    by_cases hme : m = []
    · subst hme
      have hrn : p.runId = noneId := hg.1
      rw [hrn] at hw
      cases hN : cfg.numIrq with
      | zero => omega
      | succ n =>
        rw [hN] at hw
        simp only [walkChain] at hw
        rw [List.getElem?_eq_none (by rw [hlen]; simp; omega)] at hw
        simp at hw
    · rw [walkChain_ended hg.1 hme hmem hm hidne (goodChain_length hg)] at hw
      simp at hw

/-- A splice removes the id from the CPU's chain. -/
theorem chains_splice (hok : s.cfg.ok = true) (hsh : Shaped s) (h : ChainsOk s) {id pred : IrqId}
    (hc : c < s.cfg.numCpu) (hid : id.toNat < s.cfg.numIrq) (hrun : (s.cpu c).runId ≠ id)
    (hw : walkChain (s.cpu c).lastActive id s.cfg.numIrq (s.cpu c).runId = .found pred) :
    ChainsOk (s.splice c id.toNat pred) := by
  have hn := numIrq_le hok
  have h8 := numCpu_le hok
  have hcfg : (s.splice c id.toNat pred).cfg = s.cfg := rfl
  intro k hk
  rw [hcfg] at hk
  obtain ⟨m, hg, ha⟩ := h k hk
  by_cases e : k = c
  · subst e
    have hlen := lastActive_length hsh hc
    obtain ⟨a, b, rfl⟩ := walk_splits hn hlen hg hid hrun hw
    have hplt : pred.toNat < s.cfg.numIrq := hg.2.2 pred (by simp)
    have hperm : (a ++ pred :: id :: b).Perm (id :: (a ++ pred :: b)) := by
      have h1 : a ++ pred :: id :: b = (a ++ [pred]) ++ id :: b := by simp
      have h2 : a ++ pred :: b = (a ++ [pred]) ++ b := by simp
      rw [h1, h2]; exact List.perm_middle
    have hnot : id ∉ a ++ pred :: b := (List.nodup_cons.1 (hperm.nodup_iff.1 hg.2.1)).1
    refine ⟨a ++ pred :: b, ?_, fun i hi => ?_⟩
    · rw [splice_cpu hsh hc, if_pos rfl]
      exact ⟨isChain_splice (by rw [hlen]; exact hplt) hg.1 hg.2.1, hg.2.1.sublist (by simp),
        fun k hk => hg.2.2 k (hperm.mem_iff.2 (List.mem_cons_of_mem _ hk))⟩
    · rw [hcfg] at hi
      have hai := ha i hi
      rw [hperm.mem_iff, List.mem_cons, ofNat_eq_id (by omega)] at hai
      rw [splice_line hsh hid]
      by_cases ei : i = id.toNat
      · rw [if_pos ei, active_and]
        constructor
        · rintro ⟨_, hh⟩; omega
        · intro hm
          exact absurd ((ofNat_eq_id (by omega)).2 ei ▸ hm) hnot
      · rw [if_neg ei, hai]; simp [ei]
  · refine ⟨m, by rw [splice_cpu hsh hc, if_neg e]; exact hg, fun i hi => ?_⟩
    rw [hcfg] at hi
    rw [splice_line hsh hid, ← ha i hi]
    split
    · rw [active_and]; simp [e]
    · rfl

end Sys2Proof.Machine
end

