-- ==== Sys2Proof/Laws/Faults.lean ====
section
/-! SUPPORT. When an operation stops with a fault: only an acknowledge whose best line does not exist, and an
End-Of-Interrupt whose walk or whose stored id goes wrong. -/

namespace Sys2Proof.Machine

/-- All the ways an End-Of-Interrupt can fault. -/
theorem retire_fault {s : State} {c : Nat} {id : IrqId} {f : Fault} (h : s.retire c id = .fault f) :
    id.toNat < s.cfg.numIrq ∧ (s.cpu c).runId ≠ noneId ∧
      ((id = (s.cpu c).runId ∧ f = .idBeyondTable ∧
          ∀ prev, (s.cpu c).lastActive[id.toNat]? = some prev → ¬IdOk s.cfg prev) ∨
       (f = .idBeyondTable ∧ walkChain (s.cpu c).lastActive id s.cfg.numIrq (s.cpu c).runId = .beyond) ∨
       (id ≠ (s.cpu c).runId ∧ f = .eoiWalkDiverges ∧
          walkChain (s.cpu c).lastActive id s.cfg.numIrq (s.cpu c).runId = .diverges)) := by
  by_cases hid : id.toNat < s.cfg.numIrq
  swap
  · rw [retire_ignored (.inl (by omega))] at h; simp [State.answer] at h
  by_cases hrun : (s.cpu c).runId = noneId
  · rw [retire_ignored (.inr hrun)] at h; simp [State.answer] at h
  refine ⟨hid, hrun, ?_⟩
  rw [retire_eq hid hrun] at h
  by_cases he : id = (s.cpu c).runId
  · rw [if_pos he] at h
    left
    refine ⟨he, ?_, fun prev hp hok => ?_⟩
    · unfold State.pop at h
      split at h
      · simpa using h.symm
      · split at h
        · simp [State.answer] at h
        · split at h
          · simp [State.answer] at h
          · simpa using h.symm
    · rw [pop_eq (prev := prev) (by rw [repended_cpu]; exact hp) (by rw [repended_cfg]; exact hok)] at h
      simp [State.answer] at h
  · rw [if_neg he] at h
    cases hw : walkChain (s.cpu c).lastActive id s.cfg.numIrq (s.cpu c).runId with
    | found pred => rw [hw] at h; dsimp only at h; split at h <;> simp [State.answer] at h
    | ended => rw [hw] at h; dsimp only at h; split at h <;> simp [State.answer] at h
    | beyond => rw [hw] at h; exact .inr (.inl ⟨by simpa using h.symm, rfl⟩)
    | diverges => rw [hw] at h; exact .inr (.inr ⟨he, by simpa using h.symm, rfl⟩)

/-- All the ways an operation can fault. -/
theorem exec_fault {s : State} {i : Instr} {f : Fault} (h : exec i s = .fault f) :
    (∃ c, i = .cpuAckR c ∧ c < s.cfg.numCpu ∧ (s.cpu c).best ≠ noneId ∧ s.cfg.numIrq ≤ (s.cpu c).best.toNat) ∨
    ∃ c v, i = .cpuEoiW c v ∧ c < s.cfg.numCpu ∧ s.retire c (v.setWidth 10) = .fault f := by
  cases i
  case cpuAckR c =>
    left; refine ⟨c, rfl, ?_⟩
    simp only [exec, execCpuAckR, asCpu_fault] at h
    obtain ⟨_, hc, h⟩ := h
    refine ⟨hc, ?_⟩
    split at h
    · simp [State.answer] at h
    · split at h
      · rename_i h1 h2; exact ⟨h1, h2⟩
      · split at h <;> simp [State.answer] at h
  case cpuEoiW c v =>
    right; refine ⟨c, v, rfl, ?_⟩
    simp only [exec, execCpuEoiW, asCpu_fault] at h
    exact ⟨h.2.1, h.2.2⟩
  case reset => obtain ⟨_, h⟩ := unlessFatal_fault.1 h; simp [State.answer] at h
  case snapshotSave => obtain ⟨_, h⟩ := unlessFatal_fault.1 h; simp [State.answer] at h
  case snapshotLoad =>
    obtain ⟨_, h⟩ := unlessFatal_fault.1 h
    split at h
    · simp [State.raiseFatal] at h
    · split at h <;> simp [State.answer] at h
  case setLine =>
    obtain ⟨_, h⟩ := unlessFatal_fault.1 h
    split at h
    · split at h
      · dsimp only at h; split at h <;> simp [State.answer] at h
      · simp at h
    · simp at h
  all_goals first
    | exact absurd h readByteOf_fault
    | exact absurd h writeByteOf_fault
    | (obtain ⟨_, _, h⟩ := asCpu_fault.1 h; simp [State.answer, State.raiseFatal] at h)

/-- An event faults only where an operation does. -/
theorem issue_fault {s : State} {e : Event} {f : Fault} (h : issue e s = .fault f) : ∃ i, exec i s = .fault f := by
  cases e with
  | line n v => exact ⟨.setLine n v, h⟩
  | reset => exact ⟨.reset, h⟩
  | save => exact ⟨.snapshotSave, h⟩
  | load snap => exact ⟨.snapshotLoad snap, h⟩
  | bus t =>
    change issueTxn t s = _ at h
    unfold issueTxn at h
    split at h
    · split at h
      · exact ⟨_, h⟩
      · have := (asCpu_fault.1 h).2.2; simp [State.answer] at this
      · have := (asCpu_fault.1 h).2.2; simp [State.answer] at this
      · have := (unlessFatal_fault.1 h).2; simp [State.raiseFatal] at this
    · have := (unlessFatal_fault.1 h).2; simp at this

end Sys2Proof.Machine
end

