-- ==== Sys2Proof/Laws/PerInstr.lean ====
section
/-! SUPPORT. One statement per operation: its encoding is the one of its row of spec/opcode_table.json. -/

namespace Sys2Proof.Laws.EncodingMatchesTable

/-- The mask and the match of the operation's row in spec/opcode_table.json (rule R104's default map); none for the rows
that are no bus transactions. -/
def rowPattern : Instr → Option (Nat × Nat)
  | .reset => none
  | .setLine _ _ => none
  | .distCtrlR _ _ => some (0x3FFC, 0x0000)
  | .distCtrlW _ _ _ => some (0x3FFC, 0x1000)
  | .distSetEnableR _ _ => some (0x3F80, 0x0100)
  | .distSetEnableW _ _ _ => some (0x3F80, 0x1100)
  | .distClrEnableR _ _ => some (0x3F80, 0x0180)
  | .distClrEnableW _ _ _ => some (0x3F80, 0x1180)
  | .distSetPendingR _ _ => some (0x3F80, 0x0200)
  | .distSetPendingW _ _ _ => some (0x3F80, 0x1200)
  | .distClrPendingR _ _ => some (0x3F80, 0x0280)
  | .distClrPendingW _ _ _ => some (0x3F80, 0x1280)
  | .distActiveR _ _ => some (0x3F80, 0x0300)
  | .distActiveW _ _ _ => some (0x3F80, 0x1300)
  | .distPriorityR _ _ => some (0x3C00, 0x0400)
  | .distPriorityW _ _ _ => some (0x3C00, 0x1400)
  | .distTargetR _ _ => some (0x3C00, 0x0800)
  | .distTargetW _ _ _ => some (0x3C00, 0x1800)
  | .distConfigR _ _ => some (0x3F00, 0x0C00)
  | .distConfigW _ _ _ => some (0x3F00, 0x1C00)
  | .distSgiR _ _ => some (0x3FFC, 0x0F00)
  | .distSgiW _ _ => some (0x3FFF, 0x1F00)
  | .distIdR _ _ => some (0x3FE0, 0x0FE0)
  | .distIdW _ _ _ => some (0x3FE0, 0x1FE0)
  | .cpuCtrlR _ => some (0x3FFF, 0x2000)
  | .cpuCtrlW _ _ => some (0x3FFF, 0x3000)
  | .cpuPrimaskR _ => some (0x3FFF, 0x2004)
  | .cpuPrimaskW _ _ => some (0x3FFF, 0x3004)
  | .cpuBinpointR _ => some (0x3FFF, 0x2008)
  | .cpuBinpointW _ _ => some (0x3FFF, 0x3008)
  | .cpuAckR _ => some (0x3FFF, 0x200C)
  | .cpuAckW _ _ => some (0x3FFF, 0x300C)
  | .cpuEoiR _ => some (0x3FFF, 0x2010)
  | .cpuEoiW _ _ => some (0x3FFF, 0x3010)
  | .cpuRunpriR _ => some (0x3FFF, 0x2014)
  | .cpuRunpriW _ _ => some (0x3FFF, 0x3014)
  | .cpuHipendR _ => some (0x3FFF, 0x2018)
  | .cpuHipendW _ _ => some (0x3FFF, 0x3018)
  | .snapshotSave => none
  | .snapshotLoad _ => none

/-- Under the spec's default map, for every legal number of lines, the selector of a well-formed operation matches its
row's pattern; an operation whose row has no pattern has no encoding. -/
def Statement (i : Instr) : Prop :=
  ∀ (numIrq numCpu : Nat) (idBytes : List Byte) (version : Nat),
    (Config.withDefaults numIrq numCpu idBytes version).countsOk = true →
    i.wf (Config.withDefaults numIrq numCpu idBytes version) = true →
    match i.fields (Config.withDefaults numIrq numCpu idBytes version), rowPattern i with
    | some f, some p => f.1 &&& p.1 = p.2
    | none, none => True
    | _, _ => False

/-- A 14-bit word under a mask that keeps all but its `m` low bits. -/
theorem and_mask {x m mask : Nat} (hm : m ≤ 14) (hx : x < 2 ^ 14) (hmask : mask = (2 ^ (14 - m) - 1) <<< m) :
    x &&& mask = x / 2 ^ m * 2 ^ m := by
  have h : x &&& mask = (x >>> m) <<< m := by
    subst hmask
    apply Nat.eq_of_testBit_eq
    intro j
    rw [Nat.testBit_and, Nat.testBit_shiftLeft, Nat.testBit_shiftLeft, Nat.testBit_shiftRight,
      Nat.testBit_two_pow_sub_one]
    by_cases hj : m ≤ j
    · have e : m + (j - m) = j := by omega
      rw [e]
      by_cases h14 : j < 14
      · have : j - m < 14 - m := by omega
        simp [hj, this]
      · have hz : x.testBit j = false :=
          Nat.testBit_lt_two_pow (Nat.lt_of_lt_of_le hx (Nat.pow_le_pow_right (by omega) (by omega)))
        simp [hz]
    · simp [hj]
  rw [h, Nat.shiftLeft_eq, Nat.shiftRight_eq_div_pow]

/-- A selector whose offset is `k` bytes past a row's first, under the row's mask. -/
theorem selector_match {win : Win} {dir : Dir} {b k m mask v : Nat} (hm : m ≤ 12) (hk : k < 2 ^ m) (hb : b % 2 ^ m = 0)
    (hoff : b + k < 0x1000) (hmask : mask = (2 ^ (14 - m) - 1) <<< m) (hv : v = selector win dir b) :
    selector win dir (b + k) &&& mask = v := by
  have hx := selector_lt (win := win) (dir := dir) hoff
  have hadd : selector win dir (b + k) = selector win dir b + k := by unfold selector; omega
  have hz : selector win dir b % 2 ^ m = 0 := by
    obtain ⟨n, hn⟩ : ∃ n, selector win dir b = 2 ^ 12 * n + b := by
      unfold selector
      cases win <;> cases dir
      · exact ⟨0, show 0 + 0 + b = 2 ^ 12 * 0 + b by omega⟩
      · exact ⟨1, show 0 + 0x1000 + b = 2 ^ 12 * 1 + b by omega⟩
      · exact ⟨2, show 0x2000 + 0 + b = 2 ^ 12 * 2 + b by omega⟩
      · exact ⟨3, show 0x2000 + 0x1000 + b = 2 ^ 12 * 3 + b by omega⟩
    have h12 : 2 ^ 12 * n % 2 ^ m = 0 := Nat.mod_eq_zero_of_dvd (Dvd.dvd.mul_right (Nat.pow_dvd_pow 2 hm) n)
    rw [hn, Nat.add_mod, h12, hb]
    simp
  rw [and_mask (by omega) hx hmask, hv, hadd]
  have hd := Nat.div_add_mod (selector win dir b) (2 ^ m)
  rw [hz, Nat.add_zero] at hd
  rw [← hd, Nat.mul_add_div (Nat.two_pow_pos m), Nat.div_eq_of_lt hk, Nat.add_zero, Nat.mul_comm]

/-- Legal counts bound the number of lines. -/
theorem numIrq_bound {numIrq numCpu version : Nat} {idBytes : List Byte}
    (h : (Config.withDefaults numIrq numCpu idBytes version).countsOk = true) : numIrq ≤ 1020 := by
  simp only [Config.countsOk, Bool.and_eq_true, decide_eq_true_eq] at h
  exact h.1.1.1.2

theorem reset : Statement (.reset) := fun _ _ _ _ _ _ => True.intro

theorem setLine (n v : Nat) : Statement (.setLine n v) := fun _ _ _ _ _ _ => True.intro

theorem distCtrlR (c k : Nat) : Statement (.distCtrlR c k) := fun numIrq numCpu _ _ hc h => by
  have hn := numIrq_bound hc
  replace h : (decide (c < numCpu) && decide (k < 4)) = true := h
  rw [Bool.and_eq_true, decide_eq_true_eq, decide_eq_true_eq] at h
  show selector .dist .read (0x0 + k) &&& 0x3FFC = 0x0000
  exact selector_match (m := 2) (by omega) (by omega) rfl (by omega) rfl rfl

theorem distCtrlW (c k : Nat) (b : Byte) : Statement (.distCtrlW c k b) := fun numIrq numCpu _ _ hc h => by
  have hn := numIrq_bound hc
  replace h : (decide (c < numCpu) && decide (k < 4)) = true := h
  rw [Bool.and_eq_true, decide_eq_true_eq, decide_eq_true_eq] at h
  show selector .dist .write (0x0 + k) &&& 0x3FFC = 0x1000
  exact selector_match (m := 2) (by omega) (by omega) rfl (by omega) rfl rfl

theorem distSetEnableR (c j : Nat) : Statement (.distSetEnableR c j) := fun numIrq numCpu _ _ hc h => by
  have hn := numIrq_bound hc
  replace h : (decide (c < numCpu) && decide (j < numIrq / 8)) = true := h
  rw [Bool.and_eq_true, decide_eq_true_eq, decide_eq_true_eq] at h
  show selector .dist .read (0x100 + j) &&& 0x3F80 = 0x0100
  exact selector_match (m := 7) (by omega) (by omega) rfl (by omega) rfl rfl

theorem distSetEnableW (c j : Nat) (b : Byte) : Statement (.distSetEnableW c j b) := fun numIrq numCpu _ _ hc h => by
  have hn := numIrq_bound hc
  replace h : (decide (c < numCpu) && decide (j < numIrq / 8)) = true := h
  rw [Bool.and_eq_true, decide_eq_true_eq, decide_eq_true_eq] at h
  show selector .dist .write (0x100 + j) &&& 0x3F80 = 0x1100
  exact selector_match (m := 7) (by omega) (by omega) rfl (by omega) rfl rfl

theorem distClrEnableR (c j : Nat) : Statement (.distClrEnableR c j) := fun numIrq numCpu _ _ hc h => by
  have hn := numIrq_bound hc
  replace h : (decide (c < numCpu) && decide (j < numIrq / 8)) = true := h
  rw [Bool.and_eq_true, decide_eq_true_eq, decide_eq_true_eq] at h
  show selector .dist .read (0x180 + j) &&& 0x3F80 = 0x0180
  exact selector_match (m := 7) (by omega) (by omega) rfl (by omega) rfl rfl

theorem distClrEnableW (c j : Nat) (b : Byte) : Statement (.distClrEnableW c j b) := fun numIrq numCpu _ _ hc h => by
  have hn := numIrq_bound hc
  replace h : (decide (c < numCpu) && decide (j < numIrq / 8)) = true := h
  rw [Bool.and_eq_true, decide_eq_true_eq, decide_eq_true_eq] at h
  show selector .dist .write (0x180 + j) &&& 0x3F80 = 0x1180
  exact selector_match (m := 7) (by omega) (by omega) rfl (by omega) rfl rfl

theorem distSetPendingR (c j : Nat) : Statement (.distSetPendingR c j) := fun numIrq numCpu _ _ hc h => by
  have hn := numIrq_bound hc
  replace h : (decide (c < numCpu) && decide (j < numIrq / 8)) = true := h
  rw [Bool.and_eq_true, decide_eq_true_eq, decide_eq_true_eq] at h
  show selector .dist .read (0x200 + j) &&& 0x3F80 = 0x0200
  exact selector_match (m := 7) (by omega) (by omega) rfl (by omega) rfl rfl

theorem distSetPendingW (c j : Nat) (b : Byte) : Statement (.distSetPendingW c j b) := fun numIrq numCpu _ _ hc h => by
  have hn := numIrq_bound hc
  replace h : (decide (c < numCpu) && decide (j < numIrq / 8)) = true := h
  rw [Bool.and_eq_true, decide_eq_true_eq, decide_eq_true_eq] at h
  show selector .dist .write (0x200 + j) &&& 0x3F80 = 0x1200
  exact selector_match (m := 7) (by omega) (by omega) rfl (by omega) rfl rfl

theorem distClrPendingR (c j : Nat) : Statement (.distClrPendingR c j) := fun numIrq numCpu _ _ hc h => by
  have hn := numIrq_bound hc
  replace h : (decide (c < numCpu) && decide (j < numIrq / 8)) = true := h
  rw [Bool.and_eq_true, decide_eq_true_eq, decide_eq_true_eq] at h
  show selector .dist .read (0x280 + j) &&& 0x3F80 = 0x0280
  exact selector_match (m := 7) (by omega) (by omega) rfl (by omega) rfl rfl

theorem distClrPendingW (c j : Nat) (b : Byte) : Statement (.distClrPendingW c j b) := fun numIrq numCpu _ _ hc h => by
  have hn := numIrq_bound hc
  replace h : (decide (c < numCpu) && decide (j < numIrq / 8)) = true := h
  rw [Bool.and_eq_true, decide_eq_true_eq, decide_eq_true_eq] at h
  show selector .dist .write (0x280 + j) &&& 0x3F80 = 0x1280
  exact selector_match (m := 7) (by omega) (by omega) rfl (by omega) rfl rfl

theorem distActiveR (c j : Nat) : Statement (.distActiveR c j) := fun numIrq numCpu _ _ hc h => by
  have hn := numIrq_bound hc
  replace h : (decide (c < numCpu) && decide (j < numIrq / 8)) = true := h
  rw [Bool.and_eq_true, decide_eq_true_eq, decide_eq_true_eq] at h
  show selector .dist .read (0x300 + j) &&& 0x3F80 = 0x0300
  exact selector_match (m := 7) (by omega) (by omega) rfl (by omega) rfl rfl

theorem distActiveW (c j : Nat) (b : Byte) : Statement (.distActiveW c j b) := fun numIrq numCpu _ _ hc h => by
  have hn := numIrq_bound hc
  replace h : (decide (c < numCpu) && decide (j < numIrq / 8)) = true := h
  rw [Bool.and_eq_true, decide_eq_true_eq, decide_eq_true_eq] at h
  show selector .dist .write (0x300 + j) &&& 0x3F80 = 0x1300
  exact selector_match (m := 7) (by omega) (by omega) rfl (by omega) rfl rfl

theorem distPriorityR (c i : Nat) : Statement (.distPriorityR c i) := fun numIrq numCpu _ _ hc h => by
  have hn := numIrq_bound hc
  replace h : (decide (c < numCpu) && decide (i < numIrq)) = true := h
  rw [Bool.and_eq_true, decide_eq_true_eq, decide_eq_true_eq] at h
  show selector .dist .read (0x400 + i) &&& 0x3C00 = 0x0400
  exact selector_match (m := 10) (by omega) (by omega) rfl (by omega) rfl rfl

theorem distPriorityW (c i : Nat) (b : Byte) : Statement (.distPriorityW c i b) := fun numIrq numCpu _ _ hc h => by
  have hn := numIrq_bound hc
  replace h : (decide (c < numCpu) && decide (i < numIrq)) = true := h
  rw [Bool.and_eq_true, decide_eq_true_eq, decide_eq_true_eq] at h
  show selector .dist .write (0x400 + i) &&& 0x3C00 = 0x1400
  exact selector_match (m := 10) (by omega) (by omega) rfl (by omega) rfl rfl

theorem distTargetR (c i : Nat) : Statement (.distTargetR c i) := fun numIrq numCpu _ _ hc h => by
  have hn := numIrq_bound hc
  replace h : (decide (c < numCpu) && decide (i < numIrq)) = true := h
  rw [Bool.and_eq_true, decide_eq_true_eq, decide_eq_true_eq] at h
  show selector .dist .read (0x800 + i) &&& 0x3C00 = 0x0800
  exact selector_match (m := 10) (by omega) (by omega) rfl (by omega) rfl rfl

theorem distTargetW (c i : Nat) (b : Byte) : Statement (.distTargetW c i b) := fun numIrq numCpu _ _ hc h => by
  have hn := numIrq_bound hc
  replace h : (decide (c < numCpu) && decide (i < numIrq)) = true := h
  rw [Bool.and_eq_true, decide_eq_true_eq, decide_eq_true_eq] at h
  show selector .dist .write (0x800 + i) &&& 0x3C00 = 0x1800
  exact selector_match (m := 10) (by omega) (by omega) rfl (by omega) rfl rfl

theorem distConfigR (c j : Nat) : Statement (.distConfigR c j) := fun numIrq numCpu _ _ hc h => by
  have hn := numIrq_bound hc
  replace h : (decide (c < numCpu) && decide (j < numIrq / 4)) = true := h
  rw [Bool.and_eq_true, decide_eq_true_eq, decide_eq_true_eq] at h
  show selector .dist .read (0xC00 + j) &&& 0x3F00 = 0x0C00
  exact selector_match (m := 8) (by omega) (by omega) rfl (by omega) rfl rfl

theorem distConfigW (c j : Nat) (b : Byte) : Statement (.distConfigW c j b) := fun numIrq numCpu _ _ hc h => by
  have hn := numIrq_bound hc
  replace h : (decide (c < numCpu) && decide (j < numIrq / 4)) = true := h
  rw [Bool.and_eq_true, decide_eq_true_eq, decide_eq_true_eq] at h
  show selector .dist .write (0xC00 + j) &&& 0x3F00 = 0x1C00
  exact selector_match (m := 8) (by omega) (by omega) rfl (by omega) rfl rfl

theorem distSgiR (c k : Nat) : Statement (.distSgiR c k) := fun numIrq numCpu _ _ hc h => by
  have hn := numIrq_bound hc
  replace h : (decide (c < numCpu) && decide (k < 4)) = true := h
  rw [Bool.and_eq_true, decide_eq_true_eq, decide_eq_true_eq] at h
  show selector .dist .read (0xF00 + k) &&& 0x3FFC = 0x0F00
  exact selector_match (m := 2) (by omega) (by omega) rfl (by omega) rfl rfl

theorem distSgiW (c : Nat) (v : Word) : Statement (.distSgiW c v) := fun _ _ _ _ _ _ => by
  show selector .dist .write 0xF00 &&& 0x3FFF = 0x1F00
  decide

theorem distIdR (c k : Nat) : Statement (.distIdR c k) := fun numIrq numCpu _ _ hc h => by
  have hn := numIrq_bound hc
  replace h : (decide (c < numCpu) && decide (k < 32)) = true := h
  rw [Bool.and_eq_true, decide_eq_true_eq, decide_eq_true_eq] at h
  show selector .dist .read (0xFE0 + k) &&& 0x3FE0 = 0x0FE0
  exact selector_match (m := 5) (by omega) (by omega) rfl (by omega) rfl rfl

theorem distIdW (c k : Nat) (b : Byte) : Statement (.distIdW c k b) := fun numIrq numCpu _ _ hc h => by
  have hn := numIrq_bound hc
  replace h : (decide (c < numCpu) && decide (k < 32)) = true := h
  rw [Bool.and_eq_true, decide_eq_true_eq, decide_eq_true_eq] at h
  show selector .dist .write (0xFE0 + k) &&& 0x3FE0 = 0x1FE0
  exact selector_match (m := 5) (by omega) (by omega) rfl (by omega) rfl rfl

theorem cpuCtrlR (c : Nat) : Statement (.cpuCtrlR c) := fun _ _ _ _ _ _ => by
  show selector .cpuif .read 0x00 &&& 0x3FFF = 0x2000
  decide

theorem cpuCtrlW (c : Nat) (v : Word) : Statement (.cpuCtrlW c v) := fun _ _ _ _ _ _ => by
  show selector .cpuif .write 0x00 &&& 0x3FFF = 0x3000
  decide

theorem cpuPrimaskR (c : Nat) : Statement (.cpuPrimaskR c) := fun _ _ _ _ _ _ => by
  show selector .cpuif .read 0x04 &&& 0x3FFF = 0x2004
  decide

theorem cpuPrimaskW (c : Nat) (v : Word) : Statement (.cpuPrimaskW c v) := fun _ _ _ _ _ _ => by
  show selector .cpuif .write 0x04 &&& 0x3FFF = 0x3004
  decide

theorem cpuBinpointR (c : Nat) : Statement (.cpuBinpointR c) := fun _ _ _ _ _ _ => by
  show selector .cpuif .read 0x08 &&& 0x3FFF = 0x2008
  decide

theorem cpuBinpointW (c : Nat) (v : Word) : Statement (.cpuBinpointW c v) := fun _ _ _ _ _ _ => by
  show selector .cpuif .write 0x08 &&& 0x3FFF = 0x3008
  decide

theorem cpuAckR (c : Nat) : Statement (.cpuAckR c) := fun _ _ _ _ _ _ => by
  show selector .cpuif .read 0x0C &&& 0x3FFF = 0x200C
  decide

theorem cpuAckW (c : Nat) (v : Word) : Statement (.cpuAckW c v) := fun _ _ _ _ _ _ => by
  show selector .cpuif .write 0x0C &&& 0x3FFF = 0x300C
  decide

theorem cpuEoiR (c : Nat) : Statement (.cpuEoiR c) := fun _ _ _ _ _ _ => by
  show selector .cpuif .read 0x10 &&& 0x3FFF = 0x2010
  decide

theorem cpuEoiW (c : Nat) (v : Word) : Statement (.cpuEoiW c v) := fun _ _ _ _ _ _ => by
  show selector .cpuif .write 0x10 &&& 0x3FFF = 0x3010
  decide

theorem cpuRunpriR (c : Nat) : Statement (.cpuRunpriR c) := fun _ _ _ _ _ _ => by
  show selector .cpuif .read 0x14 &&& 0x3FFF = 0x2014
  decide

theorem cpuRunpriW (c : Nat) (v : Word) : Statement (.cpuRunpriW c v) := fun _ _ _ _ _ _ => by
  show selector .cpuif .write 0x14 &&& 0x3FFF = 0x3014
  decide

theorem cpuHipendR (c : Nat) : Statement (.cpuHipendR c) := fun _ _ _ _ _ _ => by
  show selector .cpuif .read 0x18 &&& 0x3FFF = 0x2018
  decide

theorem cpuHipendW (c : Nat) (v : Word) : Statement (.cpuHipendW c v) := fun _ _ _ _ _ _ => by
  show selector .cpuif .write 0x18 &&& 0x3FFF = 0x3018
  decide

theorem snapshotSave : Statement (.snapshotSave) := fun _ _ _ _ _ _ => True.intro

theorem snapshotLoad (snap : Snapshot) : Statement (.snapshotLoad snap) := fun _ _ _ _ _ _ => True.intro

end Sys2Proof.Laws.EncodingMatchesTable
end

