-- ==== Sys2Proof/Laws/Tables.lean ====
section
/-! SUPPORT. Every write of the table keeps the sizes and the invariants of `TablesOk`, write by write. -/

namespace Sys2Proof.Machine

variable {s u : State} {c i : Nat}

/-! ## Bitsets within the existing CPUs -/

theorem within_or {cfg : Config} {a b : CpuSet} (ha : Within cfg a) (hb : Within cfg b) : Within cfg (a ||| b) := by
  unfold Within at *
  rw [BitVec.and_comm, BitVec.and_or_distrib_left, BitVec.and_comm, ha, BitVec.and_comm, hb]

theorem within_and {cfg : Config} {a b : CpuSet} (ha : Within cfg a) : Within cfg (a &&& b) := by
  unfold Within at *
  rw [BitVec.and_assoc, BitVec.and_comm b, ← BitVec.and_assoc, ha]

theorem within_zero {cfg : Config} : Within cfg 0 := by simp [Within]

theorem within_all {cfg : Config} : Within cfg (cpuAll cfg) := by simp [Within]

theorem within_bit {cfg : Config} (h8 : cfg.numCpu ≤ 8) (hc : c < cfg.numCpu) : Within cfg (cpuBit c) := by
  rw [within_iff h8]; intro k hk; rw [cpuBit_getLsbD] at hk; simp at hk; omega

theorem all_or_bit {cfg : Config} (h8 : cfg.numCpu ≤ 8) (hc : c < cfg.numCpu) : cpuAll cfg ||| cpuBit c = cpuAll cfg := by
  apply BitVec.eq_of_getLsbD_eq; intro k hk
  rw [BitVec.getLsbD_or, cpuAll_getLsbD h8, cpuBit_getLsbD]
  by_cases h : k < cfg.numCpu <;> simp [h]; omega

theorem sgiMask_within {cfg : Config} (h8 : cfg.numCpu ≤ 8) (hc : c < cfg.numCpu) (v : Word) :
    Within cfg (sgiMask cfg c v) := by
  unfold sgiMask
  split
  · rw [BitVec.and_comm]; exact within_and within_all
  · exact within_and within_all
  · exact within_bit h8 hc
  · exact within_all

/-- A priority is not the sentinel of an idle CPU. -/
theorem prio_ne (s : State) (i c : Nat) : (s.prio i c).setWidth 9 ≠ nonePrio := fun e => by
  have := congrArg BitVec.toNat e
  have := (s.prio i c).isLt
  simp at *; omega

theorem prio_le (s : State) (i c : Nat) : ((s.prio i c).setWidth 9).toNat ≤ 0x100 := by
  have := (s.prio i c).isLt
  simp; omega

/-! ## Writes of one line, of the lines, of one CPU -/

/-- A state whose lines and CPUs meet the invariants entry by entry where those of `s` do. -/
theorem tables_of (h : TablesOk s) (hcfg : u.cfg = s.cfg) (hll : u.lines.length = s.lines.length)
    (hps : u.prioShared.length = s.prioShared.length) (hcl : u.cpus.length = s.cpus.length)
    (hline : ∀ i < s.cfg.numIrq, LineOk s.cfg i (s.line i) → LineOk s.cfg i (u.line i))
    (hcpu : ∀ c < s.cfg.numCpu, CpuOk s.cfg (s.cpu c) → (s.cpu c).prioPriv.length = 32 →
      (s.cpu c).lastActive.length = s.cfg.numIrq →
      CpuOk s.cfg (u.cpu c) ∧ (u.cpu c).prioPriv.length = 32 ∧ (u.cpu c).lastActive.length = s.cfg.numIrq) :
    TablesOk u := by
  obtain ⟨hok, ⟨h1, h2, h3, h4⟩, hl, hp⟩ := h
  have h5 : ∀ c < s.cfg.numCpu, (s.cpu c).prioPriv.length = 32 ∧ (s.cpu c).lastActive.length = s.cfg.numIrq :=
    fun c hc => by rw [cpu_getElem s (by omega)]; exact h4 _ (List.getElem_mem _)
  refine ⟨by rw [hcfg]; exact hok, ⟨by rw [hll, hcfg, h1], by rw [hps, hcfg, h2], by rw [hcl, hcfg, h3],
    fun p hp' => ?_⟩, fun i hi => ?_, fun c hc => ?_⟩
  · obtain ⟨c, hc, rfl⟩ := List.mem_iff_getElem.1 hp'
    rw [hcfg, ← cpu_getElem u hc]
    have hc' : c < s.cfg.numCpu := by omega
    exact (hcpu c hc' (hp c hc') (h5 c hc').1 (h5 c hc').2).2
  · rw [hcfg] at hi ⊢; exact hline i hi (hl i hi)
  · rw [hcfg] at hc ⊢; exact (hcpu c hc (hp c hc) (h5 c hc).1 (h5 c hc).2).1

theorem tables_onLine {f : Line → Line} (h : TablesOk s)
    (hf : i < s.cfg.numIrq → LineOk s.cfg i (s.line i) → LineOk s.cfg i (f (s.line i))) : TablesOk (s.onLine i f) := by
  refine tables_of h rfl (by simp) rfl rfl (fun j hj hl => ?_) (fun c hc a b d => ⟨a, b, d⟩)
  rw [onLine_line]; split
  · rename_i e; obtain ⟨rfl, _⟩ := e; exact hf hj hl
  · exact hl

theorem tables_onLines {f : Nat → Line → Line} (h : TablesOk s)
    (hf : ∀ i < s.cfg.numIrq, LineOk s.cfg i (s.line i) → LineOk s.cfg i (f i (s.line i))) :
    TablesOk (s.onLines f) := by
  refine tables_of h rfl (by simp) rfl rfl (fun j hj hl => ?_) (fun c hc a b d => ⟨a, b, d⟩)
  rw [onLines_line]; split
  · exact hf j hj hl
  · exact hl

theorem tables_onCpu {f : Cpu → Cpu} (h : TablesOk s)
    (hf : c < s.cfg.numCpu → CpuOk s.cfg (s.cpu c) → CpuOk s.cfg (f (s.cpu c)))
    (hf1 : ∀ p, (f p).prioPriv.length = p.prioPriv.length)
    (hf2 : ∀ p, (f p).lastActive.length = p.lastActive.length) : TablesOk (s.onCpu c f) := by
  refine tables_of h rfl rfl rfl (by simp) (fun j hj hl => hl) (fun k hk a b d => ?_)
  rw [onCpu_cpu]; split
  · rename_i e; obtain ⟨rfl, _⟩ := e; exact ⟨hf hk a, by rw [hf1, b], by rw [hf2, d]⟩
  · exact ⟨a, b, d⟩

theorem tables_update (h : TablesOk s) : TablesOk s.update := by
  refine tables_of h rfl rfl rfl (by simp) (fun j hj hl => hl) (fun c hc a b d => ?_)
  rw [update_entry]; exact ⟨a, b, d⟩

theorem line_pend {cfg : Config} {l : Line} {m : CpuSet} (h : LineOk cfg i l) (hm : Within cfg m) :
    LineOk cfg i { l with pending := l.pending ||| m } :=
  ⟨⟨h.1.1, within_or h.1.2.1 hm, h.1.2.2⟩, h.2⟩

/-! ## Distributor writes -/

theorem tables_setPrio {b : Byte} (h : TablesOk s) : TablesOk (s.setPrio c i b) := by
  unfold State.setPrio
  split
  · exact tables_onCpu h (fun _ a => a) (by simp) (by simp)
  · exact tables_of h rfl rfl (by simp) rfl (fun j hj hl => hl) (fun c hc a b d => ⟨a, b, d⟩)

theorem line_setEnable {cfg : Config} (h8 : cfg.numCpu ≤ 8) (hc : c < cfg.numCpu) {l : Line} (hl : LineOk cfg i l)
    (bit : Bool) : LineOk cfg i (l.setEnable cfg c i bit) := by
  have hb := within_bit h8 hc
  unfold Line.setEnable
  split
  · refine ⟨⟨within_or hl.1.1 hb, hl.1.2⟩, fun h => ?_, hl.2.2.1, fun h => ?_⟩
    · have := hl.2.1 h; exact ⟨by dsimp only; rw [this.1, all_or_bit h8 hc], this.2⟩
    · simp only [numSgi, numPrivate] at *; omega
  · split
    · rename_i h16 _
      refine ⟨⟨?_, ?_, hl.1.2.2⟩, fun h => absurd h h16, hl.2.2.1, fun h => ?_⟩
      · dsimp only; split
        · exact within_or hl.1.1 hb
        · exact within_all
      · dsimp only; split
        · split
          · exact within_or hl.1.2.1 hb
          · exact within_or hl.1.2.1 hl.1.2.2.2
        · exact hl.1.2.1
      · dsimp only; rw [if_neg (by omega)]; exact .inr rfl
    · exact hl

theorem line_clearEnable {cfg : Config} {l : Line} (hl : LineOk cfg i l) (bit : Bool) :
    LineOk cfg i (l.clearEnable c i bit) := by
  unfold Line.clearEnable
  split
  · refine ⟨⟨?_, hl.1.2⟩, fun h => by omega, hl.2.2.1, fun h => ?_⟩
    · dsimp only; split
      · exact within_and hl.1.1
      · exact within_zero
    · dsimp only; rw [if_neg (by omega)]; exact .inl rfl
  · exact hl

theorem line_setPending {cfg : Config} (h8 : cfg.numCpu ≤ 8) (hc : c < cfg.numCpu) {l : Line} (hl : LineOk cfg i l)
    (bit : Bool) : LineOk cfg i (l.setPending c i bit) := by
  unfold Line.setPending
  split
  · refine ⟨⟨hl.1.1, ?_, hl.1.2.2⟩, hl.2⟩
    dsimp only; split
    · exact within_or hl.1.2.1 (within_bit h8 hc)
    · exact within_or hl.1.2.1 hl.1.2.2.2
  · exact hl

theorem line_clearPending {cfg : Config} {l : Line} (hl : LineOk cfg i l) (bit : Bool) :
    LineOk cfg i (l.clearPending bit) := by
  unfold Line.clearPending
  split
  · exact ⟨⟨hl.1.1, within_zero, hl.1.2.2⟩, hl.2⟩
  · exact hl

theorem line_configure {cfg : Config} {l : Line} (hl : LineOk cfg i l) (field : RoutingModel × Trigger) :
    LineOk cfg i (l.configure i field) := by
  unfold Line.configure
  split
  · exact ⟨hl.1, fun h => ⟨(hl.2.1 h).1, rfl⟩, fun h => ⟨rfl, (hl.2.2.1 h).2⟩, hl.2.2.2⟩
  · rename_i h32
    exact ⟨hl.1, fun h => absurd (show i < numPrivate by simp only [numSgi, numPrivate] at *; omega) h32,
      fun h => absurd h h32, hl.2.2.2⟩

theorem targetStored_within {cfg : Config} (h8 : cfg.numCpu ≤ 8) (hc : c < cfg.numCpu) (b : Byte) :
    Within cfg (targetStored cfg c i b) := by
  unfold targetStored
  split
  · exact within_bit h8 hc
  · split
    · exact within_all
    · rw [BitVec.and_comm]; exact within_and within_all

/-- One byte of a distributor write keeps the tables. -/
theorem byteWrite_tables (h : ByteWrite c s u) (hc : c < s.cfg.numCpu) (ht : TablesOk s) : TablesOk u := by
  have h8 := numCpu_le ht.1
  cases h with
  | nothing => exact ht
  | ctrl k b => unfold State.writeCtrl; split <;> exact ht
  | setEnable j b =>
    refine tables_onLines ht fun i _ hl => ?_
    split
    · exact line_setEnable h8 hc hl _
    · exact hl
  | clrEnable j b =>
    refine tables_onLines ht fun i _ hl => ?_
    split
    · exact line_clearEnable hl _
    · exact hl
  | setPending j b =>
    refine tables_onLines ht fun i _ hl => ?_
    split
    · exact line_setPending h8 hc hl _
    · exact hl
  | clrPending j b =>
    refine tables_onLines ht fun i _ hl => ?_
    split
    · exact line_clearPending hl _
    · exact hl
  | priority i b => exact tables_setPrio ht
  | target i b =>
    exact tables_onLine ht fun _ hl =>
      ⟨⟨hl.1.1, hl.1.2.1, hl.1.2.2.1, targetStored_within h8 hc b⟩, hl.2⟩
  | config j b =>
    refine tables_onLines ht fun i _ hl => ?_
    split
    · exact line_configure hl _
    · exact hl

theorem byteWrites_tables (h : ByteWrites c s u) (hc : c < s.cfg.numCpu) (ht : TablesOk s) : TablesOk u := by
  induction h with
  | refl => exact ht
  | step h1 h2 ih => exact byteWrite_tables h2 (by rw [(byteWrites_cfg h1).1]; exact hc) ih

/-! ## Claim and retirement -/

theorem tables_pend (ht : TablesOk s) (hc : c < s.cfg.numCpu) : TablesOk (s.pendFor c i) :=
  tables_onLine ht fun _ hl => line_pend hl (within_bit (numCpu_le ht.1) hc)

theorem tables_repended (ht : TablesOk s) (hc : c < s.cfg.numCpu) : TablesOk (s.repended c i) := by
  unfold State.repended; split
  · exact tables_pend ht hc
  · exact ht

theorem tables_deactivate (ht : TablesOk s) : TablesOk (s.deactivate c i) :=
  tables_onLine ht fun _ hl => ⟨⟨hl.1.1, hl.1.2.1, within_and hl.1.2.2.1, hl.1.2.2.2⟩, hl.2⟩

theorem tables_splice {pred : IrqId} (ht : TablesOk s) : TablesOk (s.splice c i pred) := by
  refine tables_deactivate (tables_onCpu ht (fun hc hp => ⟨hp.1, hp.2.1, hp.2.2.1, fun id hid => ?_⟩) (by simp)
    (by simp))
  rcases List.mem_or_eq_of_mem_set hid with h | h
  · exact hp.2.2.2 id h
  · rw [h, List.getD_eq_getElem?_getD]
    cases he : (s.cpu c).lastActive[i]? with
    | none => exact .inl rfl
    | some x => exact hp.2.2.2 x (List.mem_of_getElem? he)

theorem tables_popped {prev : IrqId} (ht : TablesOk s) (hp : IdOk s.cfg prev) : TablesOk (s.popped c i prev) := by
  refine tables_onCpu (tables_deactivate ht) (fun hc hq => ⟨?_, ?_, hp, hq.2.2.2⟩) (by simp) (by simp)
  · dsimp only; by_cases e : prev = noneId
    · simp [e]
    · simp only [e, if_false, false_iff]; exact prio_ne _ _ _
  · dsimp only; split
    · simp
    · exact prio_le ..

theorem tables_claim {id : IrqId} (ht : TablesOk s) (hc : c < s.cfg.numCpu) (hne : id ≠ noneId)
    (hid : id.toNat < s.cfg.numIrq) : TablesOk (s.claim c id) := by
  have h8 := numCpu_le ht.1
  rw [claim_eq]
  refine tables_update (tables_onLine (tables_onCpu ht
    (fun _ hp => ⟨?_, prio_le .., .inr hid, fun k hk => ?_⟩) (by simp) (by simp)) fun _ hl => ?_)
  · dsimp only; exact iff_of_false hne (prio_ne _ _ _)
  · rcases List.mem_or_eq_of_mem_set hk with h | h
    · exact hp.2.2.2 k h
    · rw [h]; exact hp.2.2.1
  · refine ⟨⟨hl.1.1, ?_, within_or hl.1.2.2.1 (within_bit h8 hc), hl.1.2.2.2⟩, hl.2⟩
    dsimp only; split
    · exact within_zero
    · exact within_and hl.1.2.1

/-! ## Reset, snapshots, and all table writes -/

theorem tables_reset (hok : s.cfg.ok = true) : TablesOk s.resetTable := by
  refine ⟨hok, ⟨by simp [State.resetTable], by simp [State.resetTable], by simp [State.resetTable], fun p hp => ?_⟩,
    fun i hi => ?_, fun c hc => ?_⟩
  · have := List.eq_of_mem_replicate hp
    subst this; simp [Cpu.atReset, State.resetTable]
  · have hi' : i < s.cfg.numIrq := hi
    have : s.resetTable.line i = Line.atReset (cpuAll s.cfg) i := by simp [State.line, State.resetTable, hi']
    rw [this]
    refine ⟨⟨?_, within_zero, within_zero, within_zero⟩, fun h => ?_, fun h => ⟨rfl, rfl⟩, fun h => ?_⟩
    · unfold Line.atReset; dsimp only; split
      · exact within_all
      · exact within_zero
    · simp [Line.atReset, h]; rfl
    · left; unfold Line.atReset; dsimp only; rw [if_neg (by simp only [numPrivate, numSgi] at *; omega)]
  · have hc' : c < s.cfg.numCpu := hc
    have : s.resetTable.cpu c = Cpu.atReset s.cfg.numIrq := by simp [State.cpu, State.resetTable, hc']
    rw [this]
    exact ⟨by simp [Cpu.atReset], by simp [Cpu.atReset], .inl rfl, fun id hid => .inl (List.eq_of_mem_replicate hid)⟩

/-- The lines and CPUs after the assignments of a load (rule R285). -/
theorem loadFields_line {snap : Snapshot} (h1 : i < s.lines.length) (h2 : i < snap.lines.length) :
    (s.loadFields snap).line i = Line.load (s.line i) snap.lines[i] := by
  rw [line_getElem _ (by simp [State.loadFields]; omega)]
  simp [State.loadFields, line_getElem s h1]

theorem loadFields_cpu {snap : Snapshot} (h1 : c < s.cpus.length) (h2 : c < snap.cpus.length) :
    (s.loadFields snap).cpu c = Cpu.load (s.cpu c) snap.cpus[c] := by
  rw [cpu_getElem _ (by simp [State.loadFields]; omega)]
  simp [State.loadFields, cpu_getElem s h1]

theorem tables_load {snap : Snapshot} (ht : TablesOk s) (hs : SnapshotOk s.cfg snap) : TablesOk (s.loadFields snap) := by
  obtain ⟨hfit, hsl, hsc⟩ := hs
  have hsh := ht.2.1
  simp only [Snapshot.fits, Bool.and_eq_true, decide_eq_true_eq, List.all_eq_true] at hfit
  obtain ⟨⟨⟨f1, f2⟩, f3⟩, f4⟩ := hfit
  refine tables_of ht rfl ?_ ?_ ?_ (fun i hi hlo => ?_) (fun c hc hp _ _ => ?_)
  · simp [State.loadFields, hsh.1, f4]
  · rw [hsh.2.1]; simp [State.loadFields, f3]
  · simp [State.loadFields, hsh.2.2.1, f1]
  · have b : i < snap.lines.length := by rw [f4]; exact hi
    rw [loadFields_line (by rw [hsh.1]; exact hi) b]
    have hr := hsl i hi snap.lines[i] (by rw [List.getElem?_eq_getElem b]; rfl)
    exact ⟨hr.1, hr.2.1, fun h => ⟨(hr.2.2.1 h).1, (hlo.2.2.1 h).2⟩, hr.2.2.2⟩
  · have b : c < snap.cpus.length := by rw [f1]; exact hc
    rw [loadFields_cpu (by rw [hsh.2.2.1]; exact hc) b]
    exact ⟨hsc _ (List.getElem_mem b), (f2 _ (List.getElem_mem b)).1, (f2 _ (List.getElem_mem b)).2⟩

/-- Every table write keeps the tables. -/
theorem tableWrite_tables (h : TableWrite s u) (ht : TablesOk s) : TablesOk u := by
  have h8 := numCpu_le ht.1
  cases h with
  | reset => exact tables_reset ht.1
  | rise n =>
    refine tables_onLine ht fun _ hl =>
      ⟨⟨hl.1.1, ?_, hl.1.2.2⟩, hl.2.1, fun h => by simp only [numPrivate] at h; omega, hl.2.2.2⟩
    unfold Line.rise; dsimp only; split
    · exact within_or hl.1.2.1 hl.1.2.2.2
    · exact hl.1.2.1
  | fall n => exact tables_onLine ht fun _ hl => ⟨hl.1, hl.2.1, fun h => ⟨(hl.2.2.1 h).1, rfl⟩, hl.2.2.2⟩
  | bytes hc hb => exact byteWrites_tables hb hc ht
  | sgi c v hc =>
    unfold State.sendSgi; split
    · exact tables_onLine ht fun _ hl => line_pend hl (sgiMask_within h8 hc v)
    · exact ht
  | cpuCtrl c b => exact tables_onCpu ht (fun _ a => a) (by simp) (by simp)
  | primask c b => exact tables_onCpu ht (fun _ a => a) (by simp) (by simp)
  | popped c id prev hc _ _ _ _ hp => exact tables_popped (tables_repended ht hc) (by rw [repended_cfg]; exact hp)
  | spliced c id pred hc => exact tables_splice (tables_pend ht hc)
  | repended c i hc => exact tables_pend ht hc

end Sys2Proof.Machine
end

