-- ==== Sys2Proof/Laws/Wide.lean ====
section
/-! SUPPORT. Accesses of 16 and 32 bits against their bytes: the row of each byte, and why arbitration between the bytes of a
write leaves no trace. -/

namespace Sys2Proof.Machine

variable {s t : State}

/-! ## The rows of the bytes -/

/-- The one-byte read at an offset in the range of a group returns `DistReadByte`. -/
theorem readRow_exec {c off : Nat} {g : Group} (hok : s.cfg.ok = true) (hf : s.fatal = false) (hc : c < s.cfg.numCpu)
    (hg : s.cfg.holds g off) (hne : g ≠ .sgi) :
    exec (readRow c g (off - s.cfg.base g)) s =
      .next { s with response := .data ((s.distReadByte c off).setWidth 32) } := by
  have hk : off - s.cfg.base g < s.cfg.len g := by have := hg.1; have := hg.2; omega
  unfold State.distReadByte
  rw [extentAt_of_holds (mapOk_of_ok hok) hg]
  cases g <;> first | exact absurd rfl hne | exact readByteOf_live hf hc hk

/-- The one-byte write at an offset in the range of a group does `DistWriteByte` and arbitrates. -/
theorem writeRow_exec {c off : Nat} {b : Byte} {g : Group} (hok : s.cfg.ok = true) (hf : s.fatal = false)
    (hc : c < s.cfg.numCpu) (hg : s.cfg.holds g off) (hne : g ≠ .sgi) :
    ∃ i, writeRow c g (off - s.cfg.base g) b = some i ∧
      exec i s = .next { (s.distWriteByte c off b).update with response := .none } := by
  have hk : off - s.cfg.base g < s.cfg.len g := by have := hg.1; have := hg.2; omega
  unfold State.distWriteByte
  rw [extentAt_of_holds (mapOk_of_ok hok) hg]
  cases g <;> first | exact absurd rfl hne | exact ⟨_, rfl, writeByteOf_live hf hc hk⟩

/-! ## States that differ in the outputs of arbitration only -/

/-- `t` is `s` but for the outputs of arbitration and what the last operation returned. -/
def SameTable (s t : State) : Prop :=
  t = { s with cpus := t.cpus, response := t.response } ∧ t.cpus.length = s.cpus.length ∧
    ∀ c, t.cpu c = { s.cpu c with best := (t.cpu c).best, irqOut := (t.cpu c).irqOut }

theorem sameTable_refl (s : State) : SameTable s s := ⟨rfl, rfl, fun _ => rfl⟩

theorem sameTable_update (s : State) (r : Response) : SameTable s { s.update with response := r } :=
  ⟨rfl, by simp, fun c => update_entry s c⟩

theorem sameTable_cfg (h : SameTable s t) : t.cfg = s.cfg := by rw [h.1]

/-- `Update()` takes them to the same state. -/
theorem sameTable_arbitrated (h : SameTable s t) (r : Response) :
    ({ s.update with response := r } : State) = { t.update with response := r } := by
  have hu := update_outputs s t.cpus h.2.1 (fun c => by
    have e : ({ s with cpus := t.cpus } : State).cpu c = t.cpu c := rfl
    rw [e]; exact h.2.2 c)
  rw [← hu]
  obtain ⟨hc, _, _⟩ := h
  have e : t = { ({ s with cpus := t.cpus } : State) with response := t.response } := hc
  conv_rhs => rw [e]
  rfl

theorem sameTable_onLines (h : SameTable s t) (f : Nat → Line → Line) : SameTable (s.onLines f) (t.onLines f) := by
  obtain ⟨h1, h2, h3⟩ := h
  refine ⟨?_, h2, h3⟩
  unfold State.onLines; rw [h1]

theorem sameTable_onLine (h : SameTable s t) (i : Nat) (f : Line → Line) : SameTable (s.onLine i f) (t.onLine i f) := by
  obtain ⟨h1, h2, h3⟩ := h
  refine ⟨?_, h2, h3⟩
  unfold State.onLine; rw [h1]

/-- A byte write does the same to both. -/
theorem sameTable_distWriteByte (h : SameTable s t) (c off : Nat) (b : Byte) :
    SameTable (s.distWriteByte c off b) (t.distWriteByte c off b) := by
  unfold State.distWriteByte
  rw [sameTable_cfg h]
  cases s.cfg.extentAt off with
  | none => exact h
  | some x =>
    dsimp only
    cases x.group with
    | ctrl =>
      dsimp only; unfold State.writeCtrl; split
      · obtain ⟨h1, h2, h3⟩ := h
        refine ⟨?_, h2, h3⟩
        rw [h1]
      · exact h
    | setEnable => dsimp only; unfold State.writeSetEnable; rw [sameTable_cfg h]; exact sameTable_onLines h _
    | clrEnable => exact sameTable_onLines h _
    | setPending => exact sameTable_onLines h _
    | clrPending => exact sameTable_onLines h _
    | active => exact h
    | priority =>
      dsimp only; unfold State.setPrio; split
      · obtain ⟨h1, h2, h3⟩ := h
        refine ⟨?_, by simpa using h2, fun c' => ?_⟩
        · unfold State.onCpu; rw [h1]
        · rw [onCpu_cpu, onCpu_cpu, h2]; split <;> rw [h3 c']
      · obtain ⟨h1, h2, h3⟩ := h
        refine ⟨?_, h2, h3⟩
        rw [h1]
    | target => dsimp only; unfold State.writeTarget; rw [sameTable_cfg h]; exact sameTable_onLine h _ _
    | config => exact sameTable_onLines h _
    | sgi => exact h
    | id => exact h

end Sys2Proof.Machine
end

