-- ==== Sys2Proof/Machine/Pseudo.lean ====
section
/-! DEFINITION. The pseudo-operations of `30_encoding.md` rule R137: each is an abbreviation for a bus transaction (or, for
`SETCFG`, two). They add nothing to the machine. -/

namespace Sys2Proof.Machine

/-- `DW8.c off, b` of rule R136. -/
def dw8 (c off : Nat) (b : Byte) : Txn :=
  { win := .dist, cpu := c, dir := .write, off := BitVec.ofNat 12 off, size := .byte, data := b.setWidth 32 }

/-- `DR8.c off` of rule R136. -/
def dr8 (c off : Nat) : Txn :=
  { win := .dist, cpu := c, dir := .read, off := BitVec.ofNat 12 off, size := .byte, data := 0 }

/-- `DW16.c off, v` of rule R136. -/
def dw16 (c off : Nat) (v : BitVec 16) : Txn :=
  { win := .dist, cpu := c, dir := .write, off := BitVec.ofNat 12 off, size := .half, data := v.setWidth 32 }

/-- `DR16.c off` of rule R136. -/
def dr16 (c off : Nat) : Txn :=
  { win := .dist, cpu := c, dir := .read, off := BitVec.ofNat 12 off, size := .half, data := 0 }

/-- `DW32.c off, v` of rule R136. -/
def dw32 (c off : Nat) (v : Word) : Txn :=
  { win := .dist, cpu := c, dir := .write, off := BitVec.ofNat 12 off, size := .word, data := v }

/-- `DR32.c off` of rule R136. -/
def dr32 (c off : Nat) : Txn :=
  { win := .dist, cpu := c, dir := .read, off := BitVec.ofNat 12 off, size := .word, data := 0 }

/-- `CW.c off, v` of rule R136. -/
def cw (c off : Nat) (v : Word) : Txn :=
  { win := .cpuif, cpu := c, dir := .write, off := BitVec.ofNat 12 off, size := .word, data := v }

/-- `CR.c off` of rule R136. -/
def cr (c off : Nat) : Txn :=
  { win := .cpuif, cpu := c, dir := .read, off := BitVec.ofNat 12 off, size := .word, data := 0 }

/-- The byte with the one bit of line `i`. -/
def lineBit (i : Nat) : Byte := 1#8 <<< (i % 8)

/-- `ENABLE.c i`. -/
def pseudoEnable (cfg : Config) (c i : Nat) : Txn := dw8 c (cfg.offSetEnable + i / 8) (lineBit i)

/-- `DISABLE.c i`. -/
def pseudoDisable (cfg : Config) (c i : Nat) : Txn := dw8 c (cfg.offClrEnable + i / 8) (lineBit i)

/-- `SETPEND.c i`. -/
def pseudoSetPend (cfg : Config) (c i : Nat) : Txn := dw8 c (cfg.offSetPending + i / 8) (lineBit i)

/-- `CLRPEND.c i`. -/
def pseudoClrPend (cfg : Config) (c i : Nat) : Txn := dw8 c (cfg.offClrPending + i / 8) (lineBit i)

/-- `SETPRIO.c i, p`. -/
def pseudoSetPrio (cfg : Config) (c i : Nat) (p : Byte) : Txn := dw8 c (cfg.offPriority + i) p

/-- `SETTARGET.c i, m`. -/
def pseudoSetTarget (cfg : Config) (c i : Nat) (m : Byte) : Txn := dw8 c (cfg.offTarget + i) m

/-- The read of `SETCFG.c i, model, trig`. -/
def pseudoSetCfgRead (cfg : Config) (c i : Nat) : Txn := dr8 c (cfg.offConfig + i / 4)

/-- The byte `SETCFG.c i, model, trig` writes back after reading `old`: bits `2*(i mod 4)+1 : 2*(i mod 4)` replaced by
`trig : model`. -/
def setCfgByte (i : Nat) (model : RoutingModel) (trig : Trigger) (old : Byte) : Byte :=
  let at_ := 2 * (i % 4)
  let field : Byte := (if model = .oneN then 1#8 else 0#8) ||| (if trig = .edge then 2#8 else 0#8)
  old &&& ~~~(3#8 <<< at_) ||| field <<< at_

/-- The write of `SETCFG.c i, model, trig`, after its read returned `old`: "two operations, not atomic together". -/
def pseudoSetCfgWrite (cfg : Config) (c i : Nat) (model : RoutingModel) (trig : Trigger) (old : Byte) : Txn :=
  dw8 c (cfg.offConfig + i / 4) (setCfgByte i model trig old)

/-- `SGI.c filter, mask, id`. -/
def pseudoSgi (cfg : Config) (c : Nat) (filter : BitVec 2) (mask : Byte) (id : IrqId) : Txn :=
  dw32 c cfg.offSgi ((filter.setWidth 32 <<< 24) ||| (mask.setWidth 32 <<< 16) ||| id.setWidth 32)

/-- `ACK.c`. -/
def pseudoAck (c : Nat) : Txn := cr c 0x0C

/-- `EOI.c id`. -/
def pseudoEoi (c : Nat) (id : IrqId) : Txn := cw c 0x10 (id.setWidth 32)

end Sys2Proof.Machine
end

