-- ==== Sys2Proof/Tests/Slice0.lean ====
section
/-! SUPPORT. Tests: what `WellFormed` refuses, the words of the operation table, one step of each operation against the
vectors of `95_test_vectors.md`, and a witness for the hypotheses of each statement. -/

namespace Sys2Proof.Tests

open Sys2Proof Sys2Proof.Machine

-- Checked one after the other: so many small evaluations at once need more threads than the sandbox gives.
set_option Elab.async false

/-! ## Helpers -/

/-- A snapshot layout: bytes as narrow as each field allows, one entry per CPU of two. -/
def snapshotLayout : SnapshotFormat where
  versionBytes := 4
  distEnabledBytes := 1
  cpuEnabledBytes := 1
  prioPrivBytes := 1
  lastActiveBytes := 2
  prioMaskBytes := 1
  runIdBytes := 2
  runPrioBytes := 2
  bestPendingBytes := 2
  prioSharedBytes := 1
  targetBytes := 1
  cpuEntries := 2
  grouping := .maskInRecord
  leastFirst := true

/-- Parameters with every open value given, as the vectors give them. -/
def params (irqs cpus : Nat) : Config :=
  { Config.withDefaults irqs cpus [0x11, 0x22, 0x33, 0x44, 0x55, 0x66, 0x77, 0x88] 7 with
    distBase := 0
    cpuBase := []
    snapshotFormat := snapshotLayout }

/-- A fresh instance. -/
def fresh (irqs cpus : Nat) : State := State.initial (params irqs cpus)

/-- A fresh instance of 64 lines with every gate open. -/
def open_ (cpus : Nat) : State :=
  { fresh 64 cpus with
    distEnabled := true
    cpus := List.replicate cpus { Cpu.atReset 64 with enabled := true } }

/-- Shared line `i` set up as the vectors do: a target mask, enabled, a priority, a trigger. -/
def lined (s : State) (i : Nat) (target : CpuSet) (p : Byte) (trigger : Trigger) : State :=
  (s.onLine i fun l => { l with target := target, enabled := 3, trigger := trigger }).setPrio 0 i p

/-- Shared line `i` raised and pending for CPU 0, which shows it as its best line. -/
def pended (s : State) (i : Nat) : State :=
  (s.onLine i fun l => { l with pending := 1, level := true }).onCpu 0 fun p =>
    { p with best := BitVec.ofNat 10 i, irqOut := true }

/-- CPU 0 has claimed shared line `i` at priority `p`, and nothing is pending for it. -/
def claimed (s : State) (i : Nat) (p : RunPrio) : State :=
  (s.onLine i fun l => { l with pending := 0, active := 1, level := true }).onCpu 0 fun q =>
    { q with best := 1023, irqOut := false, lastActive := q.lastActive.set i q.runId,
             runId := BitVec.ofNat 10 i, runPrio := p }

/-- The next state of an operation. -/
def next (i : Instr) (s : State) : Option State :=
  match exec i s with
  | .next t => some t
  | _ => none

/-- The value an operation returns. -/
def value (i : Instr) (s : State) : Option Word :=
  match exec i s with
  | .next { response := .data v, .. } => some v
  | _ => none

/-- The value a register transaction returns. -/
def reads (t : Txn) (s : State) : Option Word :=
  match issue (.bus t) s with
  | .next { response := .data v, .. } => some v
  | _ => none

/-- The state a register transaction leaves. -/
def writes (t : Txn) (s : State) : Option State :=
  match issue (.bus t) s with
  | .next t => some t
  | _ => none

/-- The register transaction ends in a fatal error that changes no table. -/
def dies (t : Txn) (s : State) : Bool :=
  match issue (.bus t) s with
  | .next u => u.fatal && (u.lines = s.lines && u.prioShared = s.prioShared && u.cpus = s.cpus)
  | _ => false

/-- The fault an operation ends in. -/
def faultOf (i : Instr) (s : State) : Option Fault :=
  match exec i s with
  | .fault f => some f
  | _ => none

/-- The next state of a step. -/
def stepped (s : State) : Option State :=
  match step s with
  | .next t => some t
  | _ => none

/-- The refusal a step ends in. -/
def refusal (s : State) : Option Refusal :=
  match step s with
  | .refused r => some r
  | _ => none

/-- Two lines as in program P2 of the vectors: line 40 of priority 0x20 and line 41 of priority 0x10, for CPU 0. -/
def two : State := lined (lined (open_ 2) 40 1 0x20 .edge) 41 1 0x10 .edge

/-- Program P2 before its step 8: line 40 pending for CPU 0. -/
def one : State := pended two 40

/-- After its step 8: CPU 0 running line 40 over nothing. -/
def running : State := claimed two 40 0x20

/-- After its step 9: line 41 pending beside it. -/
def preempting : State := pended running 41

/-- After its step 10: CPU 0 running line 41 over line 40. -/
def nested : State := claimed running 41 0x10

/-- As `nested`, with line 43 level-triggered, raised, enabled, targeted at CPU 0 and not pending. -/
def nestedLevel : State := lined (nested.onLine 43 fun l => { l with level := true }) 43 1 0x50 .level

/-- As `nested`, with line 40 level-triggered and still raised. -/
def nestedRaised : State := nested.onLine 40 fun l => { l with trigger := .level }

/-- Line 40 under the 1:N model, pending for both CPUs (program P3). -/
def broadcast : State :=
  { (lined (open_ 2) 40 3 0x40 .edge).onLine 40 fun l => { l with model := .oneN, pending := 3, level := true } with
    cpus := List.replicate 2 { Cpu.atReset 64 with enabled := true, best := 40, irqOut := true } }

/-- Vector V-C9 after the second claim and the pop: line 40 is its own predecessor. -/
def cyclic : State :=
  (open_ 1).onCpu 0 fun p => { p with runId := 40, runPrio := 0x05, lastActive := p.lastActive.set 40 40 }

/-! ## What `WellFormed` refuses -/

theorem test_wf_numIrq_zero : (params 0 2).ok = false := by decide +kernel
theorem test_wf_numIrq_not_multiple : (params 40 2).ok = false := by decide +kernel
theorem test_wf_numIrq_too_many : (params 1024 2).countsOk = false := by decide +kernel
theorem test_wf_numCpu_zero : (params 64 0).ok = false := by decide +kernel
theorem test_wf_numCpu_too_many : (params 64 9).ok = false := by decide +kernel
theorem test_wf_embedded : { params 64 2 with mode := .embedded }.ok = false := by decide +kernel
theorem test_wf_seven_id_bytes : { params 64 2 with idBytes := [1, 2, 3, 4, 5, 6, 7] }.ok = false := by decide +kernel
theorem test_wf_overlap : { params 64 2 with offClrEnable := 0x104 }.ok = false := by decide +kernel
theorem test_wf_past_window : { params 64 2 with offSgi := 0xFFE }.mapOk = false := by decide +kernel
theorem test_wf_accepts : (params 64 2).ok = true ∧ (params 32 1).ok = true ∧ (params 992 8).ok = true := by decide +kernel

/-- Every refusal here differs in one operand from the term beside it, which is accepted. -/
theorem test_wf_set_line :
    Instr.wf (params 64 2) (.setLine 31 1) = true ∧ Instr.wf (params 64 2) (.setLine 32 1) = false ∧
    Instr.wf (params 64 2) (.setLine 0 2) = false := by decide +kernel

theorem test_wf_no_such_cpu :
    Instr.wf (params 64 2) (.cpuAckR 1) = true ∧ Instr.wf (params 64 2) (.cpuAckR 2) = false ∧
    Instr.wf (params 64 2) (.distCtrlR 2 0) = false ∧ Instr.wf (params 64 2) (.distSgiW 2 0) = false ∧
    Instr.wf (params 64 2) (.cpuEoiW 2 0) = false := by decide +kernel

theorem test_wf_byte_out_of_range :
    Instr.wf (params 64 2) (.distCtrlW 0 4 0) = false ∧ Instr.wf (params 64 2) (.distSetEnableW 0 8 0) = false ∧
    Instr.wf (params 64 2) (.distClrPendingR 0 8) = false ∧ Instr.wf (params 64 2) (.distActiveR 0 8) = false ∧
    Instr.wf (params 64 2) (.distPriorityW 0 64 0) = false ∧ Instr.wf (params 64 2) (.distTargetR 0 64) = false ∧
    Instr.wf (params 64 2) (.distConfigR 0 16) = false ∧ Instr.wf (params 64 2) (.distSgiR 0 4) = false ∧
    Instr.wf (params 64 2) (.distIdR 0 32) = false := by decide +kernel

theorem test_wf_snapshot_shape :
    Instr.wf (params 64 2) (.snapshotLoad (fresh 64 2).save) = true ∧
    Instr.wf (params 64 2) (.snapshotLoad (fresh 32 2).save) = false ∧
    Instr.wf (params 64 2) (.snapshotLoad (fresh 64 1).save) = false := by decide +kernel

/-! ## Decoding

The words are the rows of the operation table of `30_encoding.md` (rules R102, R104 and R120): bit 13 the window, bit 12
the direction, bits 11:0 the offset; the CPU index and the data as in assumption log 7. One word per family is written bit
by bit. -/

theorem test_decode_bits :
    decodeTableWord 16 0b00000000000000 = some (.distCtrlR 0 0) ∧
    decodeTableWord 16 0b01000110000101 = some (.distClrEnableW 0 5 0) ∧
    decodeTableWord 16 0b00010000101000 = some (.distPriorityR 0 40) ∧
    decodeTableWord 16 0b01110000001010 = some (.distConfigW 0 10 0) ∧
    decodeTableWord 16 0b01111100000000 = some (.distSgiW 0 0) ∧
    decodeTableWord 16 0b00111111100100 = some (.distIdR 0 4) ∧
    decodeTableWord 16 0b10000000001100 = some (.cpuAckR 0) ∧
    decodeTableWord 16 0b11000000010000 = some (.cpuEoiW 0 0) := by decide +kernel

theorem test_decode_ctrl :
    decodeTableWord 16 0x0003 = some (.distCtrlR 0 3) ∧ decodeTableWord 16 0x1000 = some (.distCtrlW 0 0 0) ∧
    decodeTableWord 64 (0x1000 + 1 * 2 ^ 16 + 0xFE * 2 ^ 32) = some (.distCtrlW 1 0 0xFE) := by decide +kernel

theorem test_decode_enable :
    decodeTableWord 16 0x0100 = some (.distSetEnableR 0 0) ∧ decodeTableWord 16 0x1107 = some (.distSetEnableW 0 7 0) ∧
    decodeTableWord 16 0x0187 = some (.distClrEnableR 0 7) ∧ decodeTableWord 16 0x1180 = some (.distClrEnableW 0 0 0) := by
  decide +kernel

theorem test_decode_pending :
    decodeTableWord 16 0x0205 = some (.distSetPendingR 0 5) ∧ decodeTableWord 16 0x1202 = some (.distSetPendingW 0 2 0) ∧
    decodeTableWord 16 0x0282 = some (.distClrPendingR 0 2) ∧ decodeTableWord 16 0x1285 = some (.distClrPendingW 0 5 0) := by
  decide +kernel

theorem test_decode_active :
    decodeTableWord 16 0x0305 = some (.distActiveR 0 5) ∧ decodeTableWord 16 0x1304 = some (.distActiveW 0 4 0) := by
  decide +kernel

theorem test_decode_priority_target_config :
    decodeTableWord 16 0x143F = some (.distPriorityW 0 63 0) ∧ decodeTableWord 16 0x081E = some (.distTargetR 0 30) ∧
    decodeTableWord 16 0x1828 = some (.distTargetW 0 40 0) ∧ decodeTableWord 16 0x0C0F = some (.distConfigR 0 15) := by
  decide +kernel

theorem test_decode_sgi_id :
    decodeTableWord 16 0x0F00 = some (.distSgiR 0 0) ∧ decodeTableWord 16 0x0F03 = some (.distSgiR 0 3) ∧
    decodeTableWord 16 0x1FFF = some (.distIdW 0 31 0) ∧
    decodeTableWord 64 (0x1F00 + 1 * 2 ^ 16 + 0x02000007 * 2 ^ 32) = some (.distSgiW 1 0x02000007) := by decide +kernel

theorem test_decode_cpu_reads :
    decodeTableWord 16 0x2000 = some (.cpuCtrlR 0) ∧ decodeTableWord 16 0x2004 = some (.cpuPrimaskR 0) ∧
    decodeTableWord 16 0x2008 = some (.cpuBinpointR 0) ∧ decodeTableWord 16 0x2010 = some (.cpuEoiR 0) ∧
    decodeTableWord 16 0x2014 = some (.cpuRunpriR 0) ∧ decodeTableWord 16 0x2018 = some (.cpuHipendR 0) := by decide +kernel

theorem test_decode_cpu_writes :
    decodeTableWord 16 0x3000 = some (.cpuCtrlW 0 0) ∧ decodeTableWord 16 0x3004 = some (.cpuPrimaskW 0 0) ∧
    decodeTableWord 16 0x3008 = some (.cpuBinpointW 0 0) ∧ decodeTableWord 16 0x300C = some (.cpuAckW 0 0) ∧
    decodeTableWord 16 0x3014 = some (.cpuRunpriW 0 0) ∧ decodeTableWord 16 0x3018 = some (.cpuHipendW 0 0) := by
  decide +kernel

/-- Offsets in no range, a selector of more than 14 bits, and fewer than eight bytes are no instruction. -/
theorem test_decode_refuses :
    decodeTableWord 16 0x0004 = none ∧ decodeTableWord 16 0x0108 = none ∧ decodeTableWord 16 0x1440 = none ∧
    decodeTableWord 16 0x1F01 = none ∧ decodeTableWord 16 0x2002 = none ∧ decodeTableWord 16 0x301C = none ∧
    decodeTableWord 16 0x4000 = none ∧ (decode (params 64 2) [0x00, 0x20]).toOption = none := by decide +kernel

/-- The word of an encoded operation is the one the table gives; the four host rows have none. -/
theorem test_encode :
    encodeWord (params 64 2) (.distTargetW 1 40 0xFF) = some (0x1828 + 1 * 2 ^ 16 + 0xFF * 2 ^ 32) ∧
    encodeWord (params 64 2) (.cpuHipendR 1) = some (0x2018 + 1 * 2 ^ 16) ∧
    encode (params 64 2) .reset = none ∧ encode (params 64 2) (.setLine 0 0) = none ∧
    encode (params 64 2) .snapshotSave = none ∧ encode (params 64 2) (.snapshotLoad (fresh 64 2).save) = none := by
  decide +kernel

/-! ## One step of each operation

Sources: the vectors `V-…` and programs `P…` of `95_test_vectors.md`. -/

/-- V-R2. -/
theorem test_reset_ends_nesting :
    (next .reset nested).map (fun t => ((t.cpu 0).runId, (t.line 40).level, t.distEnabled)) =
      some (1023, false, false) := by decide +kernel

/-- V-L1 and V-L2. -/
theorem test_set_line_edge_latches_targets :
    (next (.setLine 8 1) ((fresh 64 2).onLine 40 fun l => { l with trigger := .edge })).map
        (fun t => ((t.line 40).level, (t.line 40).pending)) = some (true, 0) ∧
    (next (.setLine 8 1) ((fresh 64 2).onLine 40 fun l => { l with trigger := .edge, target := 2 })).map
        (fun t => (t.line 40).pending) = some 2 := by decide +kernel

/-- V-L4 and V-L5. -/
theorem test_set_line_level_needs_enable :
    (next (.setLine 9 1) ((fresh 64 2).onLine 41 fun l => { l with target := 1 })).map
        (fun t => ((t.line 41).level, (t.line 41).pending)) = some (true, 0) ∧
    (next (.setLine 9 1) (lined (fresh 64 2) 41 1 0 .level)).map (fun t => (t.line 41).pending) = some 1 ∧
    (next (.setLine 11 0) (pended (lined (open_ 1) 43 1 0 .level) 43)).map
        (fun t => ((t.line 43).level, (t.line 43).pending)) = some (false, 1) := by decide +kernel

/-- V-D1. -/
theorem test_dist_ctrl_read : value (.distCtrlR 1 0) (open_ 2) = some 1 ∧ value (.distCtrlR 1 1) (open_ 2) = some 0 := by
  decide +kernel

/-- V-D1. -/
theorem test_dist_ctrl_write :
    (next (.distCtrlW 0 0 0xFE) (open_ 2)).map (·.distEnabled) = some false ∧
    (next (.distCtrlW 0 1 0xFF) (fresh 64 2)).map (·.distEnabled) = some false ∧
    (next (.distCtrlW 0 0 0xFF) (fresh 64 2)).map (·.distEnabled) = some true := by decide +kernel

/-- V-R1 and V-D2. -/
theorem test_set_enable_read :
    value (.distSetEnableR 1 1) (fresh 64 2) = some 0xFF ∧ value (.distSetEnableR 1 2) (fresh 64 2) = some 0 ∧
    value (.distSetEnableR 1 2) ((fresh 64 2).onLine 20 fun l => { l with enabled := 2 }) = some 0x10 := by decide +kernel

/-- V-D2. -/
theorem test_set_enable_write_banks_private :
    (next (.distSetEnableW 1 2 0x10) (fresh 64 2)).map (fun t => (t.line 20).enabled) = some 2 ∧
    (next (.distSetEnableW 1 5 0x01) (fresh 64 2)).map (fun t => (t.line 40).enabled) = some 3 := by decide +kernel

/-- V-L4, with the option. -/
theorem test_set_enable_write_pends_raised_level :
    (next (.distSetEnableW 0 5 0x02)
        ({ fresh 64 2 with cfg := { params 64 2 with pendLevelOnEnable := true } }.onLine 41 fun l =>
          { l with target := 1, level := true })).map (fun t => (t.line 41).pending) = some 1 ∧
    (next (.distSetEnableW 0 5 0x02) ((fresh 64 2).onLine 41 fun l => { l with target := 1, level := true })).map
        (fun t => (t.line 41).pending) = some 0 := by decide +kernel

/-- V-R1 and V-D3. -/
theorem test_clr_enable_read :
    value (.distClrEnableR 0 0) (fresh 64 2) = some 0xFF ∧ value (.distClrEnableR 0 4) (fresh 64 2) = some 0 := by
  decide +kernel

/-- V-D3. -/
theorem test_clr_enable_write_keeps_sgis :
    (next (.distClrEnableW 0 0 0x20) (fresh 64 2)).map (fun t => (t.line 5).enabled) = some 3 ∧
    (next (.distClrEnableW 1 2 0xFF) ((fresh 64 2).onLine 20 fun l => { l with enabled := 3 })).map
        (fun t => (t.line 20).enabled) = some 1 := by decide +kernel

/-- V-D2. -/
theorem test_clr_enable_write_shared :
    (next (.distClrEnableW 0 5 0x01) one).map (fun t => ((t.line 40).enabled, (t.line 41).enabled)) = some (0, 3) := by
  decide +kernel

/-- V-L2 and V-D4. -/
theorem test_set_pending_read :
    value (.distSetPendingR 1 5) one = some 0x01 ∧
    value (.distSetPendingR 0 2) ((fresh 64 2).onLine 20 fun l => { l with pending := 2 }) = some 0 ∧
    value (.distSetPendingR 1 2) ((fresh 64 2).onLine 20 fun l => { l with pending := 2 }) = some 0x10 := by decide +kernel

/-- V-D4. -/
theorem test_set_pending_write_private :
    (next (.distSetPendingW 1 2 0x10) (fresh 64 2)).map (fun t => (t.line 20).pending) = some 2 ∧
    (next (.distSetPendingW 0 0 0xFF) (fresh 64 2)).map (fun t => (t.line 5).pending) = some 0 := by decide +kernel

/-- V-D4. -/
theorem test_set_pending_write_shared :
    (next (.distSetPendingW 0 5 0x01) (fresh 64 2)).map (fun t => (t.line 40).pending) = some 0 ∧
    (next (.distSetPendingW 0 5 0x01) ((fresh 64 2).onLine 40 fun l => { l with target := 2 })).map
        (fun t => (t.line 40).pending) = some 2 := by decide +kernel

theorem test_clr_pending_read : value (.distClrPendingR 1 5) one = some 0x01 := by decide +kernel

/-- V-D5. -/
theorem test_clr_pending_write_is_not_banked :
    (next (.distClrPendingW 0 2 0x10) ((fresh 64 2).onLine 20 fun l => { l with pending := 3 })).map
        (fun t => (t.line 20).pending) = some 0 := by decide +kernel

/-- V-C6. -/
theorem test_clr_pending_write_arbitrates :
    (preempting.cpu 0).irqOut = true ∧
    (next (.distClrPendingW 0 5 0x02) preempting).map
        (fun t => ((t.cpu 0).best, (t.cpu 0).irqOut, (t.cpu 0).runPrio)) = some (1023, false, 0x20) := by decide +kernel

/-- P2, step 11. -/
theorem test_active_read : value (.distActiveR 0 5) nested = some 0x03 := by decide +kernel

/-- V-D11. -/
theorem test_active_write_is_ignored :
    next (.distActiveW 0 5 0xFF) nested = some { nested with response := .none } := by decide +kernel

/-- V-D6. -/
theorem test_priority_read : value (.distPriorityR 1 41) one = some 0x10 ∧ value (.distPriorityR 0 3) one = some 0 := by
  decide +kernel

/-- V-D6. -/
theorem test_priority_write_banks_private :
    (next (.distPriorityW 1 3 0x30) (fresh 64 2)).map (fun t => (t.prio 3 0, t.prio 3 1)) = some (0, 0x30) ∧
    (next (.distPriorityW 1 40 0x77) (fresh 64 2)).map (fun t => (t.prio 40 0, t.prio 41 0)) = some (0x77, 0) := by
  decide +kernel

/-- V-R1. -/
theorem test_target_read :
    value (.distTargetR 1 30) (fresh 64 2) = some 2 ∧ value (.distTargetR 1 28) (fresh 64 2) = some 0 ∧
    value (.distTargetR 0 32) (fresh 64 2) = some 0 := by decide +kernel

/-- V-D7. -/
theorem test_target_write_private :
    (next (.distTargetW 1 5 0xFF) (fresh 64 2)).map (fun t => (t.line 5).target) = some 2 ∧
    (next (.distTargetW 0 28 0x00) (fresh 64 2)).map (fun t => (t.line 28).target) = some 1 ∧
    (next (.distTargetW 0 29 0x00) (fresh 64 2)).map (fun t => (t.line 29).target) = some 3 := by decide +kernel

/-- V-D7. -/
theorem test_target_write_shared :
    (next (.distTargetW 0 40 0xFF) (fresh 64 2)).map (fun t => (t.line 40).target) = some 3 := by decide +kernel

/-- V-R1 and V-D8. -/
theorem test_config_read :
    value (.distConfigR 0 3) (fresh 64 2) = some 0xAA ∧ value (.distConfigR 0 4) (fresh 64 2) = some 0 ∧
    value (.distConfigR 1 10) broadcast = some 0x03 := by decide +kernel

/-- V-D8. -/
theorem test_config_write :
    (next (.distConfigW 0 10 0x30) (fresh 64 2)).map
        (fun t => ((t.line 42).trigger, (t.line 42).model, (t.line 41).trigger, (t.line 41).model)) =
      some (.edge, .oneN, .level, .nn) ∧
    (next (.distConfigW 0 4 0x00) (fresh 64 2)).map (fun t => ((t.line 16).trigger, (t.line 19).model)) =
      some (.edge, .nn) := by decide +kernel

/-- V-D9. -/
theorem test_sgi_write_filters :
    (next (.distSgiW 1 0x00050007) (fresh 32 4)).map (fun t => (t.line 7).pending) = some 5 ∧
    (next (.distSgiW 1 0x01000007) (fresh 32 4)).map (fun t => (t.line 7).pending) = some 13 ∧
    (next (.distSgiW 1 0x02000007) (fresh 32 4)).map (fun t => (t.line 7).pending) = some 2 ∧
    (next (.distSgiW 1 0x03000007) (fresh 32 4)).map (fun t => (t.line 7).pending) = some 15 ∧
    (next (.distSgiW 1 0x00FF0007) (fresh 32 4)).map (fun t => (t.line 7).pending) = some 15 := by decide +kernel

/-- V-D9. -/
theorem test_sgi_write_ids :
    next (.distSgiW 1 0x000003FF) (fresh 32 4) = some (fresh 32 4) ∧
    next (.distSgiW 1 0x00010020) (fresh 32 4) = some (fresh 32 4) ∧
    (next (.distSgiW 0 0x00020028) (fresh 64 2)).map (fun t => (t.line 40).pending) = some 2 := by decide +kernel

/-- V-D12. -/
theorem test_sgi_read_is_fatal :
    next (.distSgiR 0 0) (fresh 64 2) = some ((fresh 64 2).died (.undecodedOffset .dist 0 .read 0xF00 1)) := by
  decide +kernel

/-- V-D10. -/
theorem test_id_read :
    value (.distIdR 0 0) (fresh 64 2) = some 0x11 ∧ value (.distIdR 0 4) (fresh 64 2) = some 0x22 ∧
    value (.distIdR 0 5) (fresh 64 2) = some 0 ∧ value (.distIdR 0 28) (fresh 64 2) = some 0x88 := by decide +kernel

/-- V-D10. -/
theorem test_id_write_is_ignored : next (.distIdW 0 0 0xFF) (fresh 64 2) = some (fresh 64 2) := by decide +kernel

/-- V-C1. -/
theorem test_cpu_ctrl_read : value (.cpuCtrlR 0) (open_ 2) = some 1 ∧ value (.cpuCtrlR 0) (fresh 64 2) = some 0 := by
  decide +kernel

/-- V-C1. -/
theorem test_cpu_ctrl_write :
    (next (.cpuCtrlW 0 0xFFFFFFFE) (open_ 2)).map (fun t => ((t.cpu 0).enabled, (t.cpu 1).enabled)) =
      some (false, true) ∧
    (next (.cpuCtrlW 0 3) (fresh 64 2)).map (fun t => (t.cpu 0).enabled) = some true := by decide +kernel

theorem test_primask_read : value (.cpuPrimaskR 1) (fresh 64 2) = some 0xFF := by decide +kernel

/-- V-C2 and V-A3. -/
theorem test_primask_write :
    (next (.cpuPrimaskW 0 0x12345678) (fresh 64 2)).map (fun t => (t.cpu 0).prioMask) = some 0x78 ∧
    (next (.cpuPrimaskW 0 0x20) one).map (fun t => (t.cpu 0).irqOut) = some true ∧
    (next (.cpuPrimaskW 0 0x1F) one).map (fun t => ((t.cpu 0).irqOut, (t.cpu 0).best)) = some (false, 40) := by
  decide +kernel

theorem test_binpoint_read :
    value (.cpuBinpointR 0) ((fresh 64 2).onCpu 0 fun p => { p with binPoint := 0xDEADBEEF }) = some 0xDEADBEEF := by
  decide +kernel

/-- V-C3. -/
theorem test_binpoint_write :
    (next (.cpuBinpointW 0 0xDEADBEEF) one).map (fun t => ((t.cpu 0).binPoint, (t.cpu 1).binPoint, (t.cpu 0).best)) =
      some (0xDEADBEEF, 0, 40) := by decide +kernel

/-- P3, step 15: the 1:N claim; V-A2: an equal priority does not preempt. -/
theorem test_ack_claims :
    (next (.cpuAckR 0) broadcast).map
        (fun t => ((t.line 40).pending, (t.line 40).active, (t.cpu 0).runPrio, (t.cpu 1).best, t.response)) =
      some (0, 1, 0x40, 1023, .data 40) ∧
    value (.cpuAckR 0) (pended (lined running 42 1 0x20 .edge) 42) = some 1023 := by decide +kernel

/-- P2, step 10. -/
theorem test_ack_pushes :
    (next (.cpuAckR 0) preempting).map
        (fun t => ((t.cpu 0).lastActive[41]?, (t.cpu 0).runId, (t.cpu 0).runPrio, (t.line 41).pending)) =
      some (some 40, 41, 0x10, 0) := by decide +kernel

/-- V-C4. -/
theorem test_ack_write_is_ignored : next (.cpuAckW 0 41) nested = some { nested with response := .none } := by
  decide +kernel

/-- V-C4. -/
theorem test_eoi_read_is_fatal :
    next (.cpuEoiR 1) (fresh 64 2) = some ((fresh 64 2).died (.undecodedOffset .cpuif 1 .read 0x10 4)) := by decide +kernel

/-- P2, steps 12 and 15, and V-C5. -/
theorem test_eoi_write_splices_and_pops :
    (next (.cpuEoiW 0 40) nested).map
        (fun t => ((t.cpu 0).lastActive[41]?, (t.line 40).active, (t.cpu 0).runId, (t.cpu 0).runPrio)) =
      some (some 1023, 0, 41, 0x10) ∧
    (next (.cpuEoiW 0 0xFFFFFC29) nested).map (fun t => ((t.line 41).active, (t.cpu 0).runId, (t.cpu 0).runPrio)) =
      some (0, 40, 0x20) ∧
    next (.cpuEoiW 0 64) nested = some { nested with response := .none } := by decide +kernel

/-- V-C8, P4 step 8, and V-C9. -/
theorem test_eoi_write_repends_and_gets_stuck :
    (next (.cpuEoiW 0 43) nestedLevel).map (fun t => ((t.line 43).pending, (t.cpu 0).best, (t.cpu 0).runId)) =
      some (1, 43, 41) ∧
    (next (.cpuEoiW 0 40) nestedRaised).map (fun t => ((t.line 40).pending, (t.line 40).active)) = some (1, 0) ∧
    (next (.cpuEoiW 0 40) cyclic).map (fun t => ((t.cpu 0).runId, (t.cpu 0).runPrio)) = some (40, 0) ∧
    faultOf (.cpuEoiW 0 41) cyclic = some .eoiWalkDiverges := by decide +kernel

/-- V-R1 and P2, step 14. -/
theorem test_runpri_read : value (.cpuRunpriR 0) (fresh 64 2) = some 0x100 ∧ value (.cpuRunpriR 0) nested = some 0x10 := by
  decide +kernel

/-- V-C4. -/
theorem test_runpri_write_is_ignored : next (.cpuRunpriW 0 1) nested = some { nested with response := .none } := by
  decide +kernel

/-- V-R1 and P1, step 9. -/
theorem test_hipend_read : value (.cpuHipendR 0) (fresh 64 2) = some 0x3FF ∧ value (.cpuHipendR 0) one = some 0x28 := by
  decide +kernel

/-- V-C4. -/
theorem test_hipend_write_is_ignored : next (.cpuHipendW 0 1) one = some { one with response := .none } := by
  decide +kernel

/-- V-S1. -/
theorem test_snapshot_round_trip :
    (next .snapshotSave nested).map (·.response) = some (.snapshot nested.save) ∧
    next (.snapshotLoad nested.save) nested = some { nested with response := .none } ∧
    (next (.snapshotLoad nested.save) (fresh 64 2)).map
        (fun t => ((t.cpu 0).runId, (t.cpu 0).lastActive[41]?, (t.line 40).active, (t.line 40).level)) =
      some (41, some 40, 1, false) := by decide +kernel

/-- V-S2. -/
theorem test_snapshot_version :
    next (.snapshotLoad { nested.save with version := 8 }) one = some (one.died (.snapshotVersion 8)) := by decide +kernel

/-! ## Whole accesses and steps -/

/-- V-R1. -/
theorem test_wide_reads :
    reads (dr32 0 0x100) (fresh 64 2) = some 0x0000FFFF ∧ reads (dr32 1 0x81C) (fresh 64 2) = some 0x02020200 ∧
    reads (dr32 0 0xC00) (fresh 64 2) = some 0xAAAAAAAA ∧ reads (dr16 0 0xFFC) (fresh 64 2) = some 0x0088 := by
  decide +kernel

/-- V-D6: little-endian composition. -/
theorem test_wide_write :
    (writes (dw16 0 0x428 0x0810) (fresh 64 2)).map (fun t => (t.prio 40 0, t.prio 41 0)) = some (0x10, 0x08) := by
  decide +kernel

/-- V-D12. -/
theorem test_fatal_accesses :
    dies (dr32 0 0x004) (fresh 64 2) = true ∧ dies (dr8 0 0x108) (fresh 64 2) = true ∧
    dies (dr32 0 0x106) (fresh 64 2) = true ∧ dies (dr32 0 0xF00) (fresh 64 2) = true ∧
    dies (dr32 0 0xFFE) (fresh 64 2) = true ∧ dies (dw8 0 0xF00 0) (fresh 64 2) = true ∧
    dies (dw16 0 0xF02 0) (fresh 64 2) = true ∧ dies (dw8 0 0x440 0) (fresh 64 2) = true ∧
    dies (dw32 0 0x43E 0x11223344) (fresh 64 2) = true := by decide +kernel

/-- V-C4. -/
theorem test_fatal_cpu_accesses :
    dies (cr 0 0x10) (fresh 64 2) = true ∧ dies (cw 0 0x1C 0) (fresh 64 2) = true ∧ dies (cr 0 0x20) (fresh 64 2) = true ∧
    dies { cr 0 0x00 with size := .half } (fresh 64 2) = true ∧ dies (cr 0 0x02) (fresh 64 2) = true := by decide +kernel

/-- P5, steps 19 and 20. -/
theorem test_fatal_is_terminal :
    stepped { fresh 64 2 with inbox := [.bus (dr32 0 0x004), .reset] } =
      some ({ fresh 64 2 with inbox := [.reset] }.died (.undecodedOffset .dist 0 .read 0x004 4)) ∧
    refusal ({ fresh 64 2 with inbox := [.reset] }.died (.undecodedOffset .dist 0 .read 0x004 4)) =
      some .fatalState := by decide +kernel

/-- A placed word runs as the first operation, and an idle machine stays as it is. -/
theorem test_step :
    (stepped (one.withFetchWord 16 0x2018)).map (·.response) = some (.data 40) ∧ stepped one = some one := by decide +kernel

/-- The pseudo-operations: `SETCFG` of line 42 (V-D8), `SGI` and `EOI`. -/
theorem test_pseudo_operations :
    pseudoSetCfgWrite (params 64 2) 0 42 .oneN .edge 0x00 = dw8 0 0xC0A 0x30 ∧
    pseudoSgi (params 64 2) 0 1 0 3 = dw32 0 0xF00 0x01000003 ∧ pseudoEoi 0 41 = cw 0 0x10 0x29 ∧
    pseudoEnable (params 64 2) 1 40 = dw8 1 0x105 0x01 := by decide +kernel

/-! ## Witnesses

For each statement with hypotheses, states and operands that meet all of them, at the ends of the ranges of its clauses. -/

theorem live_fresh : Live (fresh 64 2) := by decide +kernel
theorem live_one : Live one := by decide +kernel
theorem live_running : Live running := by decide +kernel
theorem live_preempting : Live preempting := by decide +kernel
theorem live_nested : Live nested := by decide +kernel
theorem live_nestedLevel : Live nestedLevel := by decide +kernel
theorem live_nestedRaised : Live nestedRaised := by decide +kernel
theorem live_broadcast : Live broadcast := by decide +kernel
theorem live_cyclic : Live cyclic := by decide +kernel

theorem arbitrated_one : ArbitrationCurrent one := by decide +kernel
theorem arbitrated_preempting : ArbitrationCurrent preempting := by decide +kernel
theorem arbitrated_nested : ArbitrationCurrent nested := by decide +kernel

theorem exec_of_next {i : Instr} {s t : State} (h : next i s = some t) : exec i s = .next t := by
  unfold next at h
  split at h
  · rename_i u hu
    rw [hu, Option.some.inj h]
  · cases h

theorem step_of_stepped {s t : State} (h : stepped s = some t) : step s = .next t := by
  unfold stepped at h
  split at h
  · rename_i u hu
    rw [hu, Option.some.inj h]
  · cases h

theorem issue_of_writes {x : Txn} {s t : State} (h : writes x s = some t) : issue (.bus x) s = .next t := by
  unfold writes at h
  split at h
  · rename_i u hu
    rw [hu, Option.some.inj h]
  · cases h

theorem chain_end {lastActive : List IrqId} {id : IrqId} (h : id = noneId) : Machine.IsChain lastActive id [] := h

/-- The chain `41 -> 40 -> 1023` of vector V-S1. -/
theorem nested_chain : IsGoodChain nested.cfg (nested.cpu 0) [41, 40] :=
  ⟨⟨by decide +kernel, by decide, by decide +kernel, by decide, chain_end (by decide +kernel)⟩, by decide, by decide +kernel⟩

theorem running_chain : IsGoodChain running.cfg (running.cpu 0) [40] :=
  ⟨⟨by decide +kernel, by decide, chain_end (by decide +kernel)⟩, by decide, by decide +kernel⟩

theorem preempting_chains : ChainsOk preempting := by
  intro c hc
  have h2 : c = 0 ∨ c = 1 := by
    have : c < 2 := hc
    omega
  rcases h2 with rfl | rfl
  · exact ⟨[40], ⟨⟨by decide +kernel, by decide, chain_end (by decide +kernel)⟩, by decide, by decide +kernel⟩, by decide +kernel⟩
  · exact ⟨[], ⟨chain_end (by decide +kernel), by decide, by decide +kernel⟩,
      by decide +kernel⟩

theorem preempting_inv : Inv preempting :=
  ⟨⟨live_preempting.1, live_preempting.2.1, by decide +kernel, by decide +kernel⟩, arbitrated_preempting,
    by intro e he; cases he⟩

theorem one_inv : Inv one :=
  ⟨⟨live_one.1, live_one.2.1, by decide +kernel, by decide +kernel⟩, arbitrated_one, by intro e he; cases he⟩

theorem test_witness_StepPerformsTheIssuedOperation :
    one.fatal = false ∧ (cr 1 0x0C).cpu < one.cfg.numCpu ∧ decodeTxn one.cfg (cr 1 0x0C) = .op (.cpuAckR 1) ∧
    { one with inbox := [.bus (cr 1 0x0C)] }.inbox = .bus (cr 1 0x0C) :: [] ∧
    decodeTxn one.cfg (dr32 1 0x43C) = .wideRead 1 0x43C 4 ∧
    decodeTxn one.cfg (dw16 1 0x428 0x0810) = .wideWrite 1 0x428 2 0x0810 ∧
    { one with inbox := [.line 8 1, .save] }.inbox = .line 8 1 :: [.save] ∧
    { one with inbox := [.reset] }.inbox = .reset :: [] ∧ { one with inbox := [.save] }.inbox = .save :: [] ∧
    { one with inbox := [.load one.save] }.inbox = .load one.save :: [] ∧ one.inbox = [] := by decide +kernel

theorem test_witness_PlacedWordRunsAsDecoded :
    one.fatal = false ∧ decode one.cfg (wordBytes (0x200C % 2 ^ 16)) = .ok (.cpuAckR 0) ∧
    Instr.wf one.cfg (.cpuAckR 0) = true ∧
    decode one.cfg (wordBytes ((0x1FFF + 1 * 2 ^ 16 + 0xFF * 2 ^ 32) % 2 ^ 64)) = .ok (.distIdW 1 31 0xFF) ∧
    Instr.wf one.cfg (.distIdW 1 31 0xFF) = true := ⟨by decide +kernel, by rfl, by decide +kernel, by rfl, by decide +kernel⟩

theorem test_witness_DecodeInvertsEncode :
    (params 64 2).ok = true ∧ Instr.wf (params 64 2) (.distPriorityW 1 63 0xFF) = true ∧
    Instr.wf (params 64 2) (.distSetEnableR 0 0) = true ∧ Instr.wf (params 64 2) (.distConfigW 1 15 0xAA) = true ∧
    Instr.wf (params 64 2) (.distSgiR 0 3) = true ∧ Instr.wf (params 64 2) (.cpuEoiW 1 0xFFFFFFFF) = true ∧
    Instr.wf (params 64 2) (.setLine 31 1) = true ∧ Instr.wf (params 64 2) (.snapshotLoad one.save) = true := by
  decide +kernel

theorem test_witness_DefaultMapRangesNeverOverlap :
    (Config.withDefaults 32 1 [] 0).countsOk = true ∧ (Config.withDefaults 992 8 [] 0).countsOk = true := by
  decide +kernel

/-- Byte `k` of an access at `off` lies in no range but perhaps the SGI word's. -/
abbrev Missed (off : BitVec 12) (k : Nat) : Prop :=
  ∀ g, g ≠ .sgi → ¬(one.cfg.base g ≤ off.toNat + k ∧ off.toNat + k < one.cfg.base g + one.cfg.len g)

/-- A byte in no range, a partly undecoded read, a write into the SGI word, an access past the window. -/
theorem test_witness_UndecodedDistributorAccessIsFatal :
    Live one ∧ (dr8 0 0x004).cpu < one.cfg.numCpu ∧
    (∃ k < (dr8 0 0x004).size.bytes, Missed (dr8 0 0x004).off k) ∧
    (∃ k < (dr32 1 0x106).size.bytes, Missed (dr32 1 0x106).off k) ∧
    (∃ k < (dw8 1 0xF00 0).size.bytes, Missed (dw8 1 0xF00 0).off k) ∧
    ¬((dw8 1 0xF00 0).dir = .write ∧ (dw8 1 0xF00 0).size = .word ∧ (dw8 1 0xF00 0).off.toNat = one.cfg.offSgi) ∧
    (∃ k < (dr32 0 0xFFE).size.bytes, Missed (dr32 0 0xFFE).off k) := by
  refine ⟨live_one, by decide +kernel, ⟨0, by decide, ?_⟩, ⟨2, by decide, ?_⟩, ⟨0, by decide, ?_⟩, by decide +kernel,
    ⟨2, by decide, ?_⟩⟩ <;> intro g hg <;> cases g <;> first | exact absurd rfl hg | decide +kernel

/-- Each way to miss, and End-Of-Interrupt read. -/
theorem test_witness_UndecodedCpuWindowAccessIsFatal :
    Live one ∧ (cr 1 0x10).cpu < one.cfg.numCpu ∧ { cr 0 0x00 with size := .half }.size ≠ .word ∧
    (cw 0 0x1C 0).off.toNat ∉ [0x00, 0x04, 0x08, 0x0C, 0x10, 0x14, 0x18] ∧
    (cr 0 0x02).off.toNat ∉ [0x00, 0x04, 0x08, 0x0C, 0x10, 0x14, 0x18] ∧
    (cr 1 0x10).off.toNat = 0x10 ∧ (cr 1 0x10).dir = .read := ⟨live_one, by decide +kernel⟩

theorem test_witness_FatalStateRefusesEveryOperation : (one.died (.snapshotVersion 8)).fatal = true := by decide +kernel

theorem test_witness_OperationsOnMissingPartsAreRefused :
    one.fatal = false ∧ one.cfg.numCpu ≤ 2 ∧ { one with inbox := [.bus (cr 2 0x0C)] }.inbox = .bus (cr 2 0x0C) :: [] ∧
    (cr 2 0x0C).cpu = 2 ∧ callerOf (.distSgiW 2 0) = some 2 ∧ one.cfg.numIrq ≤ 32 + 32 ∧ 31 + 32 < one.cfg.numIrq ∧
    1 < 2 := by decide +kernel

theorem test_witness_ResetGivesTheResetTable : Live nested := live_nested

theorem test_witness_ConstructionBuildsExactlyLegalInstances :
    (params 64 2).ok = true ∧ construct (params 64 2) = .ok (fresh 64 2) ∧ (params 0 2).numIrq = 0 ∧
    (params 40 2).numIrq % 32 ≠ 0 ∧ 1020 < (params 1024 2).numIrq ∧ (params 64 0).numCpu = 0 ∧
    8 < (params 64 9).numCpu ∧ { params 64 2 with mode := .embedded }.mode = .embedded :=
  ⟨by decide +kernel, by rfl, by decide +kernel⟩

theorem test_witness_SetLineSameLevelDoesNothing :
    Live one ∧ 0 + 32 < one.cfg.numIrq ∧ (one.line (0 + 32)).level = false ∧ 31 + 32 < one.cfg.numIrq ∧
    (one.line (31 + 32)).level = false ∧ (one.line (8 + 32)).level = true := ⟨live_one, by decide +kernel⟩

/-- Edge; level and enabled; level and disabled, at both ends of the inputs. -/
theorem test_witness_SetLineRisingLatchesTargets :
    Live two ∧ 9 + 32 < two.cfg.numIrq ∧ (two.line (9 + 32)).level = false ∧ (two.line (9 + 32)).trigger = .edge ∧
    0 + 32 < two.cfg.numIrq ∧ (two.line (0 + 32)).level = false ∧ (two.line (0 + 32)).trigger = .level ∧
    31 + 32 < two.cfg.numIrq ∧ (two.line (31 + 32)).level = false := by decide +kernel

theorem test_witness_SetLineFallingKeepsPending :
    Live one ∧ 8 + 32 < one.cfg.numIrq ∧ (one.line (8 + 32)).level = true := ⟨live_one, by decide +kernel⟩

/-- Both CPUs, both ends of the register's bytes. -/
theorem test_witness_CtrlReadShowsGlobalEnable : Live one ∧ 0 < one.cfg.numCpu ∧ 1 < one.cfg.numCpu ∧ 0 < 4 ∧ 3 < 4 :=
  ⟨live_one, by decide +kernel⟩

theorem test_witness_CtrlWriteSetsGlobalEnable : Live one ∧ 0 < one.cfg.numCpu ∧ 1 < one.cfg.numCpu ∧ 0 < 4 ∧ 3 < 4 :=
  ⟨live_one, by decide +kernel⟩

/-- Bytes 0 and 1 hold the lines 0..15, bytes 2 and 3 the lines 16..31, bytes 4 to 7 the shared lines. -/
theorem test_witness_EnableReadsShowCallersBits :
    Live one ∧ 0 < one.cfg.numCpu ∧ 1 < one.cfg.numCpu ∧ 0 < one.cfg.numIrq / 8 ∧ 1 < one.cfg.numIrq / 8 ∧
    2 < one.cfg.numIrq / 8 ∧ 3 < one.cfg.numIrq / 8 ∧ 4 < one.cfg.numIrq / 8 ∧ 7 < one.cfg.numIrq / 8 :=
  ⟨live_one, by decide +kernel⟩

/-- With the option on, a raised level-triggered private and shared line at hand. -/
theorem test_witness_SetEnableWriteEnablesLines :
    Live { nestedRaised with cfg := { nestedRaised.cfg with pendLevelOnEnable := true } } ∧
    1 < nestedRaised.cfg.numCpu ∧ 5 < nestedRaised.cfg.numIrq / 8 ∧ 40 / 8 = 5 ∧
    (nestedRaised.line 40).trigger = .level ∧ (nestedRaised.line 40).level = true := by decide +kernel

/-- Bytes 0 and 1 hold the lines 0..15, bytes 2 and 3 the lines 16..31, bytes 4 to 7 the shared lines. -/
theorem test_witness_ClrEnableWriteDisablesLines :
    Live one ∧ 0 < one.cfg.numCpu ∧ 1 < one.cfg.numCpu ∧ 0 < one.cfg.numIrq / 8 ∧ 1 < one.cfg.numIrq / 8 ∧
    2 < one.cfg.numIrq / 8 ∧ 3 < one.cfg.numIrq / 8 ∧ 4 < one.cfg.numIrq / 8 ∧ 7 < one.cfg.numIrq / 8 :=
  ⟨live_one, by decide +kernel⟩

theorem test_witness_PendingAndActiveReadsShowLines :
    Live nested ∧ 1 < nested.cfg.numCpu ∧ 5 < nested.cfg.numIrq / 8 ∧
    (nested.line (8 * 5 + 0)).active.getLsbD 0 = true ∧ 3 < nested.cfg.numIrq / 8 ∧ 4 < nested.cfg.numIrq / 8 :=
  ⟨live_nested, by decide +kernel⟩

/-- Bytes 0 and 1 hold the lines 0..15, bytes 2 and 3 the lines 16..31, bytes 4 to 7 the shared lines. -/
theorem test_witness_SetPendingWritePendsLines :
    Live one ∧ 0 < one.cfg.numCpu ∧ 1 < one.cfg.numCpu ∧ 0 < one.cfg.numIrq / 8 ∧ 1 < one.cfg.numIrq / 8 ∧
    2 < one.cfg.numIrq / 8 ∧ 3 < one.cfg.numIrq / 8 ∧ 4 < one.cfg.numIrq / 8 ∧ 7 < one.cfg.numIrq / 8 :=
  ⟨live_one, by decide +kernel⟩

/-- A line pending for both CPUs, and the first and last byte. -/
theorem test_witness_ClrPendingWriteClearsEveryCpu :
    Live broadcast ∧ 1 < broadcast.cfg.numCpu ∧ 5 < broadcast.cfg.numIrq / 8 ∧ (broadcast.line 40).pending = 3 ∧
    0 < broadcast.cfg.numIrq / 8 ∧ 7 < broadcast.cfg.numIrq / 8 :=
  ⟨live_broadcast, by decide +kernel⟩

/-- The last private and the first and last shared line. -/
theorem test_witness_PriorityReadShowsPriority :
    Live one ∧ 1 < one.cfg.numCpu ∧ 31 < one.cfg.numIrq ∧ 32 < one.cfg.numIrq ∧ 63 < one.cfg.numIrq :=
  ⟨live_one, by decide +kernel⟩

theorem test_witness_PriorityWriteStoresPriority :
    Live one ∧ 1 < one.cfg.numCpu ∧ 31 < one.cfg.numIrq ∧ 32 < one.cfg.numIrq ∧ 63 < one.cfg.numIrq :=
  ⟨live_one, by decide +kernel⟩

theorem test_witness_TargetReadShowsMaskOrCaller :
    Live one ∧ 1 < one.cfg.numCpu ∧ 28 < one.cfg.numIrq ∧ 29 < one.cfg.numIrq ∧ 31 < one.cfg.numIrq ∧
    32 < one.cfg.numIrq ∧ 63 < one.cfg.numIrq := ⟨live_one, by decide +kernel⟩

theorem test_witness_TargetWriteStoresMask :
    Live one ∧ 1 < one.cfg.numCpu ∧ 28 < one.cfg.numIrq ∧ 29 < one.cfg.numIrq ∧ 31 < one.cfg.numIrq ∧
    32 < one.cfg.numIrq ∧ 63 < one.cfg.numIrq := ⟨live_one, by decide +kernel⟩

/-- The last byte of private lines and the first and last of shared ones. -/
theorem test_witness_ConfigReadShowsModelAndTrigger :
    Live broadcast ∧ 1 < broadcast.cfg.numCpu ∧ 7 < broadcast.cfg.numIrq / 4 ∧ 8 < broadcast.cfg.numIrq / 4 ∧
    15 < broadcast.cfg.numIrq / 4 := ⟨live_broadcast, by decide +kernel⟩

theorem test_witness_ConfigWriteStoresModelAndTrigger :
    Live one ∧ 1 < one.cfg.numCpu ∧ 7 < one.cfg.numIrq / 4 ∧ 8 < one.cfg.numIrq / 4 ∧ 15 < one.cfg.numIrq / 4 :=
  ⟨live_one, by decide +kernel⟩

/-- The last line that exists and the first id that names none. -/
theorem test_witness_SgiWritePendsChosenCpus :
    Live one ∧ 1 < one.cfg.numCpu ∧ (0x0100003F : Word).toNat % 1024 < one.cfg.numIrq ∧
    one.cfg.numIrq ≤ (0x01000040 : Word).toNat % 1024 := ⟨live_one, by decide +kernel⟩

theorem test_witness_IdReadShowsIdentificationBytes : Live one ∧ 1 < one.cfg.numCpu ∧ 0 < 8 ∧ 7 < 8 ∧ 0 < 4 ∧ 3 < 4 :=
  ⟨live_one, by decide +kernel⟩

theorem test_witness_WideWriteIsItsByteWrites :
    Live one ∧ (dw32 1 0x43C 0x11223344).win = .dist ∧ (dw32 1 0x43C 0x11223344).dir = .write ∧
    (dw32 1 0x43C 0x11223344).cpu < one.cfg.numCpu ∧ (dw32 1 0x43C 0x11223344).size ≠ .byte ∧
    (dw32 1 0x43C 0x11223344).off.toNat + (dw32 1 0x43C 0x11223344).size.bytes ≤ 0x1000 ∧
    ¬((dw32 1 0x43C 0x11223344).size = .word ∧ (dw32 1 0x43C 0x11223344).off.toNat = one.cfg.offSgi) ∧
    ∀ k < (dw32 1 0x43C 0x11223344).size.bytes, ∃ g, g ≠ .sgi ∧
      one.cfg.base g ≤ (dw32 1 0x43C 0x11223344).off.toNat + k ∧
      (dw32 1 0x43C 0x11223344).off.toNat + k < one.cfg.base g + one.cfg.len g :=
  ⟨live_one, by decide +kernel, by decide +kernel, by decide +kernel, by decide +kernel, by decide +kernel,
    by decide +kernel, fun k hk => ⟨.priority, by decide, (by decide +kernel :
      ∀ k < 4, one.cfg.base .priority ≤ 0x43C + k ∧ 0x43C + k < one.cfg.base .priority + one.cfg.len .priority) k hk⟩⟩

theorem test_witness_WideReadIsItsByteReads :
    Live one ∧ (dr16 1 0xFFE).win = .dist ∧ (dr16 1 0xFFE).dir = .read ∧ (dr16 1 0xFFE).cpu < one.cfg.numCpu ∧
    (dr16 1 0xFFE).size ≠ .byte ∧ (dr16 1 0xFFE).off.toNat + (dr16 1 0xFFE).size.bytes ≤ 0x1000 ∧
    ∀ k < (dr16 1 0xFFE).size.bytes, ∃ g, g ≠ .sgi ∧ one.cfg.base g ≤ (dr16 1 0xFFE).off.toNat + k ∧
      (dr16 1 0xFFE).off.toNat + k < one.cfg.base g + one.cfg.len g :=
  ⟨live_one, by decide +kernel, by decide +kernel, by decide +kernel, by decide +kernel, by decide +kernel,
    fun k hk => ⟨.id, by decide, (by decide +kernel :
      ∀ k < 2, one.cfg.base .id ≤ 0xFFE + k ∧ 0xFFE + k < one.cfg.base .id + one.cfg.len .id) k hk⟩⟩

theorem test_witness_CpuReadsShowTheirFields : Live nested ∧ 0 < nested.cfg.numCpu ∧ 1 < nested.cfg.numCpu :=
  ⟨live_nested, by decide +kernel⟩

theorem test_witness_ReadsOfWriteOnlyRegistersAreFatal : Live one ∧ 1 < one.cfg.numCpu ∧ 0 < 4 ∧ 3 < 4 :=
  ⟨live_one, by decide +kernel⟩

theorem test_witness_WritesToReadOnlyRegistersAreIgnored :
    Live nested ∧ 1 < nested.cfg.numCpu ∧ ArbitrationCurrent nested ∧ 7 < nested.cfg.numIrq / 8 ∧ 31 < 32 :=
  ⟨live_nested, by decide +kernel, arbitrated_nested, by decide +kernel, by decide⟩

theorem test_witness_CpuCtrlWriteSetsEnable : Live one ∧ 0 < one.cfg.numCpu ∧ 1 < one.cfg.numCpu :=
  ⟨live_one, by decide +kernel⟩

theorem test_witness_PrimaskWriteSetsMask : Live one ∧ 1 < one.cfg.numCpu ∧ ArbitrationCurrent one :=
  ⟨live_one, by decide +kernel, arbitrated_one⟩

theorem test_witness_BinpointWriteStoresOnly : Live one ∧ 1 < one.cfg.numCpu := ⟨live_one, by decide +kernel⟩

/-- An idle CPU, a preempted one, and the 1:N model on the other CPU. -/
theorem test_witness_AcknowledgeClaimsTheBestLine :
    Live one ∧ 0 < one.cfg.numCpu ∧ (one.cpu 0).best = 40 ∧ (40 : IrqId) ≠ noneId ∧
    (40 : IrqId).toNat < one.cfg.numIrq ∧ (one.prio 40 0).toNat < (one.cpu 0).runPrio.toNat ∧
    Live preempting ∧ (preempting.cpu 0).best = 41 ∧
    (preempting.prio 41 0).toNat < (preempting.cpu 0).runPrio.toNat ∧
    Live broadcast ∧ (broadcast.cpu 1).best = 40 ∧ (broadcast.line 40).model = .oneN ∧
    (broadcast.prio 40 1).toNat < (broadcast.cpu 1).runPrio.toNat := by decide +kernel

/-- Nothing pending, and a pending line of equal priority. -/
theorem test_witness_AcknowledgeWithNothingEligibleIsSpurious :
    Live (fresh 64 2) ∧ 1 < (fresh 64 2).cfg.numCpu ∧ ((fresh 64 2).cpu 1).best = noneId ∧
    Live (pended (lined running 42 1 0x20 .edge) 42) ∧
    ((pended (lined running 42 1 0x20 .edge) 42).cpu 0).best = 42 ∧
    ((pended (lined running 42 1 0x20 .edge) 42).cpu 0).runPrio.toNat ≤
      ((pended (lined running 42 1 0x20 .edge) 42).prio 42 0).toNat := by decide +kernel

theorem test_witness_OneNClaimLeavesItToNobodyElse :
    Live broadcast ∧ 0 < broadcast.cfg.numCpu ∧ (40 : IrqId).toNat < broadcast.cfg.numIrq ∧
    (broadcast.line 40).model = .oneN ∧
    exec (.cpuAckR 0) broadcast = .next { broadcast.claim 0 40 with response := .data 40 } ∧
    ({ broadcast.claim 0 40 with response := .data 40 }.cpu 0).runId = 40 ∧ (broadcast.cpu 0).runId ≠ 40 :=
  ⟨live_broadcast, by decide +kernel, by decide +kernel, by decide +kernel, exec_of_next (by decide +kernel),
    by decide +kernel, by decide +kernel⟩

/-- An id just past the lines, the sentinel, and an idle CPU. -/
theorem test_witness_EoiOfNothingIsIgnored :
    Live nested ∧ 0 < nested.cfg.numCpu ∧ nested.cfg.numIrq ≤ (64 : Word).toNat % 1024 ∧
    nested.cfg.numIrq ≤ (0x3FF : Word).toNat % 1024 ∧ 1 < nested.cfg.numCpu ∧ (nested.cpu 1).runId = noneId :=
  ⟨live_nested, by decide +kernel⟩

/-- A pop back to line 40, and a pop to nothing. -/
theorem test_witness_EoiOfRunningIdPops :
    Live nested ∧ 0 < nested.cfg.numCpu ∧ (0xFFFFFC29 : Word).toNat % 1024 < nested.cfg.numIrq ∧
    (nested.cpu 0).runId.toNat = (0xFFFFFC29 : Word).toNat % 1024 ∧
    (nested.cpu 0).lastActive[(0xFFFFFC29 : Word).toNat % 1024]? = some 40 ∧ IdOk nested.cfg 40 ∧
    Live running ∧ (running.cpu 0).runId.toNat = (40 : Word).toNat % 1024 ∧
    (running.cpu 0).lastActive[(40 : Word).toNat % 1024]? = some 1023 ∧ IdOk running.cfg 1023 := by decide +kernel

/-- The line that comes back and the line that does not. -/
theorem test_witness_EoiOfNestedIdSplices :
    (Live nested ∧ 0 < nested.cfg.numCpu ∧ IsGoodChain nested.cfg (nested.cpu 0) ([] ++ 41 :: 40 :: []) ∧
      (40 : IrqId).toNat = (40 : Word).toNat % 1024) ∧
    Live nestedRaised ∧ 0 < nestedRaised.cfg.numCpu ∧
    IsGoodChain nestedRaised.cfg (nestedRaised.cpu 0) ([] ++ 41 :: 40 :: []) ∧ nestedRaised.comesBack 0 40 = true :=
  ⟨⟨live_nested, by decide +kernel, nested_chain, by decide⟩, live_nestedRaised, by decide +kernel, nested_chain,
    by decide +kernel⟩

/-- A line that comes back though nobody claimed it, and the last line, which does not. -/
theorem test_witness_EoiOfUnclaimedIdOnlyRepends :
    Live nestedLevel ∧ 0 < nestedLevel.cfg.numCpu ∧ IsGoodChain nestedLevel.cfg (nestedLevel.cpu 0) [41, 40] ∧
    ([41, 40] : List IrqId) ≠ [] ∧ (43 : Word).toNat % 1024 < nestedLevel.cfg.numIrq ∧
    BitVec.ofNat 10 ((43 : Word).toNat % 1024) ∉ ([41, 40] : List IrqId) ∧ nestedLevel.comesBack 0 43 = true ∧
    (63 : Word).toNat % 1024 < nestedLevel.cfg.numIrq ∧
    BitVec.ofNat 10 ((63 : Word).toNat % 1024) ∉ ([41, 40] : List IrqId) ∧ nestedLevel.comesBack 0 63 = false :=
  ⟨live_nestedLevel, by decide +kernel, nested_chain, by decide, by decide +kernel, by decide, by decide +kernel,
    by decide +kernel, by decide, by decide +kernel⟩

theorem test_witness_EoiOnCyclicChainIsStuck :
    Live cyclic ∧ 0 < cyclic.cfg.numCpu ∧ (41 : Word).toNat % 1024 < cyclic.cfg.numIrq ∧
    ∀ n, (follow (cyclic.cpu 0).lastActive n (cyclic.cpu 0).runId).toNat < cyclic.cfg.numIrq ∧
      (follow (cyclic.cpu 0).lastActive n (cyclic.cpu 0).runId).toNat ≠ (41 : Word).toNat % 1024 := by
  refine ⟨live_cyclic, by decide +kernel, by decide +kernel, fun n => ?_⟩
  have stays : ∀ n, follow (cyclic.cpu 0).lastActive n 40 = 40 := by
    intro n
    induction n with
    | zero => rfl
    | succ n ih =>
      have : (cyclic.cpu 0).lastActive.getD (40 : IrqId).toNat noneId = 40 := by decide +kernel
      show follow _ n ((cyclic.cpu 0).lastActive.getD (40 : IrqId).toNat noneId) = 40
      rw [this, ih]
  have start : (cyclic.cpu 0).runId = 40 := by decide +kernel
  rw [start, stays]
  decide +kernel

theorem test_witness_NestedRetirementInEitherOrderEndsIdle :
    Live nested ∧ 0 < nested.cfg.numCpu ∧ IsGoodChain nested.cfg (nested.cpu 0) [41, 40] :=
  ⟨live_nested, by decide +kernel, nested_chain⟩

theorem test_witness_SaveReturnsThePersistedFields : Live nested := live_nested

theorem test_witness_LoadRestoresThePersistedFields :
    Live (fresh 64 2) ∧ nested.save.version = (fresh 64 2).cfg.snapshotVersion ∧
    nested.save.fits (fresh 64 2).cfg = true := ⟨live_fresh, by decide +kernel⟩

/-- Another version, and the right version with another shape. -/
theorem test_witness_LoadOfOtherVersionIsFatal :
    Live one ∧ { one.save with version := 8 }.version ≠ one.cfg.snapshotVersion ∧
    (fresh 32 2).save.version = one.cfg.snapshotVersion ∧ (fresh 32 2).save.fits one.cfg = false :=
  ⟨live_one, by decide +kernel⟩

theorem test_witness_SnapshotRoundTrip : Live nested ∧ ArbitrationCurrent nested := ⟨live_nested, arbitrated_nested⟩

theorem test_witness_EveryStepKeepsArbitrationCurrent :
    { one with inbox := [.bus (cr 0 0x0C)] }.cfg.ok = true ∧ ArbitrationCurrent { one with inbox := [.bus (cr 0 0x0C)] } ∧
    step { one with inbox := [.bus (cr 0 0x0C)] } = .next { one.claim 0 40 with response := .data 40 } :=
  ⟨by decide +kernel, arbitrated_one, step_of_stepped (by decide +kernel)⟩

theorem test_witness_ResetStateMeetsTheInvariants : (params 32 1).ok = true ∧ (params 992 8).ok = true := by decide +kernel

theorem test_witness_EveryStepKeepsTheInvariants :
    Inv { one with inbox := [.line 9 1, .load one.save] } ∧
    step { one with inbox := [.bus (cr 0 0x0C)] } = .next { one.claim 0 40 with response := .data 40 } ∧
    Inv { one with inbox := [.bus (cr 0 0x0C)] } := by
  refine ⟨⟨one_inv.tables, arbitrated_one, ?_⟩, step_of_stepped (by decide +kernel), ⟨one_inv.tables, arbitrated_one, ?_⟩⟩
  · intro e he snap hsnap
    subst hsnap
    rcases List.mem_cons.mp he with h | h
    · cases h
    · cases List.mem_singleton.mp h
      decide +kernel
  · intro e he snap hsnap
    subst hsnap
    cases List.mem_singleton.mp he

theorem test_witness_EveryOperationKeepsTheActiveChains :
    Inv preempting ∧ ChainsOk preempting ∧ (preempting.cpu 0).best ≠ noneId ∧
    (preempting.line (preempting.cpu 0).best.toNat).active.getLsbD 0 = false ∧
    exec (.cpuAckR 0) preempting = .next { preempting.claim 0 41 with response := .data 41 } :=
  ⟨preempting_inv, preempting_chains, by decide +kernel, by decide +kernel, exec_of_next (by decide +kernel)⟩

theorem test_witness_GoodStatesNeverFault : Inv preempting ∧ ChainsOk preempting := ⟨preempting_inv, preempting_chains⟩

/-- A write to the last byte of private enable bits. -/
theorem test_witness_PrivateStateIsNotMutatedByOtherCpus :
    Inv one ∧ callerOf (.distSetEnableW 0 3 0xFF) = some 0 ∧ 1 ≠ 0 ∧ 1 < one.cfg.numCpu ∧ 31 < 32 ∧
    exec (.distSetEnableW 0 3 0xFF) one = .next { (one.writeSetEnable 0 3 0xFF).update with response := .none } :=
  ⟨one_inv, rfl, by decide, by decide +kernel, by decide, exec_of_next (by decide +kernel)⟩

/-- As `one`, but for CPU 1's interface and its bits of lines 16 and 31: line 16 is pending for CPU 1. -/
def otherPrivate : State :=
  ((one.onLine 16 fun l => { l with enabled := 2, pending := 2 }).onLine 31 fun l => { l with active := 2 }).onCpu 1
    fun p => { p with prioPriv := p.prioPriv.set 16 0x30, best := 16, irqOut := true }

theorem otherPrivate_shared (i : Nat) (hi : 32 ≤ i) : one.line i = otherPrivate.line i := by
  unfold otherPrivate
  rw [onCpu_line, onLine_line, onLine_line, if_neg (by omega), if_neg (by omega)]

/-- CPU 0 has line 40 pending in both, and reads the last byte of a group, a word, and its acknowledge register. -/
theorem test_witness_PrivateStateIsNotVisibleToOtherCpus :
    (Live one ∧ Live otherPrivate ∧ one.cfg = otherPrivate.cfg ∧ 0 < one.cfg.numCpu ∧
      one.distEnabled = otherPrivate.distEnabled ∧ one.prioShared = otherPrivate.prioShared ∧
      (one.cpu 0).prioPriv = (otherPrivate.cpu 0).prioPriv) ∧
    (∀ i, 32 ≤ i → one.line i = otherPrivate.line i) ∧
    (∀ i < 32, (one.line i).enabled.getLsbD 0 = (otherPrivate.line i).enabled.getLsbD 0 ∧
      (one.line i).pending.getLsbD 0 = (otherPrivate.line i).pending.getLsbD 0 ∧
      (one.line i).active.getLsbD 0 = (otherPrivate.line i).active.getLsbD 0 ∧
      (one.line i).trigger = (otherPrivate.line i).trigger ∧ (one.line i).model = (otherPrivate.line i).model ∧
      (one.line i).target = (otherPrivate.line i).target) ∧
    (Group.setPending ≠ .sgi ∧ 2 < one.cfg.len .setPending ∧ 63 < one.cfg.len .priority ∧ one ≠ otherPrivate) ∧
    ArbitrationCurrent one ∧ ArbitrationCurrent otherPrivate ∧
    one.cpu 0 = { otherPrivate.cpu 0 with best := (one.cpu 0).best, irqOut := (one.cpu 0).irqOut } ∧
    (dr32 0 0x200).dir = .read ∧ (dr32 0 0x200).cpu = 0 ∧ (cr 0 0x0C).dir = .read ∧ (cr 0 0x0C).cpu = 0 ∧
    (cr 0 0x10).dir = .read ∧ (cr 0 0x10).cpu = 0 :=
  ⟨by decide +kernel, otherPrivate_shared, by decide +kernel, by decide +kernel, arbitrated_one, by decide +kernel,
    by decide +kernel⟩

theorem test_witness_OnlyAcknowledgeReadsHaveSideEffects :
    Live nested ∧ (dr8 0 0x305).dir = .read ∧ ¬((dr8 0 0x305).win = .cpuif ∧ (dr8 0 0x305).off = 0x0C) ∧
    issue (.bus (dr8 0 0x305)) nested = .next { nested with response := .data 3 } ∧
    issue (.bus (cr 0 0x10)) nested = .next (nested.died (.undecodedOffset .cpuif 0 .read 0x10 4)) :=
  ⟨live_nested, rfl, by decide, issue_of_writes (by decide +kernel), issue_of_writes (by decide +kernel)⟩

theorem test_witness_StepKeepsParametersAndLaterEvents :
    step { one with inbox := [.bus (cr 0 0x0C), .reset] } =
      .next { one.claim 0 40 with response := .data 40, inbox := [.reset] } := step_of_stepped (by decide +kernel)

end Sys2Proof.Tests
end

/-! SUPPORT and CLAIMS. Scope and parameters (`00_scope.md`): what a step keeps, and which instances can be built. -/

namespace Sys2Proof.Machine

/-! ## What a step keeps -/

/-- One event, whatever it is, keeps the parameters and the events that wait (rule R6, assumption log 1). -/
theorem issue_keeps_cfg_inbox {s t : State} {e : Event} (h : issue e s = .next t) :
    t.cfg = s.cfg ∧ t.inbox = s.inbox :=
  effect_cfg (issue_next h)

/-- Settles O60, by the two things a step can do: nothing where nothing is issued, or the first event, performed in the
state that has already dropped it. -/
theorem stepKeepsParametersAndLaterEvents : Obligations.StepKeepsParametersAndLaterEvents := by
  intro s t h
  obtain ⟨hlive, ⟨hempty, rfl⟩ | ⟨e, rest, hinbox, hissue⟩⟩ := step_next.1 h
  · exact ⟨hlive, rfl, by rw [hempty]; rfl⟩
  · obtain ⟨hcfg, hrest⟩ := issue_keeps_cfg_inbox hissue
    exact ⟨hlive, hcfg, by rw [hrest, hinbox]; rfl⟩

/-! ## Construction -/

/-- The counts and the layout that rule R301 refuses. -/
theorem countsOk_eq_false_iff {cfg : Config} : cfg.countsOk = false ↔
    cfg.numIrq = 0 ∨ cfg.numIrq % 32 ≠ 0 ∨ 1020 < cfg.numIrq ∨ cfg.numCpu = 0 ∨ 8 < cfg.numCpu ∨
      cfg.mode = .embedded := by
  have hmode : cfg.mode ≠ .external ↔ cfg.mode = .embedded := by cases cfg.mode <;> decide
  simp only [Config.countsOk, Bool.and_eq_false_iff, decide_eq_false_iff_not, hmode, or_assoc, not_lt, not_le,
    Nat.le_zero, ne_eq, maxCpu]

/-- All that construction can build (rules R7 and R42). -/
theorem construct_eq_ok_iff {cfg : Config} {s : State} :
    construct cfg = .ok s ↔ cfg.ok = true ∧ s = State.initial cfg := by
  have hok : cfg.ok = true ↔ cfg.countsOk = true ∧ (cfg.mapOk && cfg.idBytes.length = 8) = true := by
    simp only [Config.ok, Bool.and_assoc, Bool.and_comm cfg.mapOk, Bool.and_eq_true]
  rw [hok]
  unfold construct
  split
  case isTrue hcounts =>
    split
    case isTrue hmap => simp only [hcounts, hmap, and_self, true_and, Except.ok.injEq, eq_comm (a := s)]
    case isFalse hmap => simp only [hmap, reduceCtorEq, Bool.false_eq_true, and_false, false_and]
  case isFalse hcounts => simp only [hcounts, reduceCtorEq, Bool.false_eq_true, false_and]

/-- Counts or a layout that rule R301 refuses give its diagnostic, whatever the map is. -/
theorem construct_of_refused_counts {cfg : Config} (h : cfg.countsOk = false) :
    construct cfg = .error (.badConfig cfg.numIrq cfg.numCpu cfg.mode) := by
  simp [construct, h]

/-- Settles O11, by the three results of construction. -/
theorem constructionBuildsExactlyLegalInstances : Obligations.ConstructionBuildsExactlyLegalInstances := fun _ =>
  ⟨fun hok => construct_eq_ok_iff.2 ⟨hok, rfl⟩, fun _ hbuilt => (construct_eq_ok_iff.1 hbuilt).1,
    fun hrefused => construct_of_refused_counts (countsOk_eq_false_iff.2 hrefused)⟩

end Sys2Proof.Machine

/-! SUPPORT and CLAIMS. The invariants of `10_state.md` section 7: every step keeps them. -/

namespace Sys2Proof.Machine

variable {s t u : State} {c : Nat}

/-! ## Arbitration stays current (rules R47 and R147) -/

/-- Arbitration stays current where neither what it reads nor what it writes changes. -/
theorem current_of_same (hcfg : t.cfg = s.cfg) (hdist : t.distEnabled = s.distEnabled)
    (hline : ∀ i, (t.line i).enabled = (s.line i).enabled ∧ (t.line i).pending = (s.line i).pending)
    (hprio : ∀ i c, t.prio i c = s.prio i c)
    (hcpu : ∀ c, (t.cpu c).enabled = (s.cpu c).enabled ∧ (t.cpu c).prioMask = (s.cpu c).prioMask ∧
      (t.cpu c).runPrio = (s.cpu c).runPrio)
    (hout : ∀ c, (t.cpu c).best = (s.cpu c).best ∧ (t.cpu c).irqOut = (s.cpu c).irqOut)
    (h : ArbitrationCurrent s) : ArbitrationCurrent t := by
  intro c hc
  obtain ⟨hbest, hmay⟩ := arbitrationCurrent_of_same hcfg hdist hline hprio hcpu c
  rw [(hout c).1, (hout c).2, hbest, hmay]
  exact h c (hcfg ▸ hc)

/-- A change of a CPU that keeps its arbitration inputs and outputs keeps arbitration current. -/
theorem onCpu_current {g : Cpu → Cpu}
    (hg : ∀ p, g p = { p with binPoint := (g p).binPoint, runId := (g p).runId, lastActive := (g p).lastActive })
    (h : ArbitrationCurrent s) : ArbitrationCurrent (s.onCpu c g) := by
  have hcpu : ∀ k, (s.onCpu c g).cpu k =
      { s.cpu k with binPoint := ((s.onCpu c g).cpu k).binPoint, runId := ((s.onCpu c g).cpu k).runId,
                     lastActive := ((s.onCpu c g).cpu k).lastActive } := fun k => by
    rw [onCpu_cpu]
    split
    · exact hg _
    · rfl
  exact current_of_same (s := s) rfl rfl (fun _ => ⟨rfl, rfl⟩) (fun i k => onCpu_prio s i c k g fun p => by rw [hg])
    (fun k => by rw [hcpu k]; exact ⟨rfl, rfl, rfl⟩) (fun k => by rw [hcpu k]; exact ⟨rfl, rfl⟩) h

/-- A change of the active bits of a line keeps arbitration current. -/
theorem deactivate_current {i : Nat} (h : ArbitrationCurrent s) : ArbitrationCurrent (s.deactivate c i) := by
  refine current_of_same (s := s) rfl rfl (fun j => ?_) (fun _ _ => rfl) (fun _ => ⟨rfl, rfl, rfl⟩)
    (fun _ => ⟨rfl, rfl⟩) h
  rw [deactivate_eq, onLine_line]
  split <;> exact ⟨rfl, rfl⟩

/-- What an operation changes without arbitrating is nothing that arbitration reads or writes: a binary point, or the
links and the active bit that a splice changes. -/
theorem quietWrite_current (hu : QuietWrite s u) (h : ArbitrationCurrent s) : ArbitrationCurrent u := by
  cases hu with
  | nothing => exact h
  | binPoint c v => exact onCpu_current (fun _ => rfl) h
  | spliced c id pred => exact deactivate_current (onCpu_current (fun _ => rfl) h)
  | died d => exact h

/-- Every effect of an operation leaves arbitration current: it arbitrates, or it is a quiet one. -/
theorem effect_current {ack : Nat → Prop} {load : Snapshot → Prop} (hn : s.cfg.numIrq ≤ 1020)
    (h : ArbitrationCurrent s) (he : Effect ack load s t) : ArbitrationCurrent t := by
  rcases he with ⟨u, _, hu, rfl⟩ | ⟨u, _, hu, rfl⟩ | ⟨c, id, _, _, _, _, _, _, rfl⟩ | ⟨snap, _, _, rfl⟩
  · exact update_current u (by rw [(tableWrite_cfg hu).1]; exact hn)
  · exact current_answered (quietWrite_current hu h)
  · exact claim_current s hn c id
  · exact update_current (s.loadFields snap) hn

/-- Settles O52: an idle step changes nothing, and an event has one of the effects of `issue_next`. -/
theorem everyStepKeepsArbitrationCurrent : Obligations.EveryStepKeepsArbitrationCurrent := by
  intro s t hok hcur hstep
  obtain ⟨_, ⟨_, rfl⟩ | ⟨e, rest, _, hissue⟩⟩ := step_next.1 hstep
  · exact hcur
  · exact effect_current (s := { s with inbox := rest }) (numIrq_le hok) hcur (issue_next hissue)

/-! ## Every step keeps the invariants (rules R44, R45, R47, R48 and R51) -/

theorem tables_answered {r : Response} (ht : TablesOk s) : TablesOk { s with response := r } := ht

/-- What an operation changes without arbitrating keeps the tables. -/
theorem quietWrite_tables (hu : QuietWrite s u) (ht : TablesOk s) : TablesOk u := by
  cases hu with
  | nothing => exact ht
  | binPoint c v => exact tables_onCpu ht (fun _ hp => hp) (fun _ => rfl) (fun _ => rfl)
  | spliced c id pred => exact tables_splice ht
  | died d => exact ht

/-- Every effect keeps the tables, if the snapshots it can load break none of the invariants (rule R287). -/
theorem effect_tables {ack : Nat → Prop} {load : Snapshot → Prop}
    (hload : ∀ snap, load snap → SnapshotOk s.cfg snap) (ht : TablesOk s) (he : Effect ack load s t) : TablesOk t := by
  rcases he with ⟨u, _, hu, rfl⟩ | ⟨u, _, hu, rfl⟩ | ⟨c, id, _, hc, _, hne, hid, _, rfl⟩ | ⟨snap, hsnap, _, rfl⟩
  · exact tables_update (tableWrite_tables hu ht)
  · exact tables_answered (quietWrite_tables hu ht)
  · exact tables_claim ht hc hne hid
  · exact tables_update (tables_load ht (hload snap hsnap))

/-- A step leaves no snapshot to load that was not there before it. -/
theorem step_inboxOk (h : InboxOk s) (hstep : step s = .next t) : InboxOk t := by
  obtain ⟨_, hcfg, hinbox⟩ := stepKeepsParametersAndLaterEvents s t hstep
  intro e he snap hsnap
  rw [hcfg]
  exact h e (List.mem_of_mem_tail (hinbox ▸ he)) snap hsnap

/-- Settles O54: the tables by the effect of the event performed, arbitration by O52, the waiting snapshots because a
step issues nothing. -/
theorem everyStepKeepsTheInvariants : Obligations.EveryStepKeepsTheInvariants := by
  intro s t hinv hstep
  refine ⟨?_, everyStepKeepsArbitrationCurrent s t hinv.tables.1 hinv.arbitration hstep, step_inboxOk hinv.inbox hstep⟩
  obtain ⟨_, ⟨_, rfl⟩ | ⟨e, rest, hinbox, hissue⟩⟩ := step_next.1 hstep
  · exact hinv.tables
  · have hload : ∀ snap, e = .load snap → SnapshotOk s.cfg snap :=
      hinv.inbox e (by rw [hinbox]; exact List.mem_cons_self)
    exact effect_tables (s := { s with inbox := rest }) hload hinv.tables (issue_next hissue)

end Sys2Proof.Machine
/-! SUPPORT and CLAIMS. The active chains (`10_state.md` rules R49 and R50): every operation but a snapshot load or a
re-claim keeps them, and on them no step stops with a fault. -/

namespace Sys2Proof.Machine

variable {s t u : State} {c i : Nat}

/-! ## Operations keep the chains -/

theorem chains_answered {r : Response} (h : ChainsOk s) : ChainsOk { s with response := r } := h

/-- A change of a line that keeps its active bits keeps the chains. -/
theorem chains_onLine {f : Line → Line} (hf : ∀ l, (f l).active = l.active) (h : ChainsOk s) :
    ChainsOk (s.onLine i f) := by
  refine chains_same (s := s) rfl (fun j _ => ?_) (fun _ _ => ⟨rfl, rfl⟩) h
  rw [onLine_line]
  split
  · exact hf _
  · rfl

/-- A change of a CPU that keeps its running id and its links keeps the chains. -/
theorem chains_onCpu {g : Cpu → Cpu} (hg : ∀ p, (g p).runId = p.runId ∧ (g p).lastActive = p.lastActive)
    (h : ChainsOk s) : ChainsOk (s.onCpu c g) := by
  refine chains_same (s := s) rfl (fun _ _ => rfl) (fun k _ => ?_) h
  rw [onCpu_cpu]
  split
  · exact hg _
  · exact ⟨rfl, rfl⟩

theorem resetTable_line (hi : i < s.cfg.numIrq) : s.resetTable.line i = Line.atReset (cpuAll s.cfg) i := by
  simp [State.line, State.resetTable, hi]

theorem resetTable_cpu (hc : c < s.cfg.numCpu) : s.resetTable.cpu c = Cpu.atReset s.cfg.numIrq := by
  simp [State.cpu, State.resetTable, hc]

/-- A reset leaves every chain empty and no line active. -/
theorem chains_reset (s : State) : ChainsOk s.resetTable := by
  intro c hc
  refine ⟨[], ⟨?_, List.nodup_nil, by simp⟩, fun i hi => ?_⟩
  · rw [resetTable_cpu (s := s) hc]; rfl
  · rw [resetTable_line (s := s) hi]; simp [Line.atReset]

/-- Every table write keeps the chains. -/
theorem tableWrite_chains (hu : TableWrite s u) (hok : s.cfg.ok = true) (hsh : Shaped s) (h : ChainsOk s) :
    ChainsOk u := by
  cases hu with
  | reset => exact chains_reset s
  | rise n => exact chains_onLine (fun _ => rfl) h
  | fall n => exact chains_onLine (fun _ => rfl) h
  | bytes _ hb => exact byteWrites_chains hb h
  | sgi c v =>
    unfold State.sendSgi
    split
    · exact chains_onLine (fun _ => rfl) h
    · exact h
  | cpuCtrl c b => exact chains_onCpu (fun _ => ⟨rfl, rfl⟩) h
  | primask c b => exact chains_onCpu (fun _ => ⟨rfl, rfl⟩) h
  | popped c id prev hc hid hrun hne hp =>
    have hcfg := repended_cfg s c id.toNat
    have hcpu := repended_cpu s c id.toNat c
    exact chains_popped (hcfg ▸ hok) (repended_shaped hsh) (chains_repended h) (hcfg ▸ hc) (hcfg ▸ hid) (hcpu ▸ hrun)
      hne (hcpu ▸ hp)
  | spliced c id pred hc hid hrun hw =>
    exact chains_splice (s := s.pendFor c id.toNat) hok (pendFor_shaped hsh) (chains_pendFor h) hc hid hrun hw
  | repended c i => exact chains_pendFor h

/-- What an operation changes without arbitrating keeps the chains. -/
theorem quietWrite_chains (hu : QuietWrite s u) (hok : s.cfg.ok = true) (hsh : Shaped s) (h : ChainsOk s) :
    ChainsOk u := by
  cases hu with
  | nothing => exact h
  | binPoint c v => exact chains_onCpu (fun _ => ⟨rfl, rfl⟩) h
  | spliced c id pred hc hid hrun hw => exact chains_splice hok hsh h hc hid hrun hw
  | died d => exact h

/-- Settles O55: of the effects of `exec_next`, a load is excluded, a claim pushes a line that is not active, and the
others write the table or nothing that a chain holds. -/
theorem everyOperationKeepsTheActiveChains : Obligations.EveryOperationKeepsTheActiveChains := by
  intro s t i hinv hchains hnoload hfresh hexec
  have hok := hinv.tables.1
  have hsh := hinv.tables.2.1
  rcases exec_next hexec with ⟨u, _, hu, rfl⟩ | ⟨u, _, hu, rfl⟩ | ⟨c, id, hi, hc, rfl, hne, hid, _, rfl⟩ |
    ⟨snap, hi, _, _⟩
  · exact chains_update (tableWrite_chains hu hok hsh hchains)
  · exact chains_answered (quietWrite_chains hu hok hsh hchains)
  · exact chains_answered (chains_claim hok hsh hchains hc hid (hfresh c hi hne))
  · exact absurd hi (hnoload snap)

/-! ## No fault (logs 8 and 9) -/

/-- Where arbitration is current, the best pending line exists or there is none. -/
theorem best_idOk (h : ArbitrationCurrent s) (hc : c < s.cfg.numCpu) : IdOk s.cfg (s.cpu c).best := by
  have hbest := (h c hc).1
  unfold IsBest at hbest
  split at hbest
  · exact .inr hbest.1
  · exact .inl hbest

/-- An End-Of-Interrupt over tables that meet the invariants reads no stored id that names no line. -/
theorem retire_ne_beyond (ht : TablesOk s) (hc : c < s.cfg.numCpu) (id : IrqId) :
    s.retire c id ≠ .fault .idBeyondTable := by
  intro hfault
  obtain ⟨_, hsh, _, hcpus⟩ := ht
  obtain ⟨_, _, hrunOk, hlinks⟩ := hcpus c hc
  have hlen := lastActive_length hsh hc
  obtain ⟨hid, hrun, ⟨_, _, hbad⟩ | ⟨_, hw⟩ | ⟨_, hne, _⟩⟩ := retire_fault hfault
  · rw [← hlen] at hid
    exact hbad _ (List.getElem?_eq_getElem hid) (hlinks _ (List.getElem_mem hid))
  · refine walkChain_ne_beyond (fun k hk => ?_) ?_ hw
    · rw [hlen]; exact hlinks k hk
    · rw [hlen]; exact hrunOk.resolve_left hrun
  · cases hne

/-- The walk of an End-Of-Interrupt over a good chain ends: at the member before the id, or at the end of the chain. -/
theorem walkChain_ne_diverges {cfg : Config} {p : Cpu} {m : List IrqId} {id : IrqId}
    (hlen : p.lastActive.length = cfg.numIrq) (hg : IsGoodChain cfg p m) (hrun : p.runId ≠ noneId) (hne : id ≠ noneId)
    (hid : id ≠ p.runId) : walkChain p.lastActive id cfg.numIrq p.runId ≠ .diverges := by
  have hlt : ∀ k ∈ m, k.toNat < p.lastActive.length := fun k hk => by rw [hlen]; exact hg.2.2 k hk
  have hsize := goodChain_length hg
  obtain ⟨hchain, hnodup, _⟩ := hg
  by_cases hm : id ∈ m
  · obtain ⟨before, after, rfl⟩ := List.append_of_mem hm
    rcases List.eq_nil_or_concat before with rfl | ⟨before, pred, rfl⟩
    · exact absurd hchain.1.symm hid
    · simp only [List.concat_eq_append, List.append_assoc, List.singleton_append, List.length_append,
        List.length_cons] at hchain hnodup hlt hsize
      rw [walkChain_found hchain hlt hnodup (by omega)]
      simp
  · have hnil : m ≠ [] := by rintro rfl; exact hrun hchain
    rw [walkChain_ended hchain hnil hlt hm hne hsize]
    simp

/-- An End-Of-Interrupt of a CPU whose chain is good does not get stuck. -/
theorem retire_ne_diverges (hok : s.cfg.ok = true) (hsh : Shaped s) (hc : c < s.cfg.numCpu) (hchain : ChainOk s c)
    (id : IrqId) : s.retire c id ≠ .fault .eoiWalkDiverges := by
  intro hfault
  obtain ⟨m, hg, _⟩ := hchain
  obtain ⟨hid, hrun, ⟨_, hne, _⟩ | ⟨hne, _⟩ | ⟨hother, _, hw⟩⟩ := retire_fault hfault
  · cases hne
  · cases hne
  · have hsome : id ≠ noneId := by
      rintro rfl
      have := numIrq_le hok
      simp at hid
      omega
    exact walkChain_ne_diverges (lastActive_length hsh hc) hg hrun hsome hother hw

/-- Where arbitration is current, a step faults only in an End-Of-Interrupt: an acknowledge that claims has a best line,
which exists. -/
theorem step_fault {f : Fault} (hcur : ArbitrationCurrent s) (h : step s = .fault f) :
    ∃ inbox c id, c < s.cfg.numCpu ∧ ({ s with inbox := inbox } : State).retire c id = .fault f := by
  unfold step at h
  split at h
  · cases h
  · split at h
    · cases h
    · rename_i e rest _
      obtain ⟨i, hexec⟩ := issue_fault h
      rcases exec_fault hexec with ⟨c, _, hc, hne, hid⟩ | ⟨c, v, _, hc, hretire⟩
      · have hlt := (best_idOk hcur hc).resolve_left hne
        exact absurd hid (Nat.not_le.2 hlt)
      · exact ⟨rest, c, _, hc, hretire⟩

/-- Settles O56: only an End-Of-Interrupt could fault, the stored ids it reads name lines, and on a good chain its walk
ends. -/
theorem goodStatesNeverFault : Obligations.GoodStatesNeverFault := by
  intro s hinv
  have hbeyond : step s ≠ .fault .idBeyondTable := fun hstep => by
    obtain ⟨inbox, c, id, hc, hretire⟩ := step_fault hinv.arbitration hstep
    exact retire_ne_beyond (s := { s with inbox := inbox }) hinv.tables hc id hretire
  refine ⟨hbeyond, fun hchains f hstep => ?_⟩
  cases f with
  | idBeyondTable => exact hbeyond hstep
  | eoiWalkDiverges =>
    obtain ⟨inbox, c, id, hc, hretire⟩ := step_fault hinv.arbitration hstep
    exact retire_ne_diverges (s := { s with inbox := inbox }) hinv.tables.1 hinv.tables.2.1 hc (hchains c hc) id hretire

end Sys2Proof.Machine
/-! SUPPORT and CLAIMS. Banking (`10_state.md` rule R46), first half: no register access by one CPU changes another
CPU's banked line state, but a Clear-Pending or an SGI write. -/

namespace Sys2Proof.Machine

variable {s t u : State} {c i k : Nat}

/-! ## What CPU `c` keeps of another CPU's banked lines -/

/-- The two lines have the same enable, pending and active bit for every CPU but `c`. -/
def SameForOthers (c : Nat) (l l' : Line) : Prop :=
  ∀ k ≠ c, l'.enabled.getLsbD k = l.enabled.getLsbD k ∧ l'.pending.getLsbD k = l.pending.getLsbD k ∧
    l'.active.getLsbD k = l.active.getLsbD k

/-- `t` has the banked line state of `s` for every CPU but `c`. -/
def PrivateKept (c : Nat) (s t : State) : Prop :=
  (∀ i < numPrivate, SameForOthers c (s.line i) (t.line i)) ∧
    ∀ i < numPrivate, ∀ k ≠ c, t.prio i k = s.prio i k

theorem sameForOthers_refl (c : Nat) (l : Line) : SameForOthers c l l := fun _ _ => ⟨rfl, rfl, rfl⟩

theorem privateKept_refl (c : Nat) (s : State) : PrivateKept c s s :=
  ⟨fun _ _ => sameForOthers_refl c _, fun _ _ _ _ => rfl⟩

theorem privateKept_trans (h : PrivateKept c s t) (h' : PrivateKept c t u) : PrivateKept c s u := by
  refine ⟨fun i hi k hk => ?_, fun i hi k hk => (h'.2 i hi k hk).trans (h.2 i hi k hk)⟩
  obtain ⟨he, hp, ha⟩ := h.1 i hi k hk
  obtain ⟨he', hp', ha'⟩ := h'.1 i hi k hk
  exact ⟨he'.trans he, hp'.trans hp, ha'.trans ha⟩

/-- Arbitration changes no line and no priority. -/
theorem privateKept_update (h : PrivateKept c s t) : PrivateKept c s t.update :=
  ⟨h.1, fun i hi k hk => by rw [update_prio]; exact h.2 i hi k hk⟩

theorem privateKept_answered {r : Response} (h : PrivateKept c s t) : PrivateKept c s { t with response := r } := h

theorem or_cpuBit_other {m : CpuSet} (h : k ≠ c) : (m ||| cpuBit c).getLsbD k = m.getLsbD k := by
  rw [Bool.eq_iff_iff, active_or]; simp [h]

theorem and_not_cpuBit_other {m : CpuSet} (h : k ≠ c) : (m &&& ~~~(cpuBit c)).getLsbD k = m.getLsbD k := by
  rw [Bool.eq_iff_iff, active_and]; simp [h]

theorem privateKept_onLine {f : Line → Line} (hf : i < numPrivate → SameForOthers c (s.line i) (f (s.line i))) :
    PrivateKept c s (s.onLine i f) := by
  refine ⟨fun j hj => ?_, fun _ _ _ _ => rfl⟩
  rw [onLine_line]
  split
  · rename_i h; rw [h.1] at hj ⊢; exact hf hj
  · exact sameForOthers_refl c _

theorem privateKept_onLines {f : Nat → Line → Line}
    (hf : ∀ i < numPrivate, SameForOthers c (s.line i) (f i (s.line i))) : PrivateKept c s (s.onLines f) := by
  refine ⟨fun j hj => ?_, fun _ _ _ _ => rfl⟩
  rw [onLines_line]
  split
  · exact hf j hj
  · exact sameForOthers_refl c _

/-- A change of its own interface leaves the other CPUs' priorities. -/
theorem privateKept_onCpu {g : Cpu → Cpu} : PrivateKept c s (s.onCpu c g) := by
  refine ⟨fun _ _ => sameForOthers_refl c _, fun i hi k hk => ?_⟩
  unfold State.prio
  rw [if_pos hi, if_pos hi, onCpu_cpu, if_neg fun h => hk h.1]

/-! ## Each write keeps it -/

theorem privateKept_writeCtrl {b : Byte} : PrivateKept c s (s.writeCtrl k b) := by
  unfold State.writeCtrl
  split <;> exact privateKept_refl c s

theorem privateKept_writeSetEnable {j : Nat} {b : Byte} : PrivateKept c s (s.writeSetEnable c j b) := by
  refine privateKept_onLines fun i hi => ?_
  split
  · unfold Line.setEnable
    split
    · exact fun k hk => ⟨or_cpuBit_other hk, rfl, rfl⟩
    · split
      · refine fun k hk => ⟨or_cpuBit_other hk, ?_, rfl⟩
        dsimp only
        split
        · exact or_cpuBit_other hk
        · rfl
      · exact sameForOthers_refl c _
  · exact sameForOthers_refl c _

theorem privateKept_writeClrEnable {j : Nat} {b : Byte} : PrivateKept c s (s.writeClrEnable c j b) := by
  refine privateKept_onLines fun i hi => ?_
  split
  · unfold Line.clearEnable
    split
    · exact fun k hk => ⟨and_not_cpuBit_other hk, rfl, rfl⟩
    · exact sameForOthers_refl c _
  · exact sameForOthers_refl c _

theorem privateKept_writeSetPending {j : Nat} {b : Byte} : PrivateKept c s (s.writeSetPending c j b) := by
  refine privateKept_onLines fun i hi => ?_
  split
  · unfold Line.setPending
    split
    · exact fun k hk => ⟨rfl, or_cpuBit_other hk, rfl⟩
    · exact sameForOthers_refl c _
  · exact sameForOthers_refl c _

theorem privateKept_setPrio {b : Byte} : PrivateKept c s (s.setPrio c i b) := by
  unfold State.setPrio
  split
  · exact privateKept_onCpu
  · refine ⟨fun _ _ => sameForOthers_refl c _, fun j hj k _ => ?_⟩
    unfold State.prio
    rw [if_pos hj, if_pos hj]
    rfl

theorem privateKept_writeTarget {b : Byte} : PrivateKept c s (s.writeTarget c i b) :=
  privateKept_onLine fun _ _ _ => ⟨rfl, rfl, rfl⟩

theorem privateKept_writeConfig {j : Nat} {b : Byte} : PrivateKept c s (s.writeConfig j b) := by
  refine privateKept_onLines fun i _ => ?_
  split
  · unfold Line.configure
    split <;> exact fun _ _ => ⟨rfl, rfl, rfl⟩
  · exact sameForOthers_refl c _

/-- A banked line is N:N, so its claim clears the pending bit of the claiming CPU only. -/
theorem privateKept_claim (hmodel : ∀ i < numPrivate, (s.line i).model = .nn) {id : IrqId} :
    PrivateKept c s (s.claim c id) := by
  rw [claim_eq]
  refine privateKept_update (privateKept_trans privateKept_onCpu (privateKept_onLine fun hi => ?_))
  rw [onCpu_line, hmodel _ hi]
  exact fun k hk => ⟨rfl, and_not_cpuBit_other hk, or_cpuBit_other hk⟩

theorem privateKept_pendFor : PrivateKept c s (s.pendFor c i) :=
  privateKept_onLine fun _ _ hk => ⟨rfl, or_cpuBit_other hk, rfl⟩

theorem privateKept_repended : PrivateKept c s (s.repended c i) := by
  unfold State.repended
  split
  · exact privateKept_pendFor
  · exact privateKept_refl c s

theorem privateKept_deactivate : PrivateKept c s (s.deactivate c i) :=
  privateKept_onLine fun _ _ hk => ⟨rfl, rfl, and_not_cpuBit_other hk⟩

theorem privateKept_popped {prev : IrqId} : PrivateKept c s (s.popped c i prev) :=
  privateKept_trans privateKept_deactivate privateKept_onCpu

theorem privateKept_splice {pred : IrqId} : PrivateKept c s (s.splice c i pred) :=
  privateKept_trans privateKept_onCpu privateKept_deactivate

/-! ## Each access keeps it -/

theorem privateKept_read {g : Group} {j : Nat} {b : Byte} (h : s.readByteOf g c j b = .next t) :
    PrivateKept c s t := by
  obtain ⟨_, _, ⟨_, rfl⟩ | ⟨_, rfl⟩⟩ := readByteOf_next.1 h <;> exact privateKept_refl c s

theorem privateKept_write {g : Group} {j : Nat} (hu : PrivateKept c s u) (h : s.writeByteOf g c j u = .next t) :
    PrivateKept c s t := by
  obtain ⟨_, _, ⟨_, rfl⟩ | ⟨_, rfl⟩⟩ := writeByteOf_next.1 h
  · exact privateKept_answered (privateKept_update hu)
  · exact privateKept_refl c s

theorem privateKept_answer {r : Response} (hu : PrivateKept c s u) (h : s.asCpu c (u.answer r) = .next t) :
    PrivateKept c s t := by
  obtain ⟨_, _, h⟩ := asCpu_next.1 h
  rw [answer_next] at h
  subst h
  exact privateKept_answered hu

theorem privateKept_ack (hmodel : ∀ i < numPrivate, (s.line i).model = .nn) (h : execCpuAckR c s = .next t) :
    PrivateKept c s t := by
  obtain rfl | ⟨_, _, _, rfl⟩ := ack_next h
  · exact privateKept_refl c s
  · exact privateKept_answered (privateKept_claim hmodel)

theorem privateKept_retire {id : IrqId} (h : s.retire c id = .next t) : PrivateKept c s t := by
  obtain rfl | ⟨_, _, ⟨_, prev, _, _, rfl⟩ | ⟨_, pred, _, ⟨_, rfl⟩ | ⟨_, rfl⟩⟩ | ⟨_, _, _, rfl⟩⟩ := retire_next h
  · exact privateKept_refl c s
  · exact privateKept_answered (privateKept_update (privateKept_trans privateKept_repended privateKept_popped))
  · exact privateKept_answered (privateKept_update (privateKept_trans privateKept_pendFor privateKept_splice))
  · exact privateKept_answered privateKept_splice
  · exact privateKept_answered (privateKept_update privateKept_pendFor)

/-- Every register access of CPU `c` but a Clear-Pending or an SGI write keeps the banked lines of the other CPUs. -/
theorem exec_privateKept {i : Instr} (hmodel : ∀ i < numPrivate, (s.line i).model = .nn)
    (hcaller : callerOf i = some c) (hclr : ∀ c j b, i ≠ .distClrPendingW c j b) (hsgi : ∀ c v, i ≠ .distSgiW c v)
    (h : exec i s = .next t) : PrivateKept c s t := by
  cases i <;> simp only [callerOf, Option.some.injEq, reduceCtorEq] at hcaller <;> subst hcaller
  case distClrPendingW c j b => exact absurd rfl (hclr c j b)
  case distSgiW c v => exact absurd rfl (hsgi c v)
  case distCtrlW => exact privateKept_write privateKept_writeCtrl h
  case distSetEnableW => exact privateKept_write privateKept_writeSetEnable h
  case distClrEnableW => exact privateKept_write privateKept_writeClrEnable h
  case distSetPendingW => exact privateKept_write privateKept_writeSetPending h
  case distActiveW => exact privateKept_write (privateKept_refl _ s) h
  case distPriorityW => exact privateKept_write privateKept_setPrio h
  case distTargetW => exact privateKept_write privateKept_writeTarget h
  case distConfigW => exact privateKept_write privateKept_writeConfig h
  case distIdW => exact privateKept_write (privateKept_refl _ s) h
  case distSgiR | cpuEoiR =>
    obtain ⟨_, _, h⟩ := asCpu_next.1 h
    rw [raiseFatal_next] at h
    subst h
    exact privateKept_refl _ s
  case cpuCtrlW | cpuPrimaskW => exact privateKept_answer (privateKept_update privateKept_onCpu) h
  case cpuBinpointW => exact privateKept_answer privateKept_onCpu h
  case cpuAckR => exact privateKept_ack hmodel h
  case cpuEoiW => exact privateKept_retire (asCpu_next.1 h).2.2
  case cpuCtrlR | cpuPrimaskR | cpuBinpointR | cpuAckW | cpuRunpriR | cpuRunpriW | cpuHipendR | cpuHipendW =>
    exact privateKept_answer (privateKept_refl _ s) h
  case distCtrlR | distSetEnableR | distClrEnableR | distSetPendingR | distClrPendingR | distActiveR | distPriorityR |
      distTargetR | distConfigR | distIdR =>
    exact privateKept_read h

/-- Legal parameters have all the banked lines. -/
theorem numPrivate_le {cfg : Config} (h : cfg.ok = true) : numPrivate ≤ cfg.numIrq := by
  simp only [Config.ok, Config.countsOk, Bool.and_eq_true, decide_eq_true_eq] at h
  unfold numPrivate
  omega

/-- Settles O57, access by access; banked lines are N:N by the invariants. -/
theorem privateStateIsNotMutatedByOtherCpus : Obligations.PrivateStateIsNotMutatedByOtherCpus := by
  intro s t i caller other line hinv hcaller hother _ hline hclr hsgi hexec
  obtain ⟨hok, _, hlines, _⟩ := hinv.tables
  have hmodel : ∀ i < numPrivate, (s.line i).model = .nn := fun i hi =>
    have ⟨_, _, hprivate, _⟩ := hlines i (Nat.lt_of_lt_of_le hi (numPrivate_le hok))
    (hprivate hi).1
  obtain ⟨hbits, hprio⟩ := exec_privateKept hmodel hcaller hclr hsgi hexec
  obtain ⟨hen, hpend, hact⟩ := hbits line hline other hother
  exact ⟨hen, hpend, hact, hprio line hline other hother⟩

end Sys2Proof.Machine
/-! SUPPORT and CLAIMS. Banking (`10_state.md` rule R46), second half: no register read by one CPU shows another CPU's
banked line state. -/

namespace Sys2Proof.Machine

variable {s s₁ s₂ : State} {c : Nat}

/-! ## Two states that CPU `c` sees alike -/

/-- The two states differ, in the lines below 32, only in other CPUs' enable, pending and active bits, and in the CPU
interfaces; the banked priorities of CPU `c` are the same. -/
structure SameView (c : Nat) (s₁ s₂ : State) : Prop where
  cfg : s₁.cfg = s₂.cfg
  distEnabled : s₁.distEnabled = s₂.distEnabled
  prioShared : s₁.prioShared = s₂.prioShared
  prioPriv : (s₁.cpu c).prioPriv = (s₂.cpu c).prioPriv
  shared : ∀ i, numPrivate ≤ i → s₁.line i = s₂.line i
  banked : ∀ i < numPrivate, (s₁.line i).enabled.getLsbD c = (s₂.line i).enabled.getLsbD c ∧
    (s₁.line i).pending.getLsbD c = (s₂.line i).pending.getLsbD c ∧
    (s₁.line i).active.getLsbD c = (s₂.line i).active.getLsbD c ∧
    (s₁.line i).trigger = (s₂.line i).trigger ∧ (s₁.line i).model = (s₂.line i).model ∧
    (s₁.line i).target = (s₂.line i).target

namespace SameView

/-- The view of any line: the bits of CPU `c`, and what the CPUs share of a line. -/
theorem line (h : SameView c s₁ s₂) (i : Nat) : (s₁.line i).enabled.getLsbD c = (s₂.line i).enabled.getLsbD c ∧
    (s₁.line i).pending.getLsbD c = (s₂.line i).pending.getLsbD c ∧
    (s₁.line i).trigger = (s₂.line i).trigger ∧ (s₁.line i).model = (s₂.line i).model ∧
    (s₁.line i).target = (s₂.line i).target := by
  rcases Nat.lt_or_ge i numPrivate with hi | hi
  · obtain ⟨hen, hpend, _, hrest⟩ := h.banked i hi
    exact ⟨hen, hpend, hrest⟩
  · rw [h.shared i hi]
    exact ⟨rfl, rfl, rfl, rfl, rfl⟩

theorem prio (h : SameView c s₁ s₂) (i : Nat) : s₁.prio i c = s₂.prio i c := by
  unfold State.prio
  rw [h.prioPriv, h.prioShared]

theorem enableByte (h : SameView c s₁ s₂) (j : Nat) : s₁.enableByte c j = s₂.enableByte c j :=
  packByte_congr fun _ _ => (h.line _).1

theorem pendByte (h : SameView c s₁ s₂) (j : Nat) : s₁.pendByte c j = s₂.pendByte c j :=
  packByte_congr fun k _ => by
    unfold State.pendBit
    split
    · exact (h.line _).2.1
    · rw [h.shared _ (by omega)]

theorem actByte (h : SameView c s₁ s₂) (j : Nat) : s₁.actByte c j = s₂.actByte c j :=
  packByte_congr fun k _ => by
    unfold State.actBit
    split
    case isTrue hi =>
      obtain ⟨_, _, hact, _⟩ := h.banked _ hi
      exact hact
    case isFalse hi => rw [h.shared _ (by omega)]

theorem targetByte (h : SameView c s₁ s₂) (i : Nat) : s₁.targetByte c i = s₂.targetByte c i := by
  obtain ⟨_, _, _, _, htarget⟩ := h.line i
  unfold State.targetByte
  rw [htarget]

theorem configByte (h : SameView c s₁ s₂) (j : Nat) : s₁.configByte j = s₂.configByte j :=
  packByte_congr fun k _ => by
    obtain ⟨_, _, htrigger, hmodel, _⟩ := h.line (4 * j + k / 2)
    dsimp only
    rw [htrigger, hmodel]

/-- Every byte of the distributor window reads alike. -/
theorem distReadByte (h : SameView c s₁ s₂) (off : Nat) : s₁.distReadByte c off = s₂.distReadByte c off := by
  unfold State.distReadByte
  rw [h.cfg]
  cases s₂.cfg.extentAt off with
  | none => rfl
  | some x =>
    dsimp only
    cases x.group with
    | ctrl => dsimp only; unfold State.ctrlByte; rw [h.distEnabled]
    | setEnable => exact h.enableByte _
    | clrEnable => exact h.enableByte _
    | setPending => exact h.pendByte _
    | clrPending => exact h.pendByte _
    | active => exact h.actByte _
    | priority => exact h.prio _
    | target => exact h.targetByte _
    | config => exact h.configByte _
    | sgi => rfl
    | id => dsimp only; unfold State.idByte; rw [h.cfg]

/-! ## Arbitration for CPU `c` -/

theorem candidate_iff (h : SameView c s₁ s₂) (i : Nat) : Candidate s₁ c i ↔ Candidate s₂ c i := by
  obtain ⟨hen, hpend, _⟩ := h.line i
  unfold Candidate
  rw [hen, hpend]

/-- Where arbitration is current and the CPU's own interface is the same but for its outputs, these are the same too. -/
theorem cpu_eq (h : SameView c s₁ s₂) (hc : c < s₁.cfg.numCpu) (hcur₁ : ArbitrationCurrent s₁)
    (hcur₂ : ArbitrationCurrent s₂)
    (hcpu : s₁.cpu c = { s₂.cpu c with best := (s₁.cpu c).best, irqOut := (s₁.cpu c).irqOut }) :
    s₁.cpu c = s₂.cpu c := by
  have hgate : (s₁.cpu c).enabled = (s₂.cpu c).enabled := by rw [hcpu]
  have hmask : (s₁.cpu c).prioMask = (s₂.cpu c).prioMask := by rw [hcpu]
  have hrun : (s₁.cpu c).runPrio = (s₂.cpu c).runPrio := by rw [hcpu]
  obtain ⟨hbest₁, hout₁⟩ := hcur₁ c hc
  obtain ⟨hbest₂, hout₂⟩ := hcur₂ c (h.cfg ▸ hc)
  have hbest : (s₁.cpu c).best = (s₂.cpu c).best := by
    refine isBest_unique (s := s₂) (c := c) ?_ hbest₂
    simpa only [IsBest, GateOpen, NotAfter, h.candidate_iff, h.prio, h.cfg, h.distEnabled, hgate] using hbest₁
  have hout : (s₁.cpu c).irqOut = (s₂.cpu c).irqOut := by
    rw [Bool.eq_iff_iff, hout₁, hout₂]
    simp only [MayInterrupt, GateOpen, h.candidate_iff, h.prio, h.cfg, h.distEnabled, hgate, hmask, hrun]
  rw [hcpu, hbest, hout]

end SameView

/-! ## What a read returns -/

/-- Both operations end in a next state, and return the same or are fatal alike. -/
def SameAnswer (o₁ o₂ : Outcome) : Prop :=
  ∃ t₁ t₂, o₁ = .next t₁ ∧ o₂ = .next t₂ ∧ t₁.response = t₂.response ∧ t₁.fatal = t₂.fatal ∧
    (t₁.fatal = true → t₁.diag = t₂.diag)

theorem sameAnswer_answer (h₁ : s₁.fatal = false) (h₂ : s₂.fatal = false) (r : Response) :
    SameAnswer (s₁.answer r) (s₂.answer r) :=
  ⟨_, _, rfl, rfl, rfl, h₁.trans h₂.symm, fun h => absurd (h₁.symm.trans h) Bool.false_ne_true⟩

theorem sameAnswer_fatal (s₁ s₂ : State) (d : Diag) : SameAnswer (s₁.raiseFatal d) (s₂.raiseFatal d) :=
  ⟨_, _, rfl, rfl, rfl, rfl, fun _ => rfl⟩

/-- All that a read decodes to: a byte of a group, a register of the CPU interface, a wide read, or nothing. -/
theorem decodeTxn_read_cases {cfg : Config} {t : Txn} (hmap : cfg.mapOk = true) (hdir : t.dir = .read) :
    (∃ g j, j < cfg.len g ∧ decodeTxn cfg t = .op (readRow t.cpu g j)) ∨
    (∃ i, cpuReadRow t.cpu t.off.toNat = some i ∧ decodeTxn cfg t = .op i) ∨
    (∃ off n, decodeTxn cfg t = .wideRead t.cpu off n) ∨ ∃ d, decodeTxn cfg t = .undecoded d := by
  unfold decodeTxn
  cases t.win with
  | cpuif =>
    unfold decodeCpuif
    rw [hdir]
    dsimp only
    split
    · rename_i i hrow
      split at hrow
      · exact .inr (.inl ⟨i, hrow, rfl⟩)
      · cases hrow
    · exact .inr (.inr (.inr ⟨_, rfl⟩))
  | dist =>
    unfold decodeDist
    rw [hdir]
    dsimp only
    split
    · exact .inr (.inr (.inr ⟨_, rfl⟩))
    split
    · rename_i hsgi
      cases hsgi.1
    split
    · by_cases hg : ∃ g, cfg.holds g t.off.toNat
      · obtain ⟨g, hlow, hhigh⟩ := hg
        exact .inl ⟨g, t.off.toNat - cfg.base g, by omega, decodeByteAccess_read hmap hdir ⟨hlow, hhigh⟩⟩
      · exact .inr (.inr (.inr ⟨_, decodeByteAccess_none (not_exists.1 hg)⟩))
    · split
      · exact .inr (.inr (.inr ⟨_, rfl⟩))
      · exact .inr (.inr (.inl ⟨_, _, rfl⟩))

/-- A one-byte read of a group that has reads returns what `DistReadByte` returns. -/
theorem readRow_answer {g : Group} {j : Nat} (hs : Live s) (hc : c < s.cfg.numCpu) (hne : g ≠ .sgi)
    (hj : j < s.cfg.len g) : exec (readRow c g j) s =
      .next { s with response := .data ((s.distReadByte c (s.cfg.base g + j)).setWidth 32) } := by
  obtain ⟨hok, _, hf⟩ := hs
  have hread := readRow_exec (off := s.cfg.base g + j) hok hf hc ⟨by omega, by omega⟩ hne
  rwa [Nat.add_sub_cancel_left] at hread

/-- Every one-byte read answers alike; one of the SGI word is fatal. -/
theorem readRow_sameAnswer {g : Group} {j : Nat} (hs₁ : Live s₁) (hs₂ : Live s₂) (hview : SameView c s₁ s₂)
    (hc : c < s₁.cfg.numCpu) (hj : j < s₁.cfg.len g) :
    SameAnswer (exec (readRow c g j) s₁) (exec (readRow c g j) s₂) := by
  have hc₂ : c < s₂.cfg.numCpu := hview.cfg ▸ hc
  have hj₂ : j < s₂.cfg.len g := hview.cfg ▸ hj
  by_cases hg : g = .sgi
  · subst hg
    change SameAnswer (execDistSgiR c j s₁) (execDistSgiR c j s₂)
    unfold execDistSgiR
    rw [asCpu_live hs₁.2.2 hc, asCpu_live hs₂.2.2 hc₂, hview.cfg]
    exact sameAnswer_fatal s₁ s₂ _
  · rw [readRow_answer hs₁ hc hg hj, readRow_answer hs₂ hc₂ hg hj₂, hview.distReadByte,
      congrArg Config.base hview.cfg]
    exact sameAnswer_answer hs₁.2.2 hs₂.2.2 _

/-- The acknowledge answers alike: the best line is the same, and it exists. -/
theorem ack_sameAnswer (hf₁ : s₁.fatal = false) (hf₂ : s₂.fatal = false) (hview : SameView c s₁ s₂)
    (hc : c < s₁.cfg.numCpu) (hcur : ArbitrationCurrent s₁) (hcpu : s₁.cpu c = s₂.cpu c) :
    SameAnswer (execCpuAckR c s₁) (execCpuAckR c s₂) := by
  have hbest := best_idOk hcur hc
  unfold execCpuAckR
  rw [asCpu_live hf₁ hc, asCpu_live hf₂ (hview.cfg ▸ hc), hcpu, hview.cfg]
  rw [hcpu, hview.cfg] at hbest
  dsimp only
  rw [hview.prio]
  by_cases hnone : (s₂.cpu c).best = noneId
  · rw [if_pos hnone, if_pos hnone]
    exact sameAnswer_answer hf₁ hf₂ _
  · have hlt := Nat.not_le.2 (hbest.resolve_left hnone)
    rw [if_neg hnone, if_neg hnone, if_neg hlt, if_neg hlt]
    by_cases hrun : (s₂.cpu c).runPrio.toNat ≤ (s₂.prio (s₂.cpu c).best.toNat c).toNat
    · rw [if_pos hrun, if_pos hrun]
      exact sameAnswer_answer hf₁ hf₂ _
    · rw [if_neg hrun, if_neg hrun]
      exact sameAnswer_answer (s₁ := s₁.claim c _) (s₂ := s₂.claim c _) hf₁ hf₂ _

/-- Every read of a CPU-interface register answers alike; one of `CPU_EOI` is fatal. -/
theorem cpuReadRow_sameAnswer {off : Nat} {i : Instr} (hf₁ : s₁.fatal = false) (hf₂ : s₂.fatal = false)
    (hview : SameView c s₁ s₂) (hc : c < s₁.cfg.numCpu) (hcur : ArbitrationCurrent s₁) (hcpu : s₁.cpu c = s₂.cpu c)
    (hrow : cpuReadRow c off = some i) : SameAnswer (exec i s₁) (exec i s₂) := by
  have hlive₁ := asCpu_live hf₁ hc
  have hlive₂ := asCpu_live hf₂ (c := c) (hview.cfg ▸ hc)
  have hanswer : ∀ f : Cpu → Word,
      SameAnswer (s₁.asCpu c (s₁.answer (.data (f (s₁.cpu c))))) (s₂.asCpu c (s₂.answer (.data (f (s₂.cpu c))))) :=
    fun f => by
      rw [hlive₁, hlive₂, hcpu]
      exact sameAnswer_answer hf₁ hf₂ _
  unfold cpuReadRow at hrow
  split at hrow <;> cases hrow
  case h_1 => exact hanswer fun p => if p.enabled then 1 else 0
  case h_2 => exact hanswer fun p => p.prioMask.setWidth 32
  case h_3 => exact hanswer fun p => p.binPoint
  case h_4 => exact ack_sameAnswer hf₁ hf₂ hview hc hcur hcpu
  case h_5 =>
    change SameAnswer (execCpuEoiR c s₁) (execCpuEoiR c s₂)
    unfold execCpuEoiR
    rw [hlive₁, hlive₂]
    exact sameAnswer_fatal s₁ s₂ _
  case h_6 => exact hanswer fun p => p.runPrio.setWidth 32
  case h_7 => exact hanswer fun p => idWord p.best

/-- Every read by CPU `c` answers alike, where arbitration is current and its own interface is the same. -/
theorem read_sameAnswer {txn : Txn} (hs₁ : Live s₁) (hs₂ : Live s₂) (hview : SameView c s₁ s₂)
    (hc : c < s₁.cfg.numCpu) (hcur : ArbitrationCurrent s₁) (hcpu : s₁.cpu c = s₂.cpu c) (hdir : txn.dir = .read)
    (hcaller : txn.cpu = c) : SameAnswer (issue (.bus txn) s₁) (issue (.bus txn) s₂) := by
  subst hcaller
  have hf₁ := hs₁.2.2
  have hf₂ := hs₂.2.2
  have hc₂ : txn.cpu < s₂.cfg.numCpu := hview.cfg ▸ hc
  change SameAnswer (issueTxn txn s₁) (issueTxn txn s₂)
  rw [issueTxn_live hc hf₁, issueTxn_live hc₂ hf₂, ← hview.cfg]
  rcases decodeTxn_read_cases (mapOk_of_ok hs₁.1) hdir with
    ⟨g, j, hj, hop⟩ | ⟨i, hrow, hop⟩ | ⟨off, n, hop⟩ | ⟨d, hop⟩ <;> rw [hop] <;> dsimp only
  · exact readRow_sameAnswer hs₁ hs₂ hview hc hj
  · exact cpuReadRow_sameAnswer hf₁ hf₂ hview hc hcur hcpu hrow
  · unfold execWideRead
    simp only [asCpu_live hf₁ hc, asCpu_live hf₂ hc₂, hview.distReadByte]
    exact sameAnswer_answer hf₁ hf₂ _
  · exact sameAnswer_fatal s₁ s₂ d

/-- Settles O58: the two states are a `SameView`, whose bytes, arbitration and answers are the same. -/
theorem privateStateIsNotVisibleToOtherCpus : Obligations.PrivateStateIsNotVisibleToOtherCpus := by
  intro s₁ s₂ c hs₁ hs₂ hcfg hc hdist hshared hpriv hlines hbanked
  have hview : SameView c s₁ s₂ := ⟨hcfg, hdist, hshared, hpriv, hlines, hbanked⟩
  refine ⟨fun g j hne hj => ⟨_, readRow_answer hs₁ hc hne hj, ?_⟩, fun hcur₁ hcur₂ hown => ?_⟩
  · rw [readRow_answer hs₂ (hcfg ▸ hc) hne (hcfg ▸ hj), hcfg, hview.distReadByte]
  · have hcpu := hview.cpu_eq hc hcur₁ hcur₂ hown
    exact ⟨hcpu, fun txn hdir hcaller => read_sameAnswer hs₁ hs₂ hview hc hcur₁ hcpu hdir hcaller⟩

end Sys2Proof.Machine
/-! SUPPORT and CLAIMS. Register windows (`20_memory.md`): which operation a step performs, which are refused, and which
distributor accesses are fatal. -/

namespace Sys2Proof.Machine

variable {cfg : Config} {s : State} {t : Txn} {c off n k : Nat}

/-! ## The operation that an event is (rules R75 and R103) -/

theorem issueTxn_op {i : Instr} (hc : t.cpu < s.cfg.numCpu) (h : decodeTxn s.cfg t = .op i) :
    issueTxn t s = exec i s := by
  simp only [issueTxn, if_pos hc, h]

theorem issueTxn_wideRead (hc : t.cpu < s.cfg.numCpu) (h : decodeTxn s.cfg t = .wideRead c off n) :
    issueTxn t s = execWideRead c off n s := by
  simp only [issueTxn, if_pos hc, h]

theorem issueTxn_wideWrite {v : Word} (hc : t.cpu < s.cfg.numCpu) (h : decodeTxn s.cfg t = .wideWrite c off n v) :
    issueTxn t s = execWideWrite c off n v s := by
  simp only [issueTxn, if_pos hc, h]

/-- Rule R130: an undecoded access is fatal. -/
theorem issueTxn_undecoded {d : Diag} (hf : s.fatal = false) (hc : t.cpu < s.cfg.numCpu)
    (h : decodeTxn s.cfg t = .undecoded d) : issueTxn t s = .next (s.died d) := by
  simp only [issueTxn, if_pos hc, h, unlessFatal_live hf, State.raiseFatal]

/-- Settles O1: the first event is performed in the state that has already dropped it, and an access is what it decodes
to. -/
theorem stepPerformsTheIssuedOperation : Obligations.StepPerformsTheIssuedOperation := by
  intro s rest hf
  have hfirst : ∀ e, s.inbox = e :: rest → step s = issue e { s with inbox := rest } := fun _ h => step_of_inbox hf h
  exact ⟨hfirst, fun _ _ h hc hd => (hfirst _ h).trans (issueTxn_op hc hd),
    fun _ _ _ _ h hc hd => (hfirst _ h).trans (issueTxn_wideRead hc hd),
    fun _ _ _ _ _ h hc hd => (hfirst _ h).trans (issueTxn_wideWrite hc hd),
    fun _ _ h => hfirst _ h, hfirst _, hfirst _, fun _ h => hfirst _ h,
    fun h => step_next.2 ⟨hf, .inl ⟨h, rfl⟩⟩⟩

/-! ## What is refused (rules R73 and R162) -/

theorem asCpu_missing (hf : s.fatal = false) (hc : s.cfg.numCpu ≤ c) (o : Outcome) :
    s.asCpu c o = .refused .noSuchCpu := by
  rw [State.asCpu, unlessFatal_live hf, if_neg (Nat.not_lt.2 hc)]

theorem issueTxn_missing (hf : s.fatal = false) (hc : s.cfg.numCpu ≤ t.cpu) :
    issueTxn t s = .refused .noSuchCpu := by
  rw [issueTxn, if_neg (Nat.not_lt.2 hc), unlessFatal_live hf]

/-- Every register access checks its caller before it does anything. -/
theorem exec_asCpu {i : Instr} (h : callerOf i = some c) (s : State) : ∃ o, exec i s = s.asCpu c o := by
  cases i <;> cases h <;> exact ⟨_, rfl⟩

theorem execSetLine_noSuchInput {v : Nat} (hf : s.fatal = false) (hn : s.cfg.numIrq ≤ n + numPrivate) :
    execSetLine n v s = .refused .noSuchInput := by
  rw [execSetLine, unlessFatal_live hf, if_neg (by omega)]

theorem execSetLine_notALevel {v : Nat} (hf : s.fatal = false) (hn : n + numPrivate < s.cfg.numIrq) (hv : 1 < v) :
    execSetLine n v s = .refused .notALevel := by
  rw [execSetLine, unlessFatal_live hf, if_pos (by omega), if_neg (Nat.not_le.2 hv)]

/-- Settles O9, by the caller check that every access starts with, and the two checks of a line event. -/
theorem operationsOnMissingPartsAreRefused : Obligations.OperationsOnMissingPartsAreRefused := by
  refine fun s hf => ⟨fun c hc => ⟨fun t rest hinbox ht => ?_, fun i hi => ?_⟩, fun n v =>
    ⟨execSetLine_noSuchInput hf, execSetLine_notALevel hf⟩⟩
  · subst ht
    rw [step_of_inbox hf hinbox]
    exact issueTxn_missing (s := { s with inbox := rest }) hf hc
  · obtain ⟨o, ho⟩ := exec_asCpu hi s
    rw [ho, asCpu_missing hf hc]

/-! ## What a distributor access decodes to (rules R81, R82 and R103) -/

/-- An access that runs past the window is undecoded, whatever its bytes are. -/
theorem decodeDist_past (h : 0x1000 < t.off.toNat + t.size.bytes) :
    decodeDist cfg t = .undecoded (.undecodedOffset .dist t.cpu t.dir t.off.toNat t.size.bytes) := by
  simp only [decodeDist, if_pos h]

theorem decodeDist_byte (h : t.size = .byte) : decodeDist cfg t = decodeByteAccess cfg t := by
  have hend : ¬0x1000 < t.off.toNat + t.size.bytes := by
    have := t.off.isLt
    rw [h, Size.bytes]
    omega
  have hsgi : ¬(t.dir = .write ∧ t.size = .word ∧ t.off.toNat = cfg.offSgi) := fun hw => by
    rw [h] at hw
    cases hw.2.1
  simp only [decodeDist, if_neg hend, if_neg hsgi, if_pos h]

section Wide

variable (hsize : t.size ≠ .byte) (hend : t.off.toNat + t.size.bytes ≤ 0x1000)
include hsize hend

/-- A wide access names its first undecoded byte (rule R323). -/
theorem decodeDist_wide_undecoded (hsgi : ¬(t.dir = .write ∧ t.size = .word ∧ t.off.toNat = cfg.offSgi))
    (h : cfg.firstUndecoded t.off.toNat t.size.bytes = some k) :
    decodeDist cfg t = .undecoded (.undecodedOffset .dist t.cpu t.dir (t.off.toNat + k) t.size.bytes) := by
  simp only [decodeDist, if_neg (Nat.not_lt.2 hend), if_neg hsgi, if_neg hsize, h]

theorem decodeDist_wideRead (hdir : t.dir = .read) (h : cfg.firstUndecoded t.off.toNat t.size.bytes = none) :
    decodeDist cfg t = .wideRead t.cpu t.off.toNat t.size.bytes := by
  simp only [decodeDist, if_neg (Nat.not_lt.2 hend), if_neg hsize, h, hdir, reduceCtorEq, false_and, if_false]

theorem decodeDist_wideWrite (hdir : t.dir = .write) (hsgi : ¬(t.size = .word ∧ t.off.toNat = cfg.offSgi))
    (h : cfg.firstUndecoded t.off.toNat t.size.bytes = none) :
    decodeDist cfg t = .wideWrite t.cpu t.off.toNat t.size.bytes t.data := by
  simp only [decodeDist, if_neg (Nat.not_lt.2 hend), if_neg hsize, h, hdir, true_and, if_neg hsgi]

end Wide

theorem decodeTxn_dist (h : t.win = .dist) : decodeTxn cfg t = decodeDist cfg t := by
  simp only [decodeTxn, h]

/-! ## Undecoded distributor accesses (rules R130 and R302) -/

theorem decodesByte_eq_false_iff (h : cfg.mapOk = true) :
    cfg.decodesByte off = false ↔ ∀ g, g ≠ .sgi → ¬cfg.holds g off := by
  rw [Bool.eq_false_iff, ne_eq, decodesByte_iff h]
  simp only [not_exists, not_and]

theorem issue_past (hs : Live s) (hwin : t.win = .dist) (hc : t.cpu < s.cfg.numCpu)
    (hend : 0x1000 < t.off.toNat + t.size.bytes) :
    issue (.bus t) s = .next (s.died (.undecodedOffset .dist t.cpu t.dir t.off.toNat t.size.bytes)) :=
  issueTxn_undecoded hs.2.2 hc ((decodeTxn_dist hwin).trans (decodeDist_past hend))

/-- A one-byte access at an undecoded offset is fatal; a byte of the SGI word reads through a row of its own, which is
fatal with the same diagnostic. -/
theorem issue_byte_undecoded (hs : Live s) (hwin : t.win = .dist) (hc : t.cpu < s.cfg.numCpu) (hsize : t.size = .byte)
    (hoff : s.cfg.decodesByte t.off.toNat = false) :
    issue (.bus t) s = .next (s.died (.undecodedOffset .dist t.cpu t.dir t.off.toNat 1)) := by
  obtain ⟨hok, _, hf⟩ := hs
  have hdecode : decodeTxn s.cfg t = decodeByteAccess s.cfg t := (decodeTxn_dist hwin).trans (decodeDist_byte hsize)
  rcases decodeByteAccess_undecoded (mapOk_of_ok hok) hoff with hnone | ⟨hdir, k, _, hk, hrow⟩
  · exact issueTxn_undecoded hf hc (hdecode.trans hnone)
  · rw [← hk, hdir]
    exact (issueTxn_op hc (hdecode.trans hrow)).trans (asCpu_live hf hc _)

/-- An access within the window is fatal at its first undecoded byte, but for the 32-bit write at `OFF_SGI`. -/
theorem issue_firstUndecoded (hs : Live s) (hwin : t.win = .dist) (hc : t.cpu < s.cfg.numCpu)
    (hsgi : ¬(t.dir = .write ∧ t.size = .word ∧ t.off.toNat = s.cfg.offSgi))
    (hend : t.off.toNat + t.size.bytes ≤ 0x1000) (h : s.cfg.firstUndecoded t.off.toNat t.size.bytes = some k) :
    issue (.bus t) s = .next (s.died (.undecodedOffset .dist t.cpu t.dir (t.off.toNat + k) t.size.bytes)) := by
  by_cases hsize : t.size = .byte
  · obtain ⟨hk, hoff, _⟩ := firstUndecoded_some h
    rw [hsize] at hk ⊢
    obtain rfl : k = 0 := Nat.lt_one_iff.1 hk
    exact issue_byte_undecoded hs hwin hc hsize hoff
  · exact issueTxn_undecoded hs.2.2 hc ((decodeTxn_dist hwin).trans (decodeDist_wide_undecoded hsize hend hsgi h))

/-- Settles O6: an access past the window is fatal at its own offset, and another at the first byte that `firstUndecoded`
finds. -/
theorem undecodedDistributorAccessIsFatal : Obligations.UndecodedDistributorAccessIsFatal := by
  intro s t rest hs hinbox hwin hc hsgi hmissed
  have hmap := mapOk_of_ok hs.1
  have hlive : Live { s with inbox := rest } := hs
  rw [step_of_inbox hs.2.2 hinbox]
  by_cases hend : 0x1000 < t.off.toNat + t.size.bytes
  · exact ⟨0, by cases t.size <;> decide, by rw [if_pos hend], issue_past hlive hwin hc hend⟩
  · obtain ⟨m, hm, hmiss⟩ := hmissed
    cases h : s.cfg.firstUndecoded t.off.toNat t.size.bytes with
    | none =>
      obtain ⟨g, hne, hg⟩ := (decodesByte_iff hmap _).1 (firstUndecoded_none.1 h m hm)
      exact absurd hg (hmiss g hne)
    | some k =>
      obtain ⟨hk, hundec, hbefore⟩ := firstUndecoded_some h
      refine ⟨k, hk, ?_, issue_firstUndecoded hlive hwin hc hsgi (Nat.not_lt.1 hend) h⟩
      rw [if_neg hend]
      exact ⟨(decodesByte_eq_false_iff hmap).1 hundec, fun k' hk' => (decodesByte_iff hmap _).1 (hbefore k' hk')⟩

end Sys2Proof.Machine

/-! SUPPORT and CLAIMS. Wide accesses against their bytes (`20_memory.md` rules R80 to R83), and what a read changes
(rule R85). -/

namespace Sys2Proof.Machine

variable {cfg : Config} {s u : State} {t : Txn} {k : Nat}

/-! ## The byte accesses of a wide one (rule R135) -/

/-- The access to byte `k` of `t`, with data word `d`. -/
def byteAccess (t : Txn) (k : Nat) (d : Word) : Txn :=
  { t with off := BitVec.ofNat 12 (t.off.toNat + k), size := .byte, data := d }

/-- Byte `k` of the access lies in a range other than the SGI word's. -/
def ByteDecodes (cfg : Config) (t : Txn) (k : Nat) : Prop := ∃ g, g ≠ .sgi ∧ cfg.holds g (t.off.toNat + k)

theorem byteAccess_off {g : Group} (hok : cfg.ok = true) (hg : cfg.holds g (t.off.toNat + k)) (d : Word) :
    (byteAccess t k d).off.toNat = t.off.toNat + k := by
  have hle := extent_le (mapOk_of_ok hok) g
  have hlt := hg.2
  exact Nat.mod_eq_of_lt (by omega)

/-- A byte access is the row that it decodes to alone. -/
theorem issue_byteAccess {i : Instr} {d : Word} (hwin : t.win = .dist) (hc : t.cpu < s.cfg.numCpu)
    (h : decodeByteAccess s.cfg (byteAccess t k d) = .op i) : issue (.bus (byteAccess t k d)) s = exec i s :=
  have hdist : decodeTxn s.cfg (byteAccess t k d) = decodeDist s.cfg (byteAccess t k d) := decodeTxn_dist hwin
  issueTxn_op (t := byteAccess t k d) hc (hdist.trans ((decodeDist_byte rfl).trans h))

theorem firstUndecoded_of_byteDecodes (hok : cfg.ok = true) (h : ∀ k < t.size.bytes, ByteDecodes cfg t k) :
    cfg.firstUndecoded t.off.toNat t.size.bytes = none :=
  firstUndecoded_none.2 fun k hk => (decodesByte_iff (mapOk_of_ok hok) _).2 (h k hk)

/-! ## Reads (rule R81) -/

/-- A byte read returns `DistReadByte`. -/
theorem issue_byteRead (hok : s.cfg.ok = true) (hf : s.fatal = false) (hc : t.cpu < s.cfg.numCpu)
    (hwin : t.win = .dist) (hdir : t.dir = .read) (hk : ByteDecodes s.cfg t k) (d : Word) :
    issue (.bus (byteAccess t k d)) s =
      .next { s with response := .data ((s.distReadByte t.cpu (t.off.toNat + k)).setWidth 32) } := by
  obtain ⟨g, hne, hg⟩ := hk
  have hoff := byteAccess_off hok hg d
  have hrow := decodeByteAccess_read (t := byteAccess t k d) (mapOk_of_ok hok) hdir (by rw [hoff]; exact hg)
  rw [hoff] at hrow
  exact (issue_byteAccess hwin hc hrow).trans (readRow_exec hok hf hc hg hne)

/-- Settles O32: the value is the composition of what `DistReadByte` gives, which the byte reads return one by one. -/
theorem wideReadIsItsByteReads : Obligations.WideReadIsItsByteReads := by
  intro s t hs hwin hdir hc hsize hend hbytes
  obtain ⟨hok, _, hf⟩ := hs
  have hn : t.size.bytes ≤ 4 := by cases t.size <;> decide
  have hwide := (decodeTxn_dist hwin).trans
    (decodeDist_wideRead hsize hend hdir (firstUndecoded_of_byteDecodes hok hbytes))
  refine ⟨compose t.size.bytes fun k => s.distReadByte t.cpu (t.off.toNat + k),
    (issueTxn_wideRead hc hwide).trans (asCpu_live hf hc _), compose_lt _ hn _, fun k hk => ?_⟩
  rw [compose_byte _ hn _ hk]
  exact issue_byteRead hok hf hc hwin hdir (hbytes k hk) t.data

/-! ## Writes (rule R82) -/

/-- The end of every distributor write: `Update()`, and nothing returned. -/
def State.written (s : State) : State := { s.update with response := .none }

/-- Byte `k` of the access written into the table, with no `Update()`. -/
def State.writeByteAt (t : Txn) (s : State) (k : Nat) : State :=
  s.distWriteByte t.cpu (t.off.toNat + k) (byteOf t.data k)

theorem distWriteBytes_eq_foldl (s : State) (t : Txn) (n : Nat) :
    s.distWriteBytes t.cpu t.off.toNat n t.data = (List.range n).foldl (State.writeByteAt t) s := rfl

theorem writeByteAt_fields (t : Txn) (s : State) (k : Nat) :
    (s.writeByteAt t k).cfg = s.cfg ∧ (s.writeByteAt t k).fatal = s.fatal :=
  have ⟨hcfg, _, hfatal⟩ := byteWrite_cfg (distWriteByte_write s t.cpu (t.off.toNat + k) (byteOf t.data k))
  ⟨hcfg, hfatal⟩

/-- The event that writes byte `k` of the access alone. -/
def byteWriteEvent (t : Txn) (k : Nat) : Event := .bus (byteAccess t k (t.data >>> (8 * k)))

section ByteWrites

variable (hok : cfg.ok = true) (hc : t.cpu < cfg.numCpu) (hwin : t.win = .dist) (hdir : t.dir = .write)
include hok hc hwin hdir

/-- A byte write does `DistWriteByte` and arbitrates. -/
theorem issue_byteWrite (hcfg : s.cfg = cfg) (hf : s.fatal = false) (hk : ByteDecodes cfg t k) :
    issue (byteWriteEvent t k) s = .next (s.writeByteAt t k).written := by
  subst hcfg
  obtain ⟨g, hne, hg⟩ := hk
  have hoff := byteAccess_off hok hg (t.data >>> (8 * k))
  obtain ⟨i, hi, hexec⟩ := writeRow_exec (b := byteOf t.data k) hok hf hc hg hne
  have hrow : decodeByteAccess s.cfg (byteAccess t k (t.data >>> (8 * k))) = .op i := by
    have hcall : writeRow t.cpu g (t.off.toNat + k - s.cfg.base g) ((t.data >>> (8 * k)).setWidth 8) = some i := by
      rw [← byteOf_eq]; exact hi
    rw [decodeByteAccess_write (t := byteAccess t k _) (mapOk_of_ok hok) hdir (by rw [hoff]; exact hg), hoff]
    simp only [byteAccess, hcall]
  exact (issue_byteAccess hwin hc hrow).trans hexec

/-- A byte write after an arbitration leaves what it leaves without: the arbitration changes outputs only, and the one
after the byte gives them anew. -/
theorem issue_byteWrite_written (hcfg : s.cfg = cfg) (hf : s.fatal = false) (hk : ByteDecodes cfg t k) :
    issue (byteWriteEvent t k) s.written = .next (s.writeByteAt t k).written := by
  rw [issue_byteWrite (s := s.written) hok hc hwin hdir hcfg hf hk]
  exact congrArg _ (sameTable_arbitrated (sameTable_distWriteByte (sameTable_update s .none) ..) .none).symm

/-- Byte writes in order, from an arbitrated state: one arbitration at the end does for all. -/
theorem issueAll_byteWrites : ∀ (ks : List Nat) (s : State), s.cfg = cfg → s.fatal = false →
    (∀ k ∈ ks, ByteDecodes cfg t k) →
    issueAll (ks.map (byteWriteEvent t)) s.written = .next (ks.foldl (State.writeByteAt t) s).written
  | [], _, _, _, _ => rfl
  | k :: ks, s, hcfg, hf, hks => by
    obtain ⟨hcfg', hf'⟩ := writeByteAt_fields t s k
    obtain ⟨hk, hrest⟩ := List.forall_mem_cons.1 hks
    simp only [List.map_cons, issueAll, issue_byteWrite_written hok hc hwin hdir hcfg hf hk]
    exact issueAll_byteWrites ks (s.writeByteAt t k) (hcfg'.trans hcfg) (hf'.trans hf) hrest

end ByteWrites

/-- Settles O31: the wide write folds `DistWriteByte` over its bytes and arbitrates once; the byte writes do so too, by
`issueAll_byteWrites` after the first of them. -/
theorem wideWriteIsItsByteWrites : Obligations.WideWriteIsItsByteWrites := by
  intro s t hs hwin hdir hc hsize hend hsgi hbytes
  obtain ⟨hok, _, hf⟩ := hs
  have hwide := (decodeTxn_dist hwin).trans
    (decodeDist_wideWrite hsize hend hdir hsgi (firstUndecoded_of_byteDecodes hok hbytes))
  have hissue : issue (.bus t) s = .next ((List.range t.size.bytes).foldl (State.writeByteAt t) s).written := by
    rw [← distWriteBytes_eq_foldl]
    exact (issueTxn_wideWrite hc hwide).trans (asCpu_live hf hc _)
  refine ⟨⟨_, hissue⟩, hissue.trans ?_⟩
  change _ = issueAll ((List.range t.size.bytes).map (byteWriteEvent t)) s
  have hdecodes : ∀ k ∈ List.range t.size.bytes, ByteDecodes s.cfg t k := fun k hk => hbytes k (List.mem_range.1 hk)
  have hpos : List.range t.size.bytes ≠ [] := by cases t.size <;> decide
  obtain ⟨k, ks, hks⟩ := List.exists_cons_of_ne_nil hpos
  rw [hks] at hdecodes ⊢
  obtain ⟨hk, hrest⟩ := List.forall_mem_cons.1 hdecodes
  obtain ⟨hcfg', hf'⟩ := writeByteAt_fields t s k
  simp only [List.map_cons, issueAll, issue_byteWrite hok hc hwin hdir rfl hf hk]
  exact (issueAll_byteWrites hok hc hwin hdir ks _ hcfg' (hf'.trans hf) hrest).symm

/-! ## What a read changes (rule R85) -/

/-- The operation has returned a value or been fatal, and nothing else has changed. -/
def OnlyAnswered (s u : State) : Prop := (∃ v, u = { s with response := .data v }) ∨ ∃ d, u = s.died d

theorem onlyAnswered_answer {c : Nat} {v : Word} (h : s.asCpu c (s.answer (.data v)) = .next u) :
    OnlyAnswered s u :=
  .inl ⟨v, answer_next.1 (asCpu_next.1 h).2.2⟩

theorem onlyAnswered_fatal {c : Nat} {d : Diag} (h : s.asCpu c (s.raiseFatal d) = .next u) : OnlyAnswered s u :=
  .inr ⟨d, raiseFatal_next.1 (asCpu_next.1 h).2.2⟩

theorem onlyAnswered_readByteOf {g : Group} {c : Nat} {b : Byte} (h : s.readByteOf g c k b = .next u) :
    OnlyAnswered s u := by
  obtain ⟨_, _, ⟨_, hu⟩ | ⟨_, hu⟩⟩ := readByteOf_next.1 h
  · exact .inl ⟨_, hu⟩
  · exact .inr ⟨_, hu⟩

theorem onlyAnswered_readRow {g : Group} {c : Nat} (h : exec (readRow c g k) s = .next u) : OnlyAnswered s u := by
  cases g
  case sgi => exact onlyAnswered_fatal h
  all_goals exact onlyAnswered_readByteOf h

/-- Of the reads of the CPU interface, only the one at `0x0C` is an acknowledge. -/
theorem onlyAnswered_cpuReadRow {c off : Nat} {i : Instr} (hrow : cpuReadRow c off = some i) (hoff : off ≠ 0x0C)
    (h : exec i s = .next u) : OnlyAnswered s u := by
  unfold cpuReadRow at hrow
  split at hrow <;> cases hrow
  case h_4 => exact absurd rfl hoff
  case h_5 => exact onlyAnswered_fatal h
  all_goals exact onlyAnswered_answer h

/-- All that a distributor read decodes to: a byte of a group, a wide read, or nothing. -/
theorem decodeDist_read_cases (hmap : cfg.mapOk = true) (hdir : t.dir = .read) :
    (∃ g j, decodeDist cfg t = .op (readRow t.cpu g j)) ∨ (∃ off n, decodeDist cfg t = .wideRead t.cpu off n) ∨
      ∃ d, decodeDist cfg t = .undecoded d := by
  by_cases hend : 0x1000 < t.off.toNat + t.size.bytes
  · exact .inr (.inr ⟨_, decodeDist_past hend⟩)
  by_cases hsize : t.size = .byte
  · rw [decodeDist_byte hsize]
    by_cases hg : ∃ g, cfg.holds g t.off.toNat
    · obtain ⟨g, hg⟩ := hg
      exact .inl ⟨g, _, decodeByteAccess_read hmap hdir hg⟩
    · exact .inr (.inr ⟨_, decodeByteAccess_none (not_exists.1 hg)⟩)
  · cases h : cfg.firstUndecoded t.off.toNat t.size.bytes with
    | none => exact .inr (.inl ⟨_, _, decodeDist_wideRead hsize (Nat.not_lt.1 hend) hdir h⟩)
    | some k =>
      have hsgi : ¬(t.dir = .write ∧ t.size = .word ∧ t.off.toNat = cfg.offSgi) := fun hw => by
        rw [hdir] at hw
        cases hw.1
      exact .inr (.inr ⟨_, decodeDist_wide_undecoded hsize (Nat.not_lt.1 hend) hsgi h⟩)

/-- All that a CPU-interface read decodes to. -/
theorem decodeCpuif_read_cases (hdir : t.dir = .read) :
    (∃ i, cpuReadRow t.cpu t.off.toNat = some i ∧ decodeCpuif t = .op i) ∨ ∃ d, decodeCpuif t = .undecoded d := by
  simp only [decodeCpuif, hdir]
  split
  case h_1 i hrow =>
    split at hrow
    · exact .inl ⟨i, hrow, rfl⟩
    · cases hrow
  case h_2 => exact .inr ⟨_, rfl⟩

/-- Settles O59, window by window, by what a read can decode to. -/
theorem onlyAcknowledgeReadsHaveSideEffects : Obligations.OnlyAcknowledgeReadsHaveSideEffects := by
  intro s u t hs hdir hack h
  obtain ⟨hok, _, hf⟩ := hs
  change issueTxn t s = .next u at h
  have hc : t.cpu < s.cfg.numCpu := by
    by_contra hmissing
    rw [issueTxn_missing hf (Nat.not_lt.1 hmissing)] at h
    cases h
  have hfatal : ∀ d, decodeTxn s.cfg t = .undecoded d → OnlyAnswered s u := fun d hd => by
    rw [issueTxn_undecoded hf hc hd] at h
    cases h
    exact .inr ⟨d, rfl⟩
  cases hwin : t.win with
  | dist =>
    rcases decodeDist_read_cases (mapOk_of_ok hok) hdir with ⟨g, j, hop⟩ | ⟨off, n, hwide⟩ | ⟨d, hd⟩
    · rw [issueTxn_op hc ((decodeTxn_dist hwin).trans hop)] at h
      exact onlyAnswered_readRow h
    · rw [issueTxn_wideRead hc ((decodeTxn_dist hwin).trans hwide)] at h
      exact onlyAnswered_answer h
    · exact hfatal d ((decodeTxn_dist hwin).trans hd)
  | cpuif =>
    have hdecode : decodeTxn s.cfg t = decodeCpuif t := by simp only [decodeTxn, hwin]
    rcases decodeCpuif_read_cases hdir with ⟨i, hrow, hop⟩ | ⟨d, hd⟩
    · rw [issueTxn_op hc (hdecode.trans hop)] at h
      exact onlyAnswered_cpuReadRow hrow (fun hoff => hack ⟨hwin, BitVec.eq_of_toNat_eq hoff⟩) h
    · exact hfatal d (hdecode.trans hd)

end Sys2Proof.Machine

/-! SUPPORT and CLAIMS. Encoding (`30_encoding.md`): the default map is a map, an instruction word gives its operation
back, and a placed word runs as the operation it decodes to. -/

namespace Sys2Proof.Machine

variable {cfg : Config} {i : Instr} {g : Group} {win : Win} {dir : Dir} {c d k off : Nat} {b : Byte} {v : Word}

/-! ## The default map (rule R104) -/

/-- The first range ends before the second begins. -/
def EndsBefore (x y : Extent) : Prop := x.base + x.len ≤ y.base

theorem endsBefore_trans {x y z : Extent} (hxy : EndsBefore x y) (hyz : EndsBefore y z) : EndsBefore x z :=
  calc x.base + x.len ≤ y.base := hxy
    _ ≤ y.base + y.len := Nat.le_add_right ..
    _ ≤ z.base := hyz

/-- A list of ranges, each of which ends before the next begins, is a map: `EndsBefore` is transitive, and so they
are disjoint pair by pair. -/
theorem mapOk_of_ascending (hchain : cfg.extents.IsChain EndsBefore)
    (hwindow : ∀ g, cfg.base g + cfg.len g ≤ 0x1000) : cfg.mapOk = true := by
  have : Trans EndsBefore EndsBefore EndsBefore := ⟨endsBefore_trans⟩
  have hdisjoint : cfg.extents.Pairwise fun x y => x.disjoint y = true :=
    (List.isChain_iff_pairwise.1 hchain).imp fun hxy => by
      rw [Extent.disjoint, Bool.or_eq_true, decide_eq_true_eq]
      exact .inl hxy
  have hfits : (cfg.extents.all fun x => x.base + x.len ≤ 0x1000) = true := by
    rw [Config.extents, List.all_map, List.all_eq_true]
    exact fun g _ => decide_eq_true (hwindow g)
  rw [Config.mapOk, Bool.and_eq_true, decide_eq_true_eq]
  exact ⟨hdisjoint, hfits⟩

/-- Settles O5: the default ranges ascend, because at most 1020 lines fit between the bases. -/
theorem defaultMapRangesNeverOverlap : Obligations.DefaultMapRangesNeverOverlap := by
  intro numIrq numCpu idBytes version hcounts
  have hlines : numIrq ≤ 1020 := Laws.EncodingMatchesTable.numIrq_bound hcounts
  refine mapOk_of_ascending ?_ fun g => ?_
  · simp only [Config.extents, Group.all, List.map_cons, List.map_nil, List.isChain_cons_cons, List.isChain_singleton,
      and_true, EndsBefore, Config.extent, Config.base, Config.len, Config.withDefaults, offId]
    omega
  · cases g <;> simp only [Config.base, Config.len, Config.withDefaults, offId] <;> omega

/-! ## Decoding (rules R102 and R103) -/

/-- Bytes are an instruction exactly if they are a transaction that is one row. -/
theorem decode_eq_ok_iff {bytes : List Byte} :
    decode cfg bytes = .ok i ↔ ∃ t, txnOfBytes cfg bytes = .ok t ∧ decodeTxn cfg t = .op i := by
  unfold decode
  cases htxn : txnOfBytes cfg bytes with
  | error r => simp
  | ok t => cases hrow : decodeTxn cfg t <;> simp [hrow]

theorem withFetchWord_of_txn {s : State} {t : Txn} {nbits w : Nat}
    (h : txnOfBytes s.cfg (wordBytes (w % 2 ^ nbits)) = .ok t) :
    s.withFetchWord nbits w = { s with inbox := .bus t :: s.inbox } := by
  simp only [State.withFetchWord, h]

/-- Settles O2: the word issues its transaction, which is the next one performed, and its CPU exists because the
operation it decodes to is well-formed. -/
theorem placedWordRunsAsDecoded : Obligations.PlacedWordRunsAsDecoded := by
  intro s nbits w i hf hdecode hwf
  obtain ⟨t, htxn, hrow⟩ := decode_eq_ok_iff.1 hdecode
  have hc : t.cpu < s.cfg.numCpu := wf_caller hwf (decodeTxn_caller hrow)
  rw [withFetchWord_of_txn htxn, step_of_inbox (s := { s with inbox := .bus t :: s.inbox }) hf rfl]
  exact issueTxn_op hc hrow

/-! ## From the fields of a word to its transaction (rule R102, assumption log 7) -/

/-- The transaction that the selecting fields, the CPU index and the data of a word stand for. -/
def txnOfFields (cfg : Config) (win : Win) (dir : Dir) (off c d : Nat) : Txn where
  win := win
  cpu := c
  dir := dir
  off := BitVec.ofNat 12 off
  size := rowSize cfg win dir off
  data := BitVec.ofNat 32 d

theorem txnOfFields_off (hoff : off < 0x1000) : (txnOfFields cfg win dir off c d).off.toNat = off :=
  Nat.mod_eq_of_lt hoff

/-- The operation has bytes, and they decode to it. -/
def RoundTrips (cfg : Config) (i : Instr) : Prop :=
  ∃ bytes, encode cfg i = some bytes ∧ bytes.length = 8 ∧ decode cfg bytes = .ok i

/-- An operation round-trips if the transaction that its fields stand for is its row. -/
theorem roundTrips_of_fields (hfields : i.fields cfg = some (selector win dir off, c, d)) (hoff : off < 0x1000)
    (hc : c < 2 ^ 16) (hd : d < 2 ^ 32) (hrow : decodeTxn cfg (txnOfFields cfg win dir off c d) = .op i) :
    RoundTrips cfg i := by
  have hsel : selector win dir off < 2 ^ 14 := selector_lt hoff
  have htxn : txnOfBytes cfg (wordBytes (selector win dir off + c * 2 ^ 16 + d * 2 ^ 32)) =
      .ok (txnOfFields cfg win dir off c d) :=
    (txnOfBytes_wordBytes (by omega) (by omega)).trans (congrArg _ (txnOfWord_selector hoff hc rfl))
  refine ⟨_, ?_, wordBytes_length _, decode_eq_ok_iff.2 ⟨_, htxn, hrow⟩⟩
  simp only [encode, encodeWord, hfields, Option.map_some]

/-- The CPU index of a well-formed access fits its sixteen bits. -/
theorem caller_lt_of_wf (hok : cfg.ok = true) (hwf : i.wf cfg = true) (hc : callerOf i = some c) : c < 2 ^ 16 :=
  calc c < cfg.numCpu := wf_caller hwf hc
    _ ≤ 8 := numCpu_le hok
    _ < 2 ^ 16 := by decide

/-! ## Distributor rows (rules R104 and R110) -/

theorem fields_readRow (cfg : Config) (c : Nat) (g : Group) (k : Nat) :
    (readRow c g k).fields cfg = some (selector .dist .read (cfg.base g + k), c, 0) := by
  cases g <;> rfl

theorem fields_writeRow (h : writeRow c g k b = some i) :
    i.fields cfg = some (selector .dist .write (cfg.base g + k), c, b.toNat) := by
  cases g <;> cases h <;> rfl

/-- The byte of a well-formed read lies in its group's range. -/
theorem holds_of_wf_readRow (h : (readRow c g k).wf cfg = true) : cfg.holds g (cfg.base g + k) := by
  have hk : k < cfg.len g := by
    cases g <;> simp only [readRow, Instr.wf, Bool.and_eq_true, decide_eq_true_eq] at h <;> exact h.2
  exact ⟨Nat.le_add_right .., Nat.add_lt_add_left hk _⟩

/-- The byte of a well-formed write lies in its group's range. -/
theorem holds_of_wf_writeRow (hrow : writeRow c g k b = some i) (h : i.wf cfg = true) :
    cfg.holds g (cfg.base g + k) := by
  have hk : k < cfg.len g := by
    cases g <;> cases hrow <;> simp only [Instr.wf, Bool.and_eq_true, decide_eq_true_eq] at h <;> exact h.2
  exact ⟨Nat.le_add_right .., Nat.add_lt_add_left hk _⟩

theorem off_lt_of_holds (hok : cfg.ok = true) (h : cfg.holds g off) : off < 0x1000 :=
  Nat.lt_of_lt_of_le h.2 (extent_le (mapOk_of_ok hok) g)

/-- No group but the SGI word's holds `OFF_SGI`. -/
theorem ne_offSgi_of_holds (hok : cfg.ok = true) (h : cfg.holds g off) (hne : g ≠ .sgi) : off ≠ cfg.offSgi := by
  rintro rfl
  have hsgi : cfg.holds .sgi cfg.offSgi := ⟨Nat.le_refl _, Nat.lt_add_of_pos_right (Nat.succ_pos 3)⟩
  exact hne (holds_unique (mapOk_of_ok hok) h hsgi)

/-- Every distributor word but the write at `OFF_SGI` stands for a one-byte access. -/
theorem decodeTxn_distByte (h : ¬(dir = .write ∧ off = cfg.offSgi)) :
    decodeTxn cfg (txnOfFields cfg .dist dir off c d) = decodeByteAccess cfg (txnOfFields cfg .dist dir off c d) :=
  (decodeTxn_dist rfl).trans (decodeDist_byte (if_neg h))

theorem roundTrips_readRow (hok : cfg.ok = true) (hwf : (readRow c g k).wf cfg = true) :
    RoundTrips cfg (readRow c g k) := by
  have hholds := holds_of_wf_readRow hwf
  have hoff := off_lt_of_holds hok hholds
  refine roundTrips_of_fields (fields_readRow cfg c g k) hoff (caller_lt_of_wf hok hwf (readRow_caller ..))
    (by decide) ?_
  rw [decodeTxn_distByte (by simp), decodeByteAccess_read (g := g) (mapOk_of_ok hok) rfl (by rwa [txnOfFields_off hoff]),
    txnOfFields_off hoff, Nat.add_sub_cancel_left]
  rfl

theorem roundTrips_writeRow (hok : cfg.ok = true) (hrow : writeRow c g k b = some i) (hwf : i.wf cfg = true) :
    RoundTrips cfg i := by
  have hholds := holds_of_wf_writeRow hrow hwf
  have hoff := off_lt_of_holds hok hholds
  have hne : g ≠ .sgi := by rintro rfl; cases hrow
  have hdata : (BitVec.ofNat 32 b.toNat).setWidth 8 = b := by bv_omega
  refine roundTrips_of_fields (fields_writeRow hrow) hoff (caller_lt_of_wf hok hwf (writeRow_caller hrow)) (by omega) ?_
  rw [decodeTxn_distByte fun h => ne_offSgi_of_holds hok hholds hne h.2,
    decodeByteAccess_write (g := g) (mapOk_of_ok hok) rfl (by rwa [txnOfFields_off hoff]), txnOfFields_off hoff,
    Nat.add_sub_cancel_left]
  simp only [txnOfFields, hdata, hrow]

/-- The 32-bit write at `OFF_SGI` is the software-generated interrupt. -/
theorem decodeDist_sgiWord {t : Txn} (hsize : t.size = .word) (hdir : t.dir = .write) (hoff : t.off.toNat = cfg.offSgi)
    (hend : cfg.offSgi + Size.word.bytes ≤ 0x1000) : decodeDist cfg t = .op (.distSgiW t.cpu t.data) := by
  simp only [decodeDist, hsize, hdir, hoff, if_neg (Nat.not_lt.2 hend), and_self, if_true]

theorem roundTrips_distSgiW (hok : cfg.ok = true) (hwf : (Instr.distSgiW c v).wf cfg = true) :
    RoundTrips cfg (.distSgiW c v) := by
  have hend : cfg.offSgi + 4 ≤ 0x1000 := extent_le (mapOk_of_ok hok) .sgi
  have hoff : cfg.offSgi < 0x1000 := by omega
  refine roundTrips_of_fields rfl hoff (caller_lt_of_wf hok hwf rfl) v.isLt ?_
  rw [decodeTxn_dist rfl, decodeDist_sgiWord (if_pos ⟨rfl, rfl⟩) rfl (txnOfFields_off hoff) hend]
  simp only [txnOfFields, BitVec.ofNat_toNat, BitVec.setWidth_eq]

/-! ## CPU-interface rows (rule R120) -/

/-- The rows of the CPU window end at `0x18`. -/
theorem cpuReadRow_off (h : cpuReadRow c off = some i) : off ≤ 0x18 := by
  unfold cpuReadRow at h
  split at h <;> first | decide | cases h

theorem cpuWriteRow_off (h : cpuWriteRow c off v = some i) : off ≤ 0x18 := by
  unfold cpuWriteRow at h
  split at h <;> first | decide | cases h

theorem fields_cpuReadRow (h : cpuReadRow c off = some i) : i.fields cfg = some (selector .cpuif .read off, c, 0) := by
  unfold cpuReadRow at h
  split at h <;> cases h <;> rfl

theorem fields_cpuWriteRow (h : cpuWriteRow c off v = some i) :
    i.fields cfg = some (selector .cpuif .write off, c, v.toNat) := by
  unfold cpuWriteRow at h
  split at h <;> cases h <;> rfl

theorem roundTrips_cpuReadRow (hok : cfg.ok = true) (hrow : cpuReadRow c off = some i) (hwf : i.wf cfg = true) :
    RoundTrips cfg i := by
  have hoff : off < 0x1000 := Nat.lt_of_le_of_lt (cpuReadRow_off hrow) (by decide)
  refine roundTrips_of_fields (fields_cpuReadRow hrow) hoff (caller_lt_of_wf hok hwf (cpuReadRow_caller hrow))
    (by decide) ?_
  simp only [decodeTxn, decodeCpuif, txnOfFields_off hoff]
  simp only [txnOfFields, rowSize, if_true, hrow]

theorem roundTrips_cpuWriteRow (hok : cfg.ok = true) (hrow : cpuWriteRow c off v = some i) (hwf : i.wf cfg = true) :
    RoundTrips cfg i := by
  have hoff : off < 0x1000 := Nat.lt_of_le_of_lt (cpuWriteRow_off hrow) (by decide)
  refine roundTrips_of_fields (fields_cpuWriteRow hrow) hoff (caller_lt_of_wf hok hwf (cpuWriteRow_caller hrow))
    v.isLt ?_
  simp only [decodeTxn, decodeCpuif, txnOfFields_off hoff]
  simp only [txnOfFields, rowSize, if_true, BitVec.ofNat_toNat, BitVec.setWidth_eq, hrow]

/-! ## Every operation (rules R100 and R138) -/

/-- The kinds of rows of the operation table. -/
inductive RowKind : Instr → Prop
  | byteRead (c : Nat) (g : Group) (k : Nat) : RowKind (readRow c g k)
  | byteWrite {c : Nat} {g : Group} {k : Nat} {b : Byte} {i : Instr} (h : writeRow c g k b = some i) : RowKind i
  | sgiWord (c : Nat) (v : Word) : RowKind (.distSgiW c v)
  | cpuRead {c off : Nat} {i : Instr} (h : cpuReadRow c off = some i) : RowKind i
  | cpuWrite {c off : Nat} {v : Word} {i : Instr} (h : cpuWriteRow c off v = some i) : RowKind i
  | noTransaction {i : Instr}
      (h : i = .reset ∨ (∃ n v, i = .setLine n v) ∨ i = .snapshotSave ∨ ∃ snap, i = .snapshotLoad snap) : RowKind i

/-- Every operation is a row of one of the kinds. -/
theorem rowKind (i : Instr) : RowKind i := by
  cases i with
  | reset => exact .noTransaction (.inl rfl)
  | setLine n v => exact .noTransaction (.inr (.inl ⟨n, v, rfl⟩))
  | distCtrlR c k => exact .byteRead c .ctrl k
  | distCtrlW c k b => exact .byteWrite (g := .ctrl) rfl
  | distSetEnableR c j => exact .byteRead c .setEnable j
  | distSetEnableW c j b => exact .byteWrite (g := .setEnable) rfl
  | distClrEnableR c j => exact .byteRead c .clrEnable j
  | distClrEnableW c j b => exact .byteWrite (g := .clrEnable) rfl
  | distSetPendingR c j => exact .byteRead c .setPending j
  | distSetPendingW c j b => exact .byteWrite (g := .setPending) rfl
  | distClrPendingR c j => exact .byteRead c .clrPending j
  | distClrPendingW c j b => exact .byteWrite (g := .clrPending) rfl
  | distActiveR c j => exact .byteRead c .active j
  | distActiveW c j b => exact .byteWrite (g := .active) rfl
  | distPriorityR c line => exact .byteRead c .priority line
  | distPriorityW c line b => exact .byteWrite (g := .priority) rfl
  | distTargetR c line => exact .byteRead c .target line
  | distTargetW c line b => exact .byteWrite (g := .target) rfl
  | distConfigR c j => exact .byteRead c .config j
  | distConfigW c j b => exact .byteWrite (g := .config) rfl
  | distSgiW c v => exact .sgiWord c v
  | distSgiR c k => exact .byteRead c .sgi k
  | distIdR c k => exact .byteRead c .id k
  | distIdW c k b => exact .byteWrite (g := .id) rfl
  | cpuCtrlR c => exact .cpuRead (off := 0x00) rfl
  | cpuCtrlW c v => exact .cpuWrite (off := 0x00) rfl
  | cpuPrimaskR c => exact .cpuRead (off := 0x04) rfl
  | cpuPrimaskW c v => exact .cpuWrite (off := 0x04) rfl
  | cpuBinpointR c => exact .cpuRead (off := 0x08) rfl
  | cpuBinpointW c v => exact .cpuWrite (off := 0x08) rfl
  | cpuAckR c => exact .cpuRead (off := 0x0C) rfl
  | cpuAckW c v => exact .cpuWrite (off := 0x0C) rfl
  | cpuEoiR c => exact .cpuRead (off := 0x10) rfl
  | cpuEoiW c v => exact .cpuWrite (off := 0x10) rfl
  | cpuRunpriR c => exact .cpuRead (off := 0x14) rfl
  | cpuRunpriW c v => exact .cpuWrite (off := 0x14) rfl
  | cpuHipendR c => exact .cpuRead (off := 0x18) rfl
  | cpuHipendW c v => exact .cpuWrite (off := 0x18) rfl
  | snapshotSave => exact .noTransaction (.inr (.inr (.inl rfl)))
  | snapshotLoad snap => exact .noTransaction (.inr (.inr (.inr ⟨snap, rfl⟩)))

/-- Settles O4, kind of row by kind of row. -/
theorem decodeInvertsEncode : Obligations.DecodeInvertsEncode := by
  intro cfg i hok hwf
  cases rowKind i with
  | byteRead c g k => exact .inl (roundTrips_readRow hok hwf)
  | byteWrite hrow => exact .inl (roundTrips_writeRow hok hrow hwf)
  | sgiWord c v => exact .inl (roundTrips_distSgiW hok hwf)
  | cpuRead hrow => exact .inl (roundTrips_cpuReadRow hok hrow hwf)
  | cpuWrite hrow => exact .inl (roundTrips_cpuWriteRow hok hrow hwf)
  | noTransaction h =>
    refine .inr ⟨?_, h⟩
    obtain rfl | ⟨n, v, rfl⟩ | rfl | ⟨snap, rfl⟩ := h <;> rfl

/-! ## Words of the operation table -/

theorem atReset_ok : Config.atReset.ok = true := by
  have hcounts : Config.atReset.countsOk = true := by decide
  have hbytes : decide (Config.atReset.idBytes.length = 8) = true :=
    decide_eq_true ((List.length_map _).trans List.length_range)
  have hmap : Config.atReset.mapOk = true := defaultMapRangesNeverOverlap _ _ _ _ hcounts
  rw [Config.ok, hcounts, hbytes, hmap]
  rfl

/-- The word of a well-formed operation decodes to it. -/
theorem decodeTableWord_of_encodeWord {nbits w : Nat} (hwf : i.wf Config.atReset = true)
    (hword : encodeWord Config.atReset i = some (w % 2 ^ nbits)) : decodeTableWord nbits w = some i := by
  have hbytes : encode Config.atReset i = some (wordBytes (w % 2 ^ nbits)) := by rw [encode, hword, Option.map_some]
  rcases decodeInvertsEncode _ _ atReset_ok hwf with ⟨bytes, henc, -, hdec⟩ | ⟨hnone, -⟩
  · obtain rfl : wordBytes (w % 2 ^ nbits) = bytes := Option.some.inj (hbytes.symm.trans henc)
    rw [decodeTableWord, hdec, Except.toOption]
  · rw [hnone] at hbytes
    cases hbytes

/-- Settles O3: the first five words are the encodings of their rows, and offset 4 lies between two ranges. -/
theorem tableWordsDecode : Obligations.TableWordsDecode :=
  ⟨decodeTableWord_of_encodeWord (by decide) (by decide), decodeTableWord_of_encodeWord (by decide) (by decide),
    decodeTableWord_of_encodeWord (by decide) (by decide), decodeTableWord_of_encodeWord (by decide) (by decide),
    decodeTableWord_of_encodeWord (by decide) (by decide), by decide⟩

end Sys2Proof.Machine

/-! SUPPORT and CLAIMS. The line inputs (`41_line_input.md`): what `SET_LINE` does at each of the two levels, against the
level that the line has. -/

namespace Sys2Proof.Machine

variable {s : State} {n : Nat}

/-! ## A line event that is not refused (rules R160 to R163) -/

/-- The level that the line has ends the event; the other one is a transition of the line, and arbitration runs. -/
theorem execSetLine_live (hf : s.fatal = false) (hn : n + numPrivate < s.cfg.numIrq) (up : Bool) :
    execSetLine n (if up then 1 else 0) s =
      if up = (s.line (n + numPrivate)).level then s.answer .none
      else (s.onLine (n + numPrivate) (if up then Line.rise else Line.fall)).update.answer .none := by
  have hinput : n < s.cfg.numIrq - numPrivate := by omega
  have hlevel : (if up then 1 else 0) ≤ 1 := by cases up <;> decide
  have hraised : decide ((if up then 1 else 0) = 1) = up := by cases up <;> rfl
  rw [execSetLine, unlessFatal_live hf, if_pos hinput, if_pos hlevel, hraised]

theorem execSetLine_rise (hf : s.fatal = false) (hn : n + numPrivate < s.cfg.numIrq)
    (h : (s.line (n + numPrivate)).level = false) :
    execSetLine n 1 s = (s.onLine (n + numPrivate) Line.rise).update.answer .none :=
  (execSetLine_live hf hn true).trans (if_neg (by rw [h]; decide))

theorem execSetLine_fall (hf : s.fatal = false) (hn : n + numPrivate < s.cfg.numIrq)
    (h : (s.line (n + numPrivate)).level = true) :
    execSetLine n 0 s = (s.onLine (n + numPrivate) Line.fall).update.answer .none :=
  (execSetLine_live hf hn false).trans (if_neg (by rw [h]; decide))

/-! ## The transitions (rules R164 and R165) -/

/-- The rising transition of a line, with the meeting of its enable and target bits said CPU by CPU. -/
theorem rise_eq (l : Line) :
    l.rise = { l with
      level := true
      pending := if l.trigger = .edge ∨ (∃ c < 8, l.enabled.getLsbD c = true ∧ l.target.getLsbD c = true)
        then l.pending ||| l.target else l.pending } :=
  congrArg (fun m => { l with level := true, pending := m }) (if_congr (or_congr_right (cpuSet_meet _ _)) rfl rfl)

/-- Settles O13: the event is `Line.rise` on its line, and then `Update()`. -/
theorem setLineRisingLatchesTargets : Obligations.SetLineRisingLatchesTargets := by
  intro s n hs hn hlevel
  have hrise : exec (.setLine n 1) s = _ := execSetLine_rise hs.2.2 hn hlevel
  rw [hrise]
  exact onLine_after hs fun j _ => if_congr Iff.rfl (rise_eq (s.line j)) rfl

/-- Settles O14: the event is `Line.fall` on its line, and then `Update()`. -/
theorem setLineFallingKeepsPending : Obligations.SetLineFallingKeepsPending := by
  intro s n hs hn hlevel
  have hfall : exec (.setLine n 0) s = _ := execSetLine_fall hs.2.2 hn hlevel
  rw [hfall]
  exact onLine_after hs fun _ _ => rfl

/-- Settles O12: at the level that the line has, the event only answers. -/
theorem setLineSameLevelDoesNothing : Obligations.SetLineSameLevelDoesNothing := by
  intro s n up hs hn hlevel
  have hsame : execSetLine n (if up then 1 else 0) s = s.answer .none :=
    (execSetLine_live hs.2.2 hn up).trans (if_pos hlevel.symm)
  exact hsame

end Sys2Proof.Machine

/-! SUPPORT and CLAIMS. Distributor registers (`42_distributor_regs.md`): what a byte of each group reads as, and what a
byte written to it makes of the table, against the lines it holds. -/

namespace Sys2Proof.Machine

variable {s : State} {c j : Nat} {b : Byte}

/-! ## Bytes packed from lines: what the groups read as (rules R187, R191, R196 and R207) -/

theorem enableByte_getLsbD {k : Nat} (hk : k < 8) :
    (s.enableByte c j).getLsbD k = (s.line (8 * j + k)).enabled.getLsbD c :=
  packByte_getLsbD _ hk

/-- Decision D15: a banked line shows the caller's bit, a shared one whether it has the bit of any CPU. -/
theorem bankedBit_iff (m : CpuSet) (c i : Nat) : (if i < 32 then m.getLsbD c else decide (m ≠ 0)) = true ↔
    if i < 32 then m.getLsbD c = true else ∃ c' < 8, m.getLsbD c' = true := by
  split
  · exact Iff.rfl
  · rw [decide_eq_true_iff, cpuSet_ne_zero]

theorem pendByte_getLsbD_iff {k : Nat} (hk : k < 8) : (s.pendByte c j).getLsbD k = true ↔
    if 8 * j + k < 32 then (s.line (8 * j + k)).pending.getLsbD c = true
    else ∃ c' < 8, (s.line (8 * j + k)).pending.getLsbD c' = true := by
  rw [State.pendByte, packByte_getLsbD _ hk]
  exact bankedBit_iff _ c _

theorem actByte_getLsbD_iff {k : Nat} (hk : k < 8) : (s.actByte c j).getLsbD k = true ↔
    if 8 * j + k < 32 then (s.line (8 * j + k)).active.getLsbD c = true
    else ∃ c' < 8, (s.line (8 * j + k)).active.getLsbD c' = true := by
  rw [State.actByte, packByte_getLsbD _ hk]
  exact bankedBit_iff _ c _

/-- The even bits of a configuration byte are the model bits of its lines. -/
theorem configByte_model_iff {k : Nat} (hk : k < 4) :
    (s.configByte j).getLsbD (2 * k) = true ↔ (s.line (4 * j + k)).model = .oneN := by
  rw [State.configByte, packByte_getLsbD _ (by omega)]
  have heven : 2 * k % 2 = 0 := by omega
  have hline : 2 * k / 2 = k := by omega
  simp [heven, hline]

/-- The odd bits of a configuration byte are the trigger bits of its lines. -/
theorem configByte_trigger_iff {k : Nat} (hk : k < 4) :
    (s.configByte j).getLsbD (2 * k + 1) = true ↔ (s.line (4 * j + k)).trigger = .edge := by
  rw [State.configByte, packByte_getLsbD _ (by omega)]
  have hline : (2 * k + 1) / 2 = k := by omega
  simp [hline]

/-- Settles O17: both groups read the same packed byte. -/
theorem enableReadsShowCallersBits : Obligations.EnableReadsShowCallersBits := by
  intro s c j hs hc hj
  exact ⟨s.enableByte c j, readByteOf_live hs.2.2 hc hj, readByteOf_live hs.2.2 hc hj,
    fun _ hk => enableByte_getLsbD hk⟩

/-- Settles O20: the pending groups read the same packed byte, and the active group one packed likewise. -/
theorem pendingAndActiveReadsShowLines : Obligations.PendingAndActiveReadsShowLines := by
  intro s c j hs hc hj
  exact ⟨s.pendByte c j, s.actByte c j, readByteOf_live hs.2.2 hc hj, readByteOf_live hs.2.2 hc hj,
    readByteOf_live hs.2.2 hc hj, fun _ hk => ⟨pendByte_getLsbD_iff hk, actByte_getLsbD_iff hk⟩⟩

/-- Settles O27, by the even and the odd bits of the packed byte. -/
theorem configReadShowsModelAndTrigger : Obligations.ConfigReadShowsModelAndTrigger := by
  intro s c j hs hc hj
  exact ⟨s.configByte j, readByteOf_live hs.2.2 hc hj,
    fun _ hk => ⟨configByte_model_iff hk, configByte_trigger_iff hk⟩⟩

/-! ## Writes that change the lines of a byte (rules R106, R109 and R180)

Each write is an update of the lines by their ids, in which the lines that the byte does not hold stay. -/

/-- A byte write that changes the lines by a function of their id ends with `Update()`. -/
theorem writeByteOf_onLines_after {g : Group} {f line : Nat → Line → Line} (hs : Live s) (hc : c < s.cfg.numCpu)
    (hj : j < s.cfg.len g) (h : ∀ i < s.cfg.numIrq, f i (s.line i) = line i (s.line i)) :
    ∃ t, s.writeByteOf g c j (s.onLines f) = .next t ∧ After s line sameCpus .none t := by
  rw [writeByteOf_live hs.2.2 hc hj]
  exact onLines_after hs h

theorem writeSetEnable_eq : s.writeSetEnable c j b =
    s.onLines fun i l => if i / 8 = j then l.setEnable s.cfg c i (b.getLsbD (i % 8)) else l :=
  congrArg s.onLines (funext₂ fun i l => by
    by_cases h : i / 8 = j <;> simp only [bitOfLine, h, if_true, if_false])

theorem writeClrEnable_eq : s.writeClrEnable c j b =
    s.onLines fun i l => if i / 8 = j then l.clearEnable c i (b.getLsbD (i % 8)) else l :=
  congrArg s.onLines (funext₂ fun i l => by
    by_cases h : i / 8 = j <;> simp only [bitOfLine, h, if_true, if_false])

theorem writeSetPending_eq : s.writeSetPending c j b =
    s.onLines fun i l => if i / 8 = j then l.setPending c i (b.getLsbD (i % 8)) else l :=
  congrArg s.onLines (funext₂ fun i l => by
    by_cases h : i / 8 = j <;> simp only [bitOfLine, h, if_true, if_false])

theorem writeClrPending_eq : s.writeClrPending j b =
    s.onLines fun i l => if i / 8 = j then l.clearPending (b.getLsbD (i % 8)) else l :=
  congrArg s.onLines (funext₂ fun i l => by
    by_cases h : i / 8 = j <;> simp only [bitOfLine, h, if_true, if_false])

theorem writeConfig_eq : s.writeConfig j b = s.onLines fun i l =>
    if i / 4 = j then
      l.configure i (if b.getLsbD (2 * (i % 4)) then .oneN else .nn,
        if b.getLsbD (2 * (i % 4) + 1) then .edge else .level)
    else l :=
  congrArg s.onLines (funext₂ fun i l => by
    by_cases h : i / 4 = j <;> simp only [fieldOfLine, h, if_true, if_false])

/-- Rule R186 with its three bands of ids and the option of decision D14 written out. -/
theorem setEnable_eq (cfg : Config) (c i : Nat) (bit : Bool) (l : Line) : l.setEnable cfg c i bit =
    if i < 16 then { l with enabled := l.enabled ||| cpuBit c }
    else if bit = false then l
    else
      { l with
        enabled := if i < 32 then l.enabled ||| cpuBit c else cpuAll cfg
        pending :=
          if cfg.pendLevelOnEnable = true ∧ l.trigger = .level ∧ l.level = true then
            l.pending ||| (if i < 32 then cpuBit c else l.target)
          else l.pending } := by
  unfold Line.setEnable
  cases bit with
  | false => rfl
  | true => simp only [Bool.and_eq_true, decide_eq_true_eq, and_assoc, apply_ite (l.pending ||| ·), if_true,
      Bool.true_eq_false, if_false]

/-- Rule R190: the lines 0..15 ignore the bit. -/
theorem setPending_eq (c i : Nat) (bit : Bool) (l : Line) : l.setPending c i bit =
    if 16 ≤ i ∧ bit = true then { l with pending := l.pending ||| (if i < 32 then cpuBit c else l.target) }
    else l := by
  simp only [Line.setPending, apply_ite (l.pending ||| ·)]

/-- Settles O18: the write is `Line.setEnable` on the lines of its byte. -/
theorem setEnableWriteEnablesLines : Obligations.SetEnableWriteEnablesLines := by
  intro s c j b hs hc hj
  change ∃ t, s.writeByteOf .setEnable c j (s.writeSetEnable c j b) = .next t ∧ _
  rw [writeSetEnable_eq]
  refine writeByteOf_onLines_after hs hc hj fun i _ => ?_
  by_cases h : i / 8 = j
  · rw [if_pos h, if_neg (not_not.2 h), setEnable_eq]
  · rw [if_neg h, if_pos h]

/-- Settles O19: the write is `Line.clearEnable` on the lines of its byte. -/
theorem clrEnableWriteDisablesLines : Obligations.ClrEnableWriteDisablesLines := by
  intro s c j b hs hc hj
  change ∃ t, s.writeByteOf .clrEnable c j (s.writeClrEnable c j b) = .next t ∧ _
  rw [writeClrEnable_eq]
  exact writeByteOf_onLines_after hs hc hj fun i _ => (ite_and ..).symm

/-- Settles O21: the write is `Line.setPending` on the lines of its byte. -/
theorem setPendingWritePendsLines : Obligations.SetPendingWritePendsLines := by
  intro s c j b hs hc hj
  change ∃ t, s.writeByteOf .setPending c j (s.writeSetPending c j b) = .next t ∧ _
  rw [writeSetPending_eq]
  refine writeByteOf_onLines_after hs hc hj fun i _ => ?_
  rw [setPending_eq]
  exact (ite_and ..).symm

/-- Settles O22: the write is `Line.clearPending` on the lines of its byte, whoever the caller is. -/
theorem clrPendingWriteClearsEveryCpu : Obligations.ClrPendingWriteClearsEveryCpu := by
  intro s c j b hs hc hj
  change ∃ t, s.writeByteOf .clrPending c j (s.writeClrPending j b) = .next t ∧ _
  rw [writeClrPending_eq]
  exact writeByteOf_onLines_after hs hc hj fun i _ => (ite_and ..).symm

/-- Settles O28: the write is `Line.configure` on the lines of its byte. -/
theorem configWriteStoresModelAndTrigger : Obligations.ConfigWriteStoresModelAndTrigger := by
  intro s c j b hs hc hj
  change ∃ t, s.writeByteOf .config c j (s.writeConfig j b) = .next t ∧ _
  rw [writeConfig_eq]
  exact writeByteOf_onLines_after hs hc hj fun i _ => (ite_not ..).symm

/-! ## Entries of a table read with a default -/

theorem getElem?_eq_getD {α : Type} {l : List α} {n : Nat} (d : α) (h : n < l.length) :
    l[n]? = some (l.getD n d) := by
  rw [List.getD_eq_getElem l d h, List.getElem?_eq_getElem h]

theorem getD_set {α : Type} {l : List α} {n : Nat} (h : n < l.length) (m : Nat) (a d : α) :
    (l.set n a).getD m d = if m = n then a else l.getD m d := by
  by_cases hm : m = n
  · subst hm
    simp [h]
  · simp [hm, Ne.symm hm]

/-! ## Global enable (rules R184 and R185) -/

/-- Bytes 1 to 3 are ignored. -/
theorem writeCtrl_eq (s : State) (k : Nat) (b : Byte) :
    s.writeCtrl k b = { s with distEnabled := if k = 0 then b.getLsbD 0 else s.distEnabled } := by
  unfold State.writeCtrl
  split <;> rfl

theorem ctrlByte_setWidth (s : State) (k : Nat) :
    (s.ctrlByte k).setWidth 32 = if k = 0 ∧ s.distEnabled = true then 1#32 else 0 := by
  unfold State.ctrlByte
  rw [ite_and]
  split
  · split <;> rfl
  · rfl

/-- Settles O15: the value returned is `ctrlByte`. -/
theorem ctrlReadShowsGlobalEnable : Obligations.CtrlReadShowsGlobalEnable := by
  intro s c k hs hc hk
  have hread : exec (.distCtrlR c k) s = _ := readByteOf_live hs.2.2 hc hk
  rw [hread, ctrlByte_setWidth]
  rfl

/-- Settles O16: the global enable is the one field that the write changes before `Update()`. -/
theorem ctrlWriteSetsGlobalEnable : Obligations.CtrlWriteSetsGlobalEnable := by
  intro s c k b hs hc hk
  refine ⟨_, writeByteOf_live hs.2.2 hc hk, ?_⟩
  rw [writeCtrl_eq]
  exact after_update (numIrq_le hs.1) rfl rfl rfl (fun _ _ => rfl) fun _ _ => rfl

/-! ## Priority (rules R200 and R201) -/

section Priority

variable {i : Nat}

theorem prio_private (hi : i < 32) (c : Nat) : s.prio i c = (s.cpu c).prioPriv.getD i 0 := if_pos hi

theorem prio_shared (hi : ¬i < 32) (c : Nat) : s.prio i c = s.prioShared.getD (i - 32) 0 := if_neg hi

theorem cpus_length (h : Shaped s) : s.cpus.length = s.cfg.numCpu := h.2.2.1

theorem prioPriv_length (h : Shaped s) (hc : c < s.cfg.numCpu) : (s.cpu c).prioPriv.length = 32 := by
  have hlt : c < s.cpus.length := cpus_length h ▸ hc
  obtain ⟨_, _, _, htables⟩ := h
  rw [cpu_getElem s hlt]
  exact (htables _ (List.getElem_mem hlt)).1

theorem prioShared_length (h : Shaped s) : s.prioShared.length = s.cfg.numIrq - 32 := h.2.1

/-- The priority of a line is an entry of the CPU's own table or of the shared one. -/
theorem prio_getElem? (h : Shaped s) (hc : c < s.cfg.numCpu) (hi : i < s.cfg.numIrq) :
    (i < 32 → (s.cpu c).prioPriv[i]? = some (s.prio i c)) ∧
      (32 ≤ i → s.prioShared[i - 32]? = some (s.prio i c)) := by
  refine ⟨fun hpriv => ?_, fun hshared => ?_⟩
  · rw [prio_private hpriv]
    exact getElem?_eq_getD 0 (by rw [prioPriv_length h hc]; exact hpriv)
  · rw [prio_shared (Nat.not_lt.2 hshared)]
    exact getElem?_eq_getD 0 (by rw [prioShared_length h]; omega)

theorem setPrio_private (hi : i < 32) :
    s.setPrio c i b = s.onCpu c fun p => { p with prioPriv := p.prioPriv.set i b } := if_pos hi

theorem setPrio_shared (hi : ¬i < 32) : s.setPrio c i b = { s with prioShared := s.prioShared.set (i - 32) b } :=
  if_neg hi

/-- All that a priority write does to the priorities: line `i` has the byte, a banked one for the caller only. -/
theorem setPrio_prio (h : Shaped s) (hc : c < s.cfg.numCpu) (hi : i < s.cfg.numIrq) (i' c' : Nat) :
    (s.setPrio c i b).prio i' c' = if i' = i ∧ (i < 32 → c' = c) then b else s.prio i' c' := by
  by_cases hpriv : i < 32
  · rw [setPrio_private hpriv]
    by_cases hpriv' : i' < 32
    · rw [prio_private hpriv', prio_private hpriv', onCpu_cpu]
      by_cases hown : c' = c
      · subst hown
        rw [if_pos ⟨rfl, cpus_length h ▸ hc⟩, getD_set (by rw [prioPriv_length h hc]; exact hpriv)]
        exact if_congr (and_iff_left fun _ => rfl).symm rfl rfl
      · rw [if_neg fun e => hown e.1, if_neg fun e => hown (e.2 hpriv)]
    · have hne : i' ≠ i := by omega
      rw [prio_shared hpriv', prio_shared hpriv', if_neg fun e => hne e.1]
      rfl
  · rw [setPrio_shared hpriv]
    by_cases hpriv' : i' < 32
    · have hne : i' ≠ i := by omega
      rw [prio_private hpriv', prio_private hpriv', if_neg fun e => hne e.1]
      rfl
    · rw [prio_shared hpriv', prio_shared hpriv', getD_set (by rw [prioShared_length h]; omega)]
      exact if_congr (by omega) rfl rfl

/-- A priority write ends with `Update()`, after a change of the one table that holds the line's priority. -/
theorem setPrio_after (hs : Live s) (r : Response) :
    After { s with prioShared := if i < 32 then s.prioShared else s.prioShared.set (i - 32) b } sameLines
      (fun c' p => if c' = c ∧ i < 32 then { p with prioPriv := p.prioPriv.set i b } else p) r
      { (s.setPrio c i b).update with response := r } := by
  by_cases hpriv : i < 32
  · rw [setPrio_private hpriv, if_pos hpriv]
    refine after_update (numIrq_le hs.1) rfl rfl (by simp) (fun _ _ => rfl) fun c' hc' => ?_
    rw [onCpu_cpu]
    refine if_congr (and_congr_right fun hown => ?_) rfl rfl
    exact iff_of_true (by rw [cpus_length hs.2.1, ← hown]; exact hc') hpriv
  · rw [setPrio_shared hpriv, if_neg hpriv]
    exact after_update (numIrq_le hs.1) rfl rfl rfl (fun _ _ => rfl) fun _ _ => (if_neg fun h => hpriv h.2).symm

end Priority

/-- Settles O23: the value returned is the entry that holds the line's priority. -/
theorem priorityReadShowsPriority : Obligations.PriorityReadShowsPriority := by
  intro s c i hs hc hi
  exact ⟨s.prio i c, readByteOf_live hs.2.2 hc hi, prio_getElem? hs.2.1 hc hi⟩

/-- Settles O24, by what the write does to the table and to the priorities read from it. -/
theorem priorityWriteStoresPriority : Obligations.PriorityWriteStoresPriority := by
  intro s c i b hs hc hi
  refine ⟨_, writeByteOf_live hs.2.2 hc hi, setPrio_after hs .none, fun c' _ => ?_, fun i' _ hne c' _ => ?_⟩
  · rw [answered_prio, update_prio, setPrio_prio hs.2.1 hc hi, ← ite_not]
    exact if_congr (by tauto) rfl rfl
  · rw [answered_prio, update_prio, setPrio_prio hs.2.1 hc hi, if_neg fun h => hne h.1]

/-! ## CPU targets (rules R203 and R204) -/

theorem cpuBit_getLsbD_iff {k : Nat} (hc : c < 8) : (cpuBit c).getLsbD k = true ↔ k = c := by
  rw [cpuBit_getLsbD, decide_eq_true_iff, and_iff_left hc]

theorem cpuAll_getLsbD_iff {cfg : Config} {k : Nat} (h8 : cfg.numCpu ≤ 8) :
    (cpuAll cfg).getLsbD k = true ↔ k < cfg.numCpu := by
  rw [cpuAll_getLsbD h8, decide_eq_true_iff]

/-- The bit of an existing CPU, zero-extended to the word that a read returns. -/
theorem cpuBit_setWidth (hc : c < 8) : (cpuBit c).setWidth 32 = 1#32 <<< c := by
  refine BitVec.eq_of_getLsbD_eq fun k hk => ?_
  rw [BitVec.getLsbD_setWidth, cpuBit_getLsbD, BitVec.getLsbD_shiftLeft, BitVec.getLsbD_one, Bool.eq_iff_iff]
  have hbit : k = c ↔ c ≤ k ∧ k - c = 0 := by omega
  simpa [hk, hc] using hbit

/-- Rule R204: which CPUs the stored mask holds, by the three bands of ids. -/
theorem targetStored_getLsbD_iff {cfg : Config} {i k : Nat} (h8 : cfg.numCpu ≤ 8) (hc : c < cfg.numCpu) :
    (targetStored cfg c i b).getLsbD k = true ↔
      if i < 29 then k = c else if i < 32 then k < cfg.numCpu else k < cfg.numCpu ∧ b.getLsbD k = true := by
  unfold targetStored
  split
  · exact cpuBit_getLsbD_iff (Nat.lt_of_lt_of_le hc h8)
  split
  · exact cpuAll_getLsbD_iff h8
  · rw [BitVec.getLsbD_and, Bool.and_eq_true, cpuAll_getLsbD_iff h8, and_comm]

/-- Settles O25: the value returned is `targetByte`. -/
theorem targetReadShowsMaskOrCaller : Obligations.TargetReadShowsMaskOrCaller := by
  intro s c i hs hc hi
  refine ⟨_, readByteOf_live hs.2.2 hc hi, ?_⟩
  have hband : 29 ≤ i ∧ i ≤ 31 ↔ i = 29 ∨ i = 30 ∨ i = 31 := by omega
  have hc8 : c < 8 := Nat.lt_of_lt_of_le hc (numCpu_le hs.1)
  rw [State.targetByte, apply_ite (BitVec.setWidth 32), cpuBit_setWidth hc8, if_congr hband rfl rfl]

/-- Settles O26: the write stores `targetStored` in its line and changes nothing else before `Update()`. -/
theorem targetWriteStoresMask : Obligations.TargetWriteStoresMask := by
  intro s c i b hs hc hi
  have hwrite : exec (.distTargetW c i b) s = (s.writeTarget c i b).update.answer .none :=
    writeByteOf_live hs.2.2 hc hi
  obtain ⟨t, hnext, hafter⟩ := onLine_after (i := i) (r := .none)
    (f := fun l => { l with target := targetStored s.cfg c i b }) hs fun _ _ => rfl
  exact ⟨t, targetStored s.cfg c i b, hwrite.trans hnext,
    fun _ _ => targetStored_getLsbD_iff (numCpu_le hs.1) hc, hafter⟩

/-! ## Software-generated interrupts (rules R114 and R212) -/

theorem sgiId_eq (v : Word) : sgiId v = v.toNat % 1024 := by
  simp [sgiId, BitVec.extractLsb'_toNat]

/-- An SGI is an update of the line that its id names; an id that names no line updates nothing. -/
theorem sendSgi_eq (h : Shaped s) (v : Word) :
    s.sendSgi c v = s.onLine (v.toNat % 1024) fun l => { l with pending := l.pending ||| sgiMask s.cfg c v } := by
  have hlines : s.lines.length = s.cfg.numIrq := h.1
  unfold State.sendSgi
  rw [sgiId_eq]
  split
  case isTrue => rfl
  case isFalse hnone =>
    unfold State.onLine
    rw [List.modify_eq_self (by omega)]

/-- The filter mode is bits 25 and 24 of the word. -/
theorem sgiFilter_eq (v : Word) : (v.extractLsb' 24 2).toNat = (v.getLsbD 24).toNat + 2 * (v.getLsbD 25).toNat := by
  have hlow : v.getLsbD 24 = (v.extractLsb' 24 2).getLsbD 0 := by simp
  have hhigh : v.getLsbD 25 = (v.extractLsb' 24 2).getLsbD 1 := by simp
  rw [hlow, hhigh]
  generalize v.extractLsb' 24 2 = mode
  revert mode
  decide

/-- Decision D16: the CPUs that each of the four filter modes chooses. -/
theorem sgiMask_getLsbD_iff {cfg : Config} {k : Nat} (h8 : cfg.numCpu ≤ 8) (hc : c < cfg.numCpu) (hk : k < 8)
    (v : Word) : (sgiMask cfg c v).getLsbD k = true ↔ k < cfg.numCpu ∧
      (v.getLsbD 25 = false ∧ v.getLsbD 24 = false ∧ v.getLsbD (16 + k) = true ∨
        v.getLsbD 25 = false ∧ v.getLsbD 24 = true ∧ k ≠ c ∨
        v.getLsbD 25 = true ∧ v.getLsbD 24 = false ∧ k = c ∨
        v.getLsbD 25 = true ∧ v.getLsbD 24 = true) := by
  have hc8 : c < 8 := Nat.lt_of_lt_of_le hc h8
  unfold sgiMask
  rw [sgiFilter_eq]
  cases hhigh : v.getLsbD 25 <;> cases hlow : v.getLsbD 24
  case false.false =>
    change (v.extractLsb' 16 8 &&& cpuAll cfg).getLsbD k = true ↔ _
    rw [BitVec.getLsbD_and, Bool.and_eq_true, cpuAll_getLsbD_iff h8, BitVec.getLsbD_extractLsb']
    simp [hk, and_comm]
  case false.true =>
    change (cpuAll cfg &&& ~~~(cpuBit c)).getLsbD k = true ↔ _
    rw [active_and, cpuAll_getLsbD_iff h8]
    simp [hc8]
  case true.false =>
    change (cpuBit c).getLsbD k = true ↔ _
    rw [cpuBit_getLsbD_iff hc8]
    simpa using fun hown : k = c => hown ▸ hc
  case true.true =>
    change (cpuAll cfg).getLsbD k = true ↔ _
    rw [cpuAll_getLsbD_iff h8]
    simp

/-- Settles O29: the chosen CPUs are `sgiMask`, and the write updates the line that `sgiId` names. -/
theorem sgiWritePendsChosenCpus : Obligations.SgiWritePendsChosenCpus := by
  intro s c v hs hc
  have hwrite : exec (.distSgiW c v) s = (s.sendSgi c v).update.answer .none := asCpu_live hs.2.2 hc _
  rw [hwrite, sendSgi_eq hs.2.1]
  obtain ⟨t, hnext, hafter⟩ := onLine_after (i := v.toNat % 1024) (r := .none)
    (f := fun l => { l with pending := l.pending ||| sgiMask s.cfg c v }) hs fun _ _ => rfl
  exact ⟨t, sgiMask s.cfg c v, hnext, fun _ hk => sgiMask_getLsbD_iff (numCpu_le hs.1) hc hk v, hafter⟩

/-! ## Identification and write-only registers (rules R115, R214, R216 and R254) -/

theorem idBytes_length {cfg : Config} (h : cfg.ok = true) : cfg.idBytes.length = 8 := by
  simp only [Config.ok, Bool.and_eq_true, decide_eq_true_eq] at h
  exact h.1.2

/-- The byte with number `m` stands at offset `4 * m`, and the three bytes after it are 0. -/
theorem idByte_eq {r : Nat} (hr : r < 4) (s : State) (m : Nat) :
    s.idByte (4 * m + r) = if r = 0 then s.cfg.idBytes.getD m 0 else 0 := by
  have hnum : (4 * m + r) / 4 = m := by omega
  rw [State.idByte, hnum]
  exact if_congr (by omega) rfl rfl

/-- Settles O30: the value returned is `idByte`. -/
theorem idReadShowsIdentificationBytes : Obligations.IdReadShowsIdentificationBytes := by
  intro s c m r hs hc hm hr
  have hlt : m < s.cfg.idBytes.length := by rw [idBytes_length hs.1]; exact hm
  have hlen : 4 * m + r < 32 := by omega
  have hread : exec (.distIdR c (4 * m + r)) s = _ := readByteOf_live hs.2.2 hc hlen
  refine ⟨s.cfg.idBytes.getD m 0, getElem?_eq_getD 0 hlt, ?_⟩
  rw [hread, idByte_eq hr, apply_ite (BitVec.setWidth 32)]
  rfl

/-- Settles O34: both rows are the fatal error of an undecoded read. -/
theorem readsOfWriteOnlyRegistersAreFatal : Obligations.ReadsOfWriteOnlyRegistersAreFatal := by
  intro s c hs hc
  exact ⟨fun _ _ => asCpu_live hs.2.2 hc _, asCpu_live hs.2.2 hc _⟩

end Sys2Proof.Machine

/-! SUPPORT and CLAIMS. CPU-interface registers (`43_cpu_interface_regs.md`): which accesses of the window are decoded,
what the registers read as, what a write makes of the interface, and the acknowledge and the End-Of-Interrupt case by
case. -/

namespace Sys2Proof.Machine

variable {s : State} {t : Txn} {c c' i off : Nat} {v : Word} {id pred prev : IrqId}

/-! ## Which accesses are decoded (rules R84, R240 and R259) -/

/-- The offsets of the seven registers of rule R240. -/
abbrev cpuifOffsets : List Nat := [0x00, 0x04, 0x08, 0x0C, 0x10, 0x14, 0x18]

theorem cpuReadRow_eq_none (h : off ∉ cpuifOffsets) : cpuReadRow c off = none := by
  unfold cpuReadRow
  split
  case h_8 => rfl
  all_goals exact absurd (by decide) h

theorem cpuWriteRow_eq_none (h : off ∉ cpuifOffsets) : cpuWriteRow c off v = none := by
  unfold cpuWriteRow
  split
  case h_8 => rfl
  all_goals exact absurd (by decide) h

/-- An access of another width or at another offset is undecoded. -/
theorem decodeCpuif_undecoded (h : t.size ≠ .word ∨ t.off.toNat ∉ cpuifOffsets) :
    decodeCpuif t = .undecoded (.undecodedOffset .cpuif t.cpu t.dir t.off.toNat t.size.bytes) := by
  rcases h with hsize | hoff
  · simp only [decodeCpuif, if_neg hsize]
  · simp only [decodeCpuif, cpuReadRow_eq_none hoff, cpuWriteRow_eq_none hoff]
    cases t.dir <;> simp only [ite_self]

/-- A 32-bit read at `0x10` has a row of its own. -/
theorem decodeCpuif_eoiRead (hsize : t.size = .word) (hoff : t.off.toNat = 0x10) (hdir : t.dir = .read) :
    decodeCpuif t = .op (.cpuEoiR t.cpu) := by
  simp only [decodeCpuif, hsize, hoff, hdir, cpuReadRow, if_true]

theorem decodeTxn_cpuif {cfg : Config} (h : t.win = .cpuif) : decodeTxn cfg t = decodeCpuif t := by
  simp only [decodeTxn, h]

/-- Settles O7: the access is undecoded, or it is the read of the End-Of-Interrupt word, whose row is fatal with the same
diagnostic. -/
theorem undecodedCpuWindowAccessIsFatal : Obligations.UndecodedCpuWindowAccessIsFatal := by
  intro s t rest hs hinbox hwin hc hbad
  rw [step_of_inbox hs.2.2 hinbox]
  have hundecoded (h : t.size ≠ .word ∨ t.off.toNat ∉ cpuifOffsets) :=
    issueTxn_undecoded (s := { s with inbox := rest }) hs.2.2 hc
      ((decodeTxn_cpuif hwin).trans (decodeCpuif_undecoded h))
  rcases hbad with hsize | hoff | ⟨hoff, hdir⟩
  · exact hundecoded (.inl hsize)
  · exact hundecoded (.inr hoff)
  · by_cases hsize : t.size = .word
    · have hop := (decodeTxn_cpuif (cfg := s.cfg) hwin).trans (decodeCpuif_eoiRead hsize hoff hdir)
      rw [hoff, hdir, hsize]
      exact (issueTxn_op (s := { s with inbox := rest }) hc hop).trans (asCpu_live hs.2.2 hc _)
    · exact hundecoded (.inl hsize)

/-! ## Reads (rules R241, R243, R245, R255 and R257) -/

theorem idWord_toNat (id : IrqId) : (idWord id).toNat = id.toNat :=
  BitVec.toNat_setWidth_of_le (by decide)

/-- Settles O33: every value returned is its field, zero-extended. -/
theorem cpuReadsShowTheirFields : Obligations.CpuReadsShowTheirFields := by
  intro s c hs hc
  refine ⟨_, _, _, _, _, asCpu_live hs.2.2 hc _, asCpu_live hs.2.2 hc _, asCpu_live hs.2.2 hc _,
    asCpu_live hs.2.2 hc _, asCpu_live hs.2.2 hc _, ?_, BitVec.toNat_setWidth_of_le (by decide), rfl,
    BitVec.toNat_setWidth_of_le (by decide), idWord_toNat _⟩
  cases (s.cpu c).enabled <;> rfl

/-! ## Writes (rules R242, R244, R246, R248, R256 and R258) -/

/-- A distributor write that is ignored leaves a state in which arbitration is current as it is. -/
theorem writeByteOf_ignored {g : Group} {k : Nat} (hs : Live s) (hc : c < s.cfg.numCpu) (hk : k < s.cfg.len g)
    (hcur : ArbitrationCurrent s) : s.writeByteOf g c k s = .next { s with response := .none } := by
  rw [writeByteOf_live hs.2.2 hc hk, update_of_current (numIrq_le hs.1) (cpus_length hs.2.1) hcur]

/-- Settles O35: the rows of the interface only answer, and those of the distributor write the table as it is. -/
theorem writesToReadOnlyRegistersAreIgnored : Obligations.WritesToReadOnlyRegistersAreIgnored := by
  intro s c v b hs hc
  exact ⟨asCpu_live hs.2.2 hc _, asCpu_live hs.2.2 hc _, asCpu_live hs.2.2 hc _, fun hcur =>
    ⟨fun _ hj => writeByteOf_ignored hs hc hj hcur, fun _ hk => writeByteOf_ignored hs hc hk hcur⟩⟩

/-- Settles O36: the enable of its interface is the one field that the write changes before `Update()`. -/
theorem cpuCtrlWriteSetsEnable : Obligations.CpuCtrlWriteSetsEnable := by
  intro s c v hs hc
  have hwrite : exec (.cpuCtrlW c v) s = _ := asCpu_live hs.2.2 hc _
  rw [hwrite]
  exact onCpu_after hs fun _ _ => rfl

/-- Which line is the best one depends on no field of an interface but its enable and its priorities (rule R146). -/
theorem isBest_onCpu {g : Cpu → Cpu} (hg : ∀ p, (g p).enabled = p.enabled ∧ (g p).prioPriv = p.prioPriv) :
    IsBest (s.onCpu c g) c' id ↔ IsBest s c' id := by
  have henabled : ((s.onCpu c g).cpu c').enabled = (s.cpu c').enabled := by
    rw [onCpu_cpu]
    split
    · exact (hg _).1
    · rfl
  simp only [IsBest, GateOpen, Candidate, NotAfter, onCpu_cfg, onCpu_distEnabled, onCpu_line, henabled,
    onCpu_prio s _ _ _ g fun p => (hg p).2]

/-- Arbitration after such a change finds the best line that was current before it, because there is only one. -/
theorem onCpu_update_best {g : Cpu → Cpu} (hs : Live s) (hcur : ArbitrationCurrent s) (hc' : c' < s.cfg.numCpu)
    (hg : ∀ p, (g p).enabled = p.enabled ∧ (g p).prioPriv = p.prioPriv) :
    ((s.onCpu c g).update.cpu c').best = (s.cpu c').best := by
  rw [update_cpu]
  exact isBest_unique ((isBest_onCpu hg).1 (arbitrate_spec (s.onCpu c g) (numIrq_le hs.1) c').1) (hcur c' hc').1

/-- Settles O37: the mask of its interface is the one field that the write changes before `Update()`. -/
theorem primaskWriteSetsMask : Obligations.PrimaskWriteSetsMask := by
  intro s c v hs hc
  have hwrite : exec (.cpuPrimaskW c v) s = _ := asCpu_live hs.2.2 hc _
  rw [hwrite]
  obtain ⟨t, hnext, hafter⟩ := onCpu_after (i := c) (r := .none)
    (f := fun p => { p with prioMask := v.setWidth 8 }) hs fun _ _ => rfl
  refine ⟨t, v.setWidth 8, hnext, BitVec.toNat_setWidth 8 v, hafter, fun hcur c' hc' => ?_⟩
  rw [answer_next.1 hnext, answered_cpu]
  exact onCpu_update_best hs hcur hc' fun _ => ⟨rfl, rfl⟩

/-- Settles O38: the binary point of its interface is the one field that the write changes, and it does not arbitrate. -/
theorem binpointWriteStoresOnly : Obligations.BinpointWriteStoresOnly := by
  intro s c v hs hc
  refine ⟨_, asCpu_live hs.2.2 hc _, rfl, List.length_modify .., fun c' hc' => ?_⟩
  rw [answered_cpu, onCpu_cpu]
  exact if_congr (and_iff_left (by rwa [cpus_length hs.2.1])) rfl rfl

/-! ## Acknowledge (rule R247) -/

theorem ne_noneId_of_lt {cfg : Config} (hok : cfg.ok = true) (h : id.toNat < cfg.numIrq) : id ≠ noneId := by
  rintro rfl
  exact absurd (Nat.lt_of_lt_of_le h (numIrq_le hok)) (by decide)

/-- A best pending line that exists is claimed if its priority beats the running one. -/
theorem ack_claims (hs : Live s) (hc : c < s.cfg.numCpu) (hid : (s.cpu c).best.toNat < s.cfg.numIrq)
    (hprio : (s.prio (s.cpu c).best.toNat c).toNat < (s.cpu c).runPrio.toNat) :
    execCpuAckR c s = (s.claim c (s.cpu c).best).answer (.data (idWord (s.cpu c).best)) := by
  rw [execCpuAckR, asCpu_live hs.2.2 hc, if_neg (ne_noneId_of_lt hs.1 hid), if_neg (Nat.not_le.2 hid),
    if_neg (Nat.not_le.2 hprio)]

/-- With no best pending line, or one that exists and does not beat the running priority, the acknowledge is spurious. -/
theorem ack_spurious (hs : Live s) (hc : c < s.cfg.numCpu)
    (h : (s.cpu c).best = noneId ∨ (s.cpu c).best.toNat < s.cfg.numIrq ∧
      (s.cpu c).runPrio.toNat ≤ (s.prio (s.cpu c).best.toNat c).toNat) :
    execCpuAckR c s = s.answer (.data (idWord noneId)) := by
  rw [execCpuAckR, asCpu_live hs.2.2 hc]
  rcases h with hnone | ⟨hid, hprio⟩
  · rw [if_pos hnone]
  · rw [if_neg (ne_noneId_of_lt hs.1 hid), if_neg (Nat.not_le.2 hid), if_pos hprio]

/-- Settles O39: the acknowledge is the claim. -/
theorem acknowledgeClaimsTheBestLine : Obligations.AcknowledgeClaimsTheBestLine := by
  rintro s c _ hs hc rfl _ hid hprio
  exact ⟨_, _, ack_claims hs hc hid hprio, idWord_toNat _,
    claim_after (numIrq_le hs.1) hs.2.1.1 (cpus_length hs.2.1) c _⟩

/-- Settles O40: both spurious forms only answer. -/
theorem acknowledgeWithNothingEligibleIsSpurious : Obligations.AcknowledgeWithNothingEligibleIsSpurious :=
  fun _ _ hs hc h => ack_spurious hs hc h

/-- The best pending line, if there is one, is pending. -/
theorem isBest_pending (h : IsBest s c id) (hne : id ≠ noneId) : (s.line id.toNat).pending.getLsbD c = true := by
  unfold IsBest at h
  split at h
  · exact h.2.1.2
  · exact absurd h hne

/-- The claim of a 1:N line leaves it pending for no CPU. -/
theorem claim_oneN_pending (hsh : Shaped s) (hid : id.toNat < s.cfg.numIrq) (hmodel : (s.line id.toNat).model = .oneN)
    (c : Nat) : ((s.claim c id).line id.toNat).pending = 0 := by
  have hline : id.toNat < s.lines.length := by rwa [hsh.1]
  rw [claim_eq, update_line, onLine_line, if_pos ⟨rfl, hline⟩]
  exact if_pos hmodel

/-- Settles O41: an acknowledge that makes another line the running one has claimed it, which leaves it pending for no
CPU, and the best line of a CPU is pending for it. -/
theorem oneNClaimLeavesItToNobodyElse : Obligations.OneNClaimLeavesItToNobodyElse := by
  intro s t c id hs hc hid hmodel hack hrun hother c' hc'
  obtain ⟨hok, hsh, _⟩ := hs
  obtain rfl | ⟨_, _, _, rfl⟩ := ack_next hack
  · exact absurd hrun hother
  · have hclaimed : (s.cpu c).best = id := ((claim_cpu hsh hc c).1.trans (if_pos rfl)).symm.trans hrun
    have hpending := claim_oneN_pending hsh hid hmodel c
    rw [hclaimed]
    refine ⟨fun hagain => ?_, hpending⟩
    have hbest := (claim_current s (numIrq_le hok) c id c' hc').1
    have hbit := isBest_pending (hagain ▸ hbest) (ne_noneId_of_lt hok hid)
    rw [hpending] at hbit
    exact absurd hbit (by simp)

/-! ## End-Of-Interrupt: what it does to the tables (rules R249 to R252) -/

/-- Rule R125: the id is bits 9:0 of the data. -/
theorem eoiId_toNat (v : Word) : (v.setWidth 10).toNat = v.toNat % 1024 := BitVec.toNat_setWidth 10 v

theorem execCpuEoiW_live (hs : Live s) (hc : c < s.cfg.numCpu) (v : Word) :
    exec (.cpuEoiW c v) s = s.retire c (v.setWidth 10) := asCpu_live hs.2.2 hc _

/-- The level re-pend of rule R250, line by line. -/
theorem repended_line (hsh : Shaped s) (hi : i < s.cfg.numIrq) (j : Nat) :
    (s.repended c i).line j =
      if j = i then
        { s.line j with pending := if s.comesBack c i then (s.line j).pending ||| cpuBit c else (s.line j).pending }
      else s.line j := by
  rw [repended_eq, onLine_line]
  refine if_congr (and_iff_left (by rwa [hsh.1])) ?_ rfl
  split <;> rfl

theorem popped_line_deactivate (s : State) (c i : Nat) (prev : IrqId) (j : Nat) :
    (s.popped c i prev).line j = (s.deactivate c i).line j := rfl

theorem splice_line_deactivate (s : State) (c i : Nat) (pred : IrqId) (j : Nat) :
    (s.splice c i pred).line j = (s.deactivate c i).line j := rfl

section Tables

variable (hsh : Shaped s)
include hsh

/-- What a retirement from the chain makes of the lines: the re-pend and the end of the active bit. -/
theorem repended_deactivate_line (hi : i < s.cfg.numIrq) (j : Nat) :
    ((s.repended c i).deactivate c i).line j =
      if j = i then
        { s.line j with
          pending := if s.comesBack c i then (s.line j).pending ||| cpuBit c else (s.line j).pending
          active := (s.line j).active &&& ~~~(cpuBit c) }
      else s.line j := by
  have hlines : i < (s.repended c i).lines.length := by rwa [(repended_shaped hsh).1, repended_cfg]
  rw [deactivate_eq, onLine_line, repended_line hsh hi, if_congr (and_iff_left hlines) rfl rfl]
  split <;> rfl

theorem repended_popped_cpu (hc : c < s.cfg.numCpu) (k : Nat) :
    ((s.repended c i).popped c i prev).cpu k =
      if k = c then
        { s.cpu k with
          runId := prev, runPrio := if prev = noneId then nonePrio else (s.prio prev.toNat c).setWidth 9 }
      else s.cpu k := by
  rw [popped_cpu (repended_shaped hsh) (by rwa [repended_cfg]), repended_cpu, repended_prio]

theorem repended_splice_cpu (hc : c < s.cfg.numCpu) (k : Nat) :
    ((s.repended c i).splice c i pred).cpu k =
      if k = c then
        { s.cpu k with lastActive := (s.cpu k).lastActive.set pred.toNat ((s.cpu k).lastActive.getD i noneId) }
      else s.cpu k := by
  rw [splice_cpu (repended_shaped hsh) (by rwa [repended_cfg]), repended_cpu]

end Tables

/-- A retirement changes the lines and the CPUs only. -/
theorem repended_popped_rest (s : State) (c i : Nat) (prev : IrqId) :
    (s.repended c i).popped c i prev =
      { s with lines := ((s.repended c i).popped c i prev).lines, cpus := ((s.repended c i).popped c i prev).cpus } := by
  rw [repended_eq]
  rfl

theorem repended_splice_rest (s : State) (c i : Nat) (pred : IrqId) :
    (s.repended c i).splice c i pred =
      { s with lines := ((s.repended c i).splice c i pred).lines, cpus := ((s.repended c i).splice c i pred).cpus } := by
  rw [repended_eq]
  rfl

/-! ## End-Of-Interrupt: what it answers (rules R249 to R252) -/

/-- `Update()` where a condition holds: a splice arbitrates only after a re-pend (rule R252). -/
def State.updateIf (s : State) (b : Bool) : State := if b then s.update else s

@[simp] theorem updateIf_true (s : State) : s.updateIf true = s.update := rfl
@[simp] theorem updateIf_false (s : State) : s.updateIf false = s := rfl

theorem updateIf_line (s : State) (b : Bool) (j : Nat) : (s.updateIf b).line j = s.line j := by cases b <;> rfl

/-- With arbitration or without, nothing of a CPU changes but the outputs of arbitration. -/
theorem updateIf_cpu (s : State) (b : Bool) (k : Nat) :
    (s.updateIf b).cpu k =
      { s.cpu k with best := ((s.updateIf b).cpu k).best, irqOut := ((s.updateIf b).cpu k).irqOut } := by
  cases b
  · rfl
  · exact update_entry s k

theorem updateIf_rest (s : State) (b : Bool) : s.updateIf b = { s with cpus := (s.updateIf b).cpus } := by
  cases b <;> rfl

/-- The id is the running one. -/
theorem retire_running (hok : s.cfg.ok = true) (hid : id.toNat < s.cfg.numIrq) (hrun : (s.cpu c).runId = id)
    (hprev : (s.cpu c).lastActive[id.toNat]? = some prev) (hprevok : IdOk s.cfg prev) :
    s.retire c id = ((s.repended c id.toNat).popped c id.toNat prev).update.answer .none := by
  rw [retire_eq hid (hrun ▸ ne_noneId_of_lt hok hid), if_pos hrun.symm]
  exact pop_eq (by rwa [repended_cpu]) (by rwa [repended_cfg])

section Walk

variable (hid : id.toNat < s.cfg.numIrq) (hrun : (s.cpu c).runId ≠ noneId) (hother : id ≠ (s.cpu c).runId)
include hid hrun hother

/-- The walk finds the member before the id. -/
theorem retire_found (hwalk : walkChain (s.cpu c).lastActive id s.cfg.numIrq (s.cpu c).runId = .found pred) :
    s.retire c id =
      (((s.repended c id.toNat).splice c id.toNat pred).updateIf (s.comesBack c id.toNat)).answer .none := by
  rw [retire_eq hid hrun, if_neg hother, hwalk]
  unfold State.repended
  cases s.comesBack c id.toNat <;> rfl

/-- The walk ends without the id. -/
theorem retire_ended (hwalk : walkChain (s.cpu c).lastActive id s.cfg.numIrq (s.cpu c).runId = .ended) :
    s.retire c id =
      if s.comesBack c id.toNat then (s.pendFor c id.toNat).update.answer .none else s.answer .none := by
  rw [retire_eq hid hrun, if_neg hother, hwalk]

/-- The walk does not end. -/
theorem retire_diverges (hwalk : walkChain (s.cpu c).lastActive id s.cfg.numIrq (s.cpu c).runId = .diverges) :
    s.retire c id = .fault .eoiWalkDiverges := by
  rw [retire_eq hid hrun, if_neg hother, hwalk]

end Walk

/-! ## End-Of-Interrupt: the cases -/

/-- Settles O42, by the two checks that the retirement starts with. -/
theorem eoiOfNothingIsIgnored : Obligations.EoiOfNothingIsIgnored := by
  intro s c v hs hc h
  rw [execCpuEoiW_live hs hc]
  exact retire_ignored (by rwa [eoiId_toNat])

/-- Settles O43: the retirement is the re-pend and the pop, and then `Update()`. -/
theorem eoiOfRunningIdPops : Obligations.EoiOfRunningIdPops := by
  intro s c v prev hs hc hid hrun hprev hprevok
  rw [execCpuEoiW_live hs hc]
  rw [← eoiId_toNat v] at hid hrun hprev ⊢
  generalize v.setWidth 10 = id at hid hrun hprev ⊢
  rw [retire_running hs.1 hid (BitVec.eq_of_toNat_eq hrun) hprev hprevok]
  refine ⟨_, rfl, after_update (numIrq_le hs.1) (repended_popped_rest ..) ?_ ?_ (fun i _ => ?_) fun c' _ => ?_⟩
  · simp [State.popped, deactivate_eq, repended_eq]
  · simp [State.popped, deactivate_eq]
  · simp only [popped_line_deactivate, repended_deactivate_line hs.2.1 hid, comesBack_iff]
    split
    case isTrue h => rw [h]
    case isFalse => rfl
  · exact repended_popped_cpu hs.2.1 hc c'

/-- A chain that is not empty starts with a member. -/
theorem isChain_start_mem {la : List IrqId} {start : IrqId} {members : List IrqId} (h : IsChain la start members)
    (hne : members ≠ []) : start ∈ members := by
  cases members with
  | nil => exact absurd rfl hne
  | cons k rest => exact h.1 ▸ List.mem_cons_self

/-- A member after another one is not the start of a chain that repeats no id. -/
theorem nested_ne_start {la : List IrqId} {start : IrqId} {before after : List IrqId}
    (h : IsChain la start (before ++ pred :: id :: after)) (hnodup : (before ++ pred :: id :: after).Nodup) :
    id ≠ start := by
  rintro rfl
  cases before with
  | nil => exact (List.nodup_cons.1 hnodup).1 (h.1 ▸ List.mem_cons_self)
  | cons k before => exact (List.nodup_cons.1 hnodup).1 (h.1 ▸ by simp)

/-- The retirement of an id after another member of a good chain splices it out. -/
theorem retire_nested (hs : Live s) (hc : c < s.cfg.numCpu) {before after : List IrqId}
    (hgood : IsGoodChain s.cfg (s.cpu c) (before ++ pred :: id :: after)) :
    s.retire c id =
      (((s.repended c id.toNat).splice c id.toNat pred).updateIf (s.comesBack c id.toNat)).answer .none := by
  have ⟨hchain, hnodup, hlines⟩ := hgood
  have hrun : (s.cpu c).runId ∈ before ++ pred :: id :: after := isChain_start_mem hchain (by simp)
  have hshort : before.length < s.cfg.numIrq := by
    have hle := goodChain_length hgood
    simp only [List.length_append, List.length_cons] at hle
    omega
  refine retire_found (hlines id (by simp)) (ne_noneId_of_lt hs.1 (hlines _ hrun)) (nested_ne_start hchain hnodup)
    (walkChain_found hchain (fun k hk => ?_) hnodup hshort)
  rw [lastActive_length hs.2.1 hc]
  exact hlines k hk

/-- Settles O44: the retirement is the re-pend and the splice, with `Update()` only after a re-pend. -/
theorem eoiOfNestedIdSplices : Obligations.EoiOfNestedIdSplices := by
  intro s c v before after pred id hs hc hgood hv
  have hid : id.toNat < s.cfg.numIrq := hgood.2.2 id (by simp)
  have hpred : pred.toNat < s.cfg.numIrq := hgood.2.2 pred (by simp)
  have heoi : v.setWidth 10 = id := BitVec.eq_of_toNat_eq ((eoiId_toNat v).trans hv.symm)
  rw [execCpuEoiW_live hs hc, heoi, retire_nested hs hc hgood]
  have hline (j : Nat) := (splice_line_deactivate _ c _ pred j).trans (repended_deactivate_line hs.2.1 hid j)
  have hcpu := repended_splice_cpu (i := id.toNat) (pred := pred) hs.2.1 hc
  have hrest := repended_splice_rest s c id.toNat pred
  generalize (s.repended c id.toNat).splice c id.toNat pred = u at hline hcpu hrest
  have hframe := updateIf_cpu u (s.comesBack c id.toNat)
  simp only [hcpu] at hframe
  refine ⟨_, s.comesBack c id.toNat, rfl, comesBack_iff s c _, ?_, fun i _ => ?_, fun c' _ => hframe c', fun hb => ?_,
    fun hb c' _ => ?_, ?_⟩
  · rw [updateIf_rest, hrest]
  · rw [answered_line, updateIf_line]
    exact hline i
  · rw [hb]
    exact update_current u (by rw [hrest]; exact numIrq_le hs.1)
  · rw [answered_cpu, hb, updateIf_false, hcpu]
    split <;> exact ⟨rfl, rfl⟩
  · rw [answered_cpu, hframe, if_pos rfl]
    exact isChain_splice (by rw [lastActive_length hs.2.1 hc]; exact hpred) hgood.1 hgood.2.1

/-- Settles O45: the walk ends, and the retirement is at most the re-pend and then `Update()`. -/
theorem eoiOfUnclaimedIdOnlyRepends : Obligations.EoiOfUnclaimedIdOnlyRepends := by
  intro s c v members hs hc hgood hne hid hout
  rw [execCpuEoiW_live hs hc]
  rw [← eoiId_toNat v] at hid hout ⊢
  rw [BitVec.ofNat_toNat, BitVec.setWidth_eq] at hout
  generalize v.setWidth 10 = id at hid hout ⊢
  have ⟨hchain, _, hlines⟩ := hgood
  have hrun : (s.cpu c).runId ∈ members := isChain_start_mem hchain hne
  have hwalk : walkChain (s.cpu c).lastActive id s.cfg.numIrq (s.cpu c).runId = .ended := by
    refine walkChain_ended hchain hne (fun k hk => ?_) hout (ne_noneId_of_lt hs.1 hid) (goodChain_length hgood)
    rw [lastActive_length hs.2.1 hc]
    exact hlines k hk
  rw [retire_ended hid (ne_noneId_of_lt hs.1 (hlines _ hrun)) (fun h => hout (h ▸ hrun)) hwalk]
  by_cases hback : s.comesBack c id.toNat = true
  · rw [if_pos hback, if_pos ((comesBack_iff ..).1 hback)]
    exact onLine_after hs fun _ _ => rfl
  · rw [if_neg hback, if_neg (mt (comesBack_iff ..).2 hback)]
    rfl

/-- Settles O46: the walk meets only lines, and never the id. -/
theorem eoiOnCyclicChainIsStuck : Obligations.EoiOnCyclicChainIsStuck := by
  intro s c v hs hc hid hcycle
  rw [execCpuEoiW_live hs hc]
  rw [← eoiId_toNat v] at hid hcycle
  have hlen := lastActive_length hs.2.1 hc
  obtain ⟨hline, hother⟩ := hcycle 0
  exact retire_diverges hid (ne_noneId_of_lt hs.1 hline) (fun h => hother (congrArg BitVec.toNat h).symm)
    (walkChain_diverges (by rw [hlen]; exact numIrq_le hs.1) (by rwa [hlen]))

end Sys2Proof.Machine

/-! SUPPORT and CLAIMS. Save and restore (`44_snapshot.md`): what a snapshot holds, which loads are refused or fatal,
and what a load makes of the table it is loaded into. -/

namespace Sys2Proof.Machine

variable {s v : State} {snap : Snapshot} {c : Nat}

/-! ## Save (rules R280, R281 and R283) -/

theorem exec_snapshotSave (hf : s.fatal = false) :
    exec .snapshotSave s = .next { s with response := .snapshot s.save } :=
  unlessFatal_live hf _

/-- The shape that rule R287 asks of a snapshot. -/
theorem fits_iff {cfg : Config} : snap.fits cfg = true ↔
    snap.cpus.length = cfg.numCpu ∧
      (∀ q ∈ snap.cpus, q.prioPriv.length = numPrivate ∧ q.lastActive.length = cfg.numIrq) ∧
      snap.prioShared.length = cfg.numIrq - numPrivate ∧ snap.lines.length = cfg.numIrq := by
  simp only [Snapshot.fits, Bool.and_eq_true, decide_eq_true_eq, List.all_eq_true, and_assoc]

/-- A saved snapshot has the shape that its own parameters give. -/
theorem save_fits (hs : Shaped s) : s.save.fits s.cfg = true := by
  obtain ⟨hlines, hshared, hcpus, heach⟩ := hs
  refine fits_iff.2 ⟨(List.length_map _).trans hcpus, fun q hq => ?_, hshared, (List.length_map _).trans hlines⟩
  obtain ⟨p, hp, rfl⟩ := List.mem_map.1 hq
  exact heach p hp

theorem save_cpus_getElem? (hc : c < s.cpus.length) : s.save.cpus[c]? = some (s.cpu c).save := by
  rw [State.save, List.getElem?_map, getElem?_eq_getD (Cpu.atReset 0) hc]
  rfl

theorem save_lines_getElem? {i : Nat} (hi : i < s.lines.length) : s.save.lines[i]? = some (s.line i).save := by
  rw [State.save, List.getElem?_map, getElem?_eq_getD Line.absent hi]
  rfl

/-- Settles O48: the snapshot is `State.save`, entry by entry the saved fields of the CPU or line. -/
theorem saveReturnsThePersistedFields : Obligations.SaveReturnsThePersistedFields := by
  intro s hs
  obtain ⟨_, hshape, hlive⟩ := hs
  exact ⟨s.save, exec_snapshotSave hlive, rfl, rfl, rfl, save_fits hshape,
    fun c hc => save_cpus_getElem? (cpus_length hshape ▸ hc), fun i hi => save_lines_getElem? (hshape.1 ▸ hi)⟩

/-! ## Load (rules R285, R287 and R303) -/

theorem exec_snapshotLoad (hf : s.fatal = false) : exec (.snapshotLoad snap) s =
    if snap.version ≠ s.cfg.snapshotVersion then .next (s.died (.snapshotVersion snap.version))
    else if snap.fits s.cfg then .next { (s.loadFields snap).update with response := .none }
    else .refused .foreignSnapshot :=
  unlessFatal_live hf _

theorem exec_snapshotLoad_fits (hf : s.fatal = false) (hversion : snap.version = s.cfg.snapshotVersion)
    (hfit : snap.fits s.cfg = true) :
    exec (.snapshotLoad snap) s = .next { (s.loadFields snap).update with response := .none } := by
  rw [exec_snapshotLoad hf, if_neg (not_not_intro hversion), if_pos hfit]

/-- Settles O50: the version is tested first, and then the shape. -/
theorem loadOfOtherVersionIsFatal : Obligations.LoadOfOtherVersionIsFatal := by
  intro s snap hs
  refine ⟨fun hversion => ?_, fun hversion hfit => ?_⟩
  · rw [exec_snapshotLoad hs.2.2, if_pos hversion]
  · rw [exec_snapshotLoad hs.2.2, if_neg (not_not_intro hversion), hfit, if_neg Bool.false_ne_true]

/-- Settles O49: the assignments of the load give each line and CPU the fields of its entry in the snapshot, which has
one because it fits; `Update()` ends the load. -/
theorem loadRestoresThePersistedFields : Obligations.LoadRestoresThePersistedFields := by
  intro s snap hs hversion hfit
  obtain ⟨hok, ⟨hlines, _, hcpus, _⟩, hlive⟩ := hs
  obtain ⟨hsnapCpus, _, _, hsnapLines⟩ := fits_iff.1 hfit
  refine ⟨_, exec_snapshotLoad_fits hlive hversion hfit,
    after_update (u := s.loadFields snap) (numIrq_le hok) rfl ?_ ?_ (fun i hi => ?_) (fun c hc => ?_)⟩
  · simp [State.loadFields, hlines, hsnapLines]
  · simp [State.loadFields, hcpus, hsnapCpus]
  · have hentry : i < snap.lines.length := hsnapLines ▸ hi
    rw [loadFields_line (hlines ▸ hi) hentry, List.getElem?_eq_getElem hentry]
    rfl
  · have hentry : c < snap.cpus.length := hsnapCpus ▸ hc
    rw [loadFields_cpu (hcpus ▸ hc) hentry, List.getElem?_eq_getElem hentry]
    rfl

/-! ## Round trips (rule R288) -/

/-- The assignments of a load of the snapshot just saved change nothing. -/
theorem loadFields_save (s : State) : s.loadFields s.save = s := by
  have hlines : List.zipWith Line.load s.lines (s.lines.map Line.save) = s.lines := by
    rw [List.zipWith_map_right, List.zipWith_self]
    exact List.map_id _
  have hcpus : List.zipWith Cpu.load s.cpus (s.cpus.map Cpu.save) = s.cpus := by
    rw [List.zipWith_map_right, List.zipWith_self]
    exact List.map_id _
  simp only [State.loadFields, State.save, hlines, hcpus]

/-- The state that construction leaves for the same parameters, after the assignments of a load of `s.save`. -/
def State.reloaded (s : State) : State := (State.initial s.cfg).loadFields s.save

/-- Its lines are the saved ones, all of them low. -/
theorem reloaded_line (hs : Shaped s) (i : Nat) : s.reloaded.line i = { s.line i with level := false } := by
  have hlines : s.reloaded.lines = s.lines.map fun l => { l with level := false } := by
    refine List.ext_getElem (by simp [State.reloaded, State.loadFields, State.initial, State.save, hs.1])
      fun i _ _ => ?_
    simp [State.reloaded, State.loadFields, State.initial, State.save, Line.load, Line.save, Line.atReset]
  rw [State.line, hlines]
  exact List.getD_map s.lines Line.absent fun l => { l with level := false }

/-- Its CPUs are the saved ones, with the binary point of reset and an output that awaits `Update()`. -/
theorem reloaded_cpu (hs : Shaped s) (c : Nat) :
    s.reloaded.cpu c = { s.cpu c with binPoint := 0, irqOut := false } := by
  have hcpus : s.reloaded.cpus = s.cpus.map fun p => { p with binPoint := 0, irqOut := false } := by
    refine List.ext_getElem (by simp [State.reloaded, State.loadFields, State.initial, State.save, hs.2.2.1])
      fun c _ _ => ?_
    simp [State.reloaded, State.loadFields, State.initial, State.save, Cpu.load, Cpu.save, Cpu.atReset]
  rw [State.cpu, hcpus]
  exact List.getD_map s.cpus (Cpu.atReset 0) fun p => { p with binPoint := 0, irqOut := false }

/-- Levels and binary points, and the outputs themselves, are nothing that arbitration reads. -/
theorem reloaded_arbitration_iff (hs : Shaped s) (c : Nat) :
    (∀ id, IsBest s.reloaded c id ↔ IsBest s c id) ∧ (MayInterrupt s.reloaded c ↔ MayInterrupt s c) := by
  refine arbitrationCurrent_of_same (s := s) (t := s.reloaded) rfl rfl (fun i => ?_) (fun i k => ?_) (fun k => ?_) c
  · rw [reloaded_line hs i]
    exact ⟨rfl, rfl⟩
  · rw [State.prio, reloaded_cpu hs k]
    rfl
  · rw [reloaded_cpu hs k]
    exact ⟨rfl, rfl, rfl⟩

/-- The outputs that arbitration gives a CPU are the ones that rule R147 allows, because it allows no others. -/
theorem arbitrate_eq_of_isBest {best : IrqId} {out : Bool} (hn : v.cfg.numIrq ≤ 1020) (hbest : IsBest v c best)
    (hout : out = true ↔ MayInterrupt v c) :
    v.arbitrate c (v.cpu c) = { v.cpu c with best := best, irqOut := out } := by
  obtain ⟨hbest', hout'⟩ := arbitrate_spec v hn c
  rw [arbitrate_eq, isBest_unique hbest' hbest, Bool.eq_iff_iff.2 (hout'.trans hout.symm)]

/-- `Update()` then gives each CPU the outputs that were current when the snapshot was saved. -/
theorem reloaded_update_cpu (hs : Live s) (hcur : ArbitrationCurrent s) (hc : c < s.cfg.numCpu) :
    s.reloaded.update.cpu c = { s.cpu c with binPoint := 0 } := by
  obtain ⟨hok, hshape, _⟩ := hs
  obtain ⟨hbest, hmay⟩ := reloaded_arbitration_iff hshape c
  obtain ⟨hbestSaved, houtSaved⟩ := hcur c hc
  have harb := arbitrate_eq_of_isBest (v := s.reloaded) (numIrq_le hok) ((hbest _).2 hbestSaved)
    (houtSaved.trans hmay.symm)
  rw [update_cpu, harb, reloaded_cpu hshape c]

/-- Settles O51: both loads are of a snapshot that fits. On the saved state its assignments change nothing, nor does
`Update()`; on the constructed one they give the saved fields, and `Update()` the saved outputs. -/
theorem snapshotRoundTrip : Obligations.SnapshotRoundTrip := by
  intro s hs hcur
  obtain ⟨hok, hshape, hlive⟩ := hs
  have hfit := save_fits hshape
  have hsame : exec (.snapshotLoad s.save) s = .next { s with response := .none } := by
    rw [exec_snapshotLoad_fits hlive rfl hfit, loadFields_save,
      update_of_current (numIrq_le hok) (cpus_length hshape) hcur]
  have hfresh : exec (.snapshotLoad s.save) (State.initial s.cfg) =
      .next { s.reloaded.update with response := .none } := exec_snapshotLoad_fits rfl rfl hfit
  exact ⟨_, s.save, exec_snapshotSave hlive, rfl, hsame, _, hfresh, rfl, rfl, fun i _ => reloaded_line hshape i,
    fun c hc => reloaded_update_cpu ⟨hok, hshape, hlive⟩ hcur hc⟩

end Sys2Proof.Machine
/-! SUPPORT and CLAIMS. Errors and nesting (`60_exceptions.md`): after a fatal error nothing is performed, and an
End-Of-Interrupt takes the id it names out of the chain, wherever in the chain it stands. -/

namespace Sys2Proof.Machine

variable {s t : State} {c i j : Nat} {id pred : IrqId} {members before after rest : List IrqId}

/-! ## After a fatal error (rule R300) -/

theorem unlessFatal_dead (hf : s.fatal = true) (o : Outcome) : s.unlessFatal o = .refused .fatalState := if_pos hf

/-- Every operation tests the fatal bit before it does anything: the register accesses with their caller, and the four
that no CPU asks for by themselves. -/
theorem exec_unlessFatal (i : Instr) (s : State) : ∃ o, exec i s = s.unlessFatal o := by
  cases hcaller : callerOf i with
  | some c =>
    obtain ⟨_, haccess⟩ := exec_asCpu hcaller s
    exact ⟨_, haccess⟩
  | none => cases i <;> cases hcaller <;> exact ⟨_, rfl⟩

/-- Settles O8: a step tests the fatal bit before it takes an event, and an operation before it does anything. -/
theorem fatalStateRefusesEveryOperation : Obligations.FatalStateRefusesEveryOperation := by
  intro s hf
  refine ⟨if_pos hf, fun i => ?_⟩
  obtain ⟨o, hexec⟩ := exec_unlessFatal i s
  rw [hexec, unlessFatal_dead hf]

/-! ## Retirements keep a live state live -/

theorem live_onLine {f : Line → Line} (hs : Live s) : Live (s.onLine i f) := by
  obtain ⟨hok, ⟨hlines, hrest⟩, hlive⟩ := hs
  exact ⟨hok, ⟨(List.length_modify ..).trans hlines, hrest⟩, hlive⟩

/-- A change of a CPU keeps the sizes of the tables if it keeps those of the CPU's own. -/
theorem live_onCpu {g : Cpu → Cpu}
    (hg : ∀ p, (g p).prioPriv.length = p.prioPriv.length ∧ (g p).lastActive.length = p.lastActive.length)
    (hs : Live s) : Live (s.onCpu c g) := by
  obtain ⟨hok, ⟨hlines, hshared, hcpus, hsizes⟩, hlive⟩ := hs
  refine ⟨hok, ⟨hlines, hshared, (List.length_modify ..).trans hcpus, fun p hp => ?_⟩, hlive⟩
  obtain ⟨k, hk, rfl⟩ := List.getElem_of_mem hp
  simp only [onCpu_cpus, List.length_modify] at hk
  have hold := hsizes _ (List.getElem_mem hk)
  simp only [onCpu_cpus, List.getElem_modify]
  split
  · rwa [(hg _).1, (hg _).2]
  · exact hold

theorem live_update (hs : Live s) : Live s.update := by
  obtain ⟨hok, ⟨hlines, hshared, hcpus, hsizes⟩, hlive⟩ := hs
  refine ⟨hok, ⟨hlines, hshared, (update_cpus_length s).trans hcpus, fun p hp => ?_⟩, hlive⟩
  obtain ⟨k, hk, rfl⟩ := List.mem_mapIdx.1 hp
  rw [arbitrate_prioPriv, arbitrate_lastActive]
  exact hsizes _ (List.getElem_mem hk)

theorem live_updateIf {b : Bool} (hs : Live s) : Live (s.updateIf b) := by
  cases b
  · exact hs
  · exact live_update hs

theorem live_repended (hs : Live s) : Live (s.repended c i) := by
  rw [repended_eq]
  exact live_onLine hs

theorem live_popped {prev : IrqId} (hs : Live s) : Live (s.popped c i prev) :=
  live_onCpu (fun _ => ⟨rfl, rfl⟩) (live_onLine hs)

theorem live_splice (hs : Live s) : Live (s.splice c i pred) :=
  live_onLine (live_onCpu (fun _ => ⟨rfl, List.length_set⟩) hs)

/-! ## The retirement of a member of the chain (rules R251 and R252) -/

/-- `t` is `s` after CPU `c` has retired `id`: its chain is `rest`, its running priority is the idle one if nothing is
left, and the lines active for it are those before without `id`. -/
structure Retired (s : State) (c : Nat) (id : IrqId) (rest : List IrqId) (t : State) : Prop where
  live : Live t
  cfg : t.cfg = s.cfg
  chain : IsGoodChain t.cfg (t.cpu c) rest
  idle : rest = [] → (t.cpu c).runPrio = nonePrio
  active : ∀ j, (t.line j).active.getLsbD c = true ↔ j ≠ id.toNat ∧ (s.line j).active.getLsbD c = true

/-- What runs at the start of a chain of lines is nothing or a line. -/
theorem isChain_start_idOk {cfg : Config} {la : List IrqId} {start : IrqId} (h : IsChain la start members)
    (hlines : ∀ k ∈ members, k.toNat < cfg.numIrq) : IdOk cfg start := by
  cases members with
  | nil => exact .inl h
  | cons k rest => exact .inr (h.1 ▸ hlines k List.mem_cons_self)

/-- The id written is the id retired (rule R125). -/
theorem exec_eoi_of_id (hs : Live s) (hc : c < s.cfg.numCpu) (id : IrqId) :
    exec (.cpuEoiW c (id.setWidth 32)) s = s.retire c id := by
  rw [execCpuEoiW_live hs hc, BitVec.setWidth_setWidth_of_le _ (by decide), BitVec.setWidth_eq]

/-- The tables after a retirement show every line as active that was, but the one retired. -/
theorem repended_deactivate_active_iff (hs : Live s) (hc : c < s.cfg.numCpu) (hi : i < s.cfg.numIrq) :
    (((s.repended c i).deactivate c i).line j).active.getLsbD c = true ↔
      j ≠ i ∧ (s.line j).active.getLsbD c = true := by
  have hbit : c < 8 := Nat.lt_of_lt_of_le hc (numCpu_le hs.1)
  rw [repended_deactivate_line hs.2.1 hi]
  split
  case isTrue h => simp only [active_and, h, hbit, ne_eq, not_true, and_true, and_false, false_and]
  case isFalse h => exact (and_iff_right h).symm

/-- The running id is the first member, and its retirement pops it: the chain goes on from its link. -/
theorem eoi_retires_running (hs : Live s) (hc : c < s.cfg.numCpu)
    (hgood : IsGoodChain s.cfg (s.cpu c) (id :: rest)) :
    ∃ t, exec (.cpuEoiW c (id.setWidth 32)) s = .next t ∧ Retired s c id rest t := by
  obtain ⟨⟨hrun, _, hchain⟩, hnodup, hlines⟩ := hgood
  obtain ⟨hid, hrestLines⟩ := List.forall_mem_cons.1 hlines
  have hprev := getElem?_eq_getD noneId ((lastActive_length hs.2.1 hc).symm ▸ hid)
  generalize (s.cpu c).lastActive.getD id.toNat noneId = prev at hchain hprev
  rw [exec_eoi_of_id hs hc,
    retire_running hs.1 hid hrun hprev (isChain_start_idOk hchain hrestLines)]
  refine ⟨_, rfl, live_update (live_popped (live_repended hs)), ?_, ?_, fun hnil => ?_, fun j => ?_⟩
  · exact repended_cfg s c id.toNat
  · rw [answered_cpu, update_entry, repended_popped_cpu hs.2.1 hc, if_pos rfl]
    exact ⟨hchain, (List.nodup_cons.1 hnodup).2, (repended_cfg s c id.toNat).symm ▸ hrestLines⟩
  · subst hnil
    rw [answered_cpu, update_entry, repended_popped_cpu hs.2.1 hc, if_pos rfl]
    exact if_pos hchain
  · exact repended_deactivate_active_iff hs hc hid

/-- The retirement of a later member splices it out of the chain. -/
theorem eoi_retires_nested (hs : Live s) (hc : c < s.cfg.numCpu)
    (hgood : IsGoodChain s.cfg (s.cpu c) (before ++ pred :: id :: after)) :
    ∃ t, exec (.cpuEoiW c (id.setWidth 32)) s = .next t ∧ Retired s c id (before ++ pred :: after) t := by
  have hretire := retire_nested hs hc hgood
  obtain ⟨hchain, hnodup, hlines⟩ := hgood
  have hid : id.toNat < s.cfg.numIrq := hlines id (by simp)
  have hpred : pred.toNat < (s.cpu c).lastActive.length := by
    rw [lastActive_length hs.2.1 hc]
    exact hlines pred (by simp)
  have hsub : (before ++ pred :: after).Sublist (before ++ pred :: id :: after) := by simp
  rw [exec_eoi_of_id hs hc, hretire]
  have hcfg : (((s.repended c id.toNat).splice c id.toNat pred).updateIf (s.comesBack c id.toNat)).cfg = s.cfg := by
    rw [updateIf_rest, repended_splice_rest]
  refine ⟨_, rfl, live_updateIf (live_splice (live_repended hs)), hcfg, ?_, fun hnil => ?_, fun j => ?_⟩
  · rw [answered_cpu, updateIf_cpu, repended_splice_cpu hs.2.1 hc, if_pos rfl]
    exact ⟨isChain_splice hpred hchain hnodup, hnodup.sublist hsub, fun k hk => hcfg ▸ hlines k (hsub.mem hk)⟩
  · exact absurd hnil (by simp)
  · rw [answered_line, updateIf_line]
    exact repended_deactivate_active_iff hs hc hid

/-- The retirement of any member of a good chain leaves the other members in their order. -/
theorem eoi_retires_member (hs : Live s) (hc : c < s.cfg.numCpu)
    (hgood : IsGoodChain s.cfg (s.cpu c) (before ++ id :: after)) :
    ∃ t, exec (.cpuEoiW c (id.setWidth 32)) s = .next t ∧ Retired s c id (before ++ after) t := by
  rcases List.eq_nil_or_concat before with rfl | ⟨before, pred, rfl⟩
  · exact eoi_retires_running hs hc hgood
  · simp only [List.concat_eq_append, List.append_assoc, List.singleton_append] at hgood ⊢
    exact eoi_retires_nested hs hc hgood

/-! ## Nesting (rules R331 and R332) -/

/-- Settles O47: whichever member goes first, the chain that is left is the other one, and then nothing. -/
theorem nestedRetirementInEitherOrderEndsIdle : Obligations.NestedRetirementInEitherOrderEndsIdle := by
  intro s c a b hs hc hgood first second horder
  have hne : b ≠ a := by
    obtain ⟨_, hnodup, _⟩ := hgood
    simpa using hnodup
  have hfirst : ∃ t, exec (.cpuEoiW c (first.setWidth 32)) s = .next t ∧ Retired s c first [second] t := by
    rcases horder with ⟨rfl, rfl⟩ | ⟨rfl, rfl⟩
    · exact eoi_retires_member (before := [second]) (after := []) hs hc hgood
    · exact eoi_retires_member (before := []) (after := [second]) hs hc hgood
  obtain ⟨t, heoi, ht⟩ := hfirst
  obtain ⟨u, heoi', hu⟩ :=
    eoi_retires_member (before := []) (after := []) ht.live (ht.cfg ▸ hc) ht.chain
  have hinactive {k : IrqId} (hk : k = first ∨ k = second) : (u.line k.toNat).active.getLsbD c = false := by
    rw [Bool.eq_false_iff]
    intro hactive
    obtain ⟨hnotSecond, hactive⟩ := (hu.active _).1 hactive
    obtain ⟨hnotFirst, _⟩ := (ht.active _).1 hactive
    exact hk.elim (fun h => hnotFirst (congrArg _ h)) fun h => hnotSecond (congrArg _ h)
  obtain ⟨⟨hrun, _⟩, _⟩ := ht.chain
  obtain ⟨hnothing, _⟩ := hu.chain
  refine ⟨t, u, heoi, heoi', hrun.trans ?_, hnothing, hu.idle rfl, ?_⟩
  · rcases horder with ⟨rfl, rfl⟩ | ⟨rfl, rfl⟩
    · exact (if_pos rfl).symm
    · exact (if_neg hne).symm
  · rcases horder with ⟨rfl, rfl⟩ | ⟨rfl, rfl⟩
    · exact ⟨hinactive (.inl rfl), hinactive (.inr rfl)⟩
    · exact ⟨hinactive (.inr rfl), hinactive (.inl rfl)⟩

end Sys2Proof.Machine

/-! SUPPORT and CLAIMS. The reset table (`10_state.md` rule R41): reset and construction leave it, and it meets the
invariants of `10_state.md` section 7. -/

namespace Sys2Proof.Machine

variable {s : State} {cfg : Config} {i c : Nat}

/-! ## Arbitration of the reset table -/

/-- The `Update()` of rule R350 finds the gate closed and every output already as it would leave it. -/
theorem resetTable_update (s : State) : s.resetTable.update = s.resetTable := by
  refine update_of_disabled rfl fun p hp => ?_
  obtain rfl := List.eq_of_mem_replicate hp
  exact ⟨rfl, rfl⟩

theorem resetTable_current (hn : s.cfg.numIrq ≤ 1020) : ArbitrationCurrent s.resetTable :=
  resetTable_update s ▸ update_current s.resetTable hn

/-! ## Reset (rules R350 and R352) -/

/-- Of the state before it, a reset keeps the parameters, the diagnostic and what still waits. -/
theorem exec_reset (hf : s.fatal = false) :
    exec .reset s = .next { State.initial s.cfg with diag := s.diag, inbox := s.inbox } :=
  calc exec .reset s
    _ = s.resetTable.update.answer .none := unlessFatal_live hf _
    _ = s.resetTable.answer .none := by rw [resetTable_update]
    _ = .next { State.initial s.cfg with fatal := s.fatal, diag := s.diag, inbox := s.inbox } := rfl
    _ = .next { State.initial s.cfg with diag := s.diag, inbox := s.inbox } := by rw [hf]; rfl

/-- Private and shared priorities alike are 0 (decision D7). -/
theorem resetTable_prio (hc : c < s.cfg.numCpu) (hi : i < s.cfg.numIrq) : s.resetTable.prio i c = 0 := by
  by_cases hpriv : i < 32
  · rw [prio_private hpriv, resetTable_cpu hc]
    exact List.getD_replicate _ hpriv
  · rw [prio_shared hpriv]
    exact List.getD_replicate _ (Nat.sub_lt_sub_right (Nat.le_of_not_lt hpriv) hi)

/-- Settles O10: the state after a reset is the constructed one, and its tables are those of `resetTable`. -/
theorem resetGivesTheResetTable : Obligations.ResetGivesTheResetTable := by
  intro s hs
  obtain ⟨_, _, hf⟩ := hs
  refine ⟨_, exec_reset hf, rfl, fun i hi => resetTable_line hi, fun c hc => ?_, rfl, rfl, rfl⟩
  have hcpu : ({ State.initial s.cfg with diag := s.diag, inbox := s.inbox } : State).cpu c =
      Cpu.atReset s.cfg.numIrq := resetTable_cpu hc
  rw [hcpu]
  exact ⟨rfl, rfl, rfl, rfl, rfl, rfl, rfl, fun i hi => List.getElem?_replicate_of_lt hi,
    fun i hi => resetTable_prio hc hi⟩

/-! ## The state that construction leaves (rule R42) -/

/-- A constructed instance is its own reset table. -/
theorem initial_resetTable (cfg : Config) : (State.initial cfg).resetTable = State.initial cfg := rfl

theorem initial_inv (hok : cfg.ok = true) : Inv (State.initial cfg) where
  tables := initial_resetTable cfg ▸ tables_reset (s := State.initial cfg) hok
  arbitration := initial_resetTable cfg ▸ resetTable_current (s := State.initial cfg) (numIrq_le hok)
  inbox := fun _ he => absurd he List.not_mem_nil

theorem initial_chains (cfg : Config) : ChainsOk (State.initial cfg) :=
  initial_resetTable cfg ▸ chains_reset (State.initial cfg)

/-- Settles O53: an instance is constructed with its reset table, and the parameters of the machine at reset are legal. -/
theorem resetStateMeetsTheInvariants : Obligations.ResetStateMeetsTheInvariants :=
  ⟨fun _ hok => ⟨initial_inv hok, initial_chains _⟩, initial_inv atReset_ok⟩

end Sys2Proof.Machine
